-- ==== Sys2Proof/Word.lean ====
section
/-! DEFINITION. Sys2Proof/Word.lean: the word types of the block (00_scope.md R13, 30_encoding.md R73). -/

namespace Sys2Proof

/-- A byte: 8 bits, an unsigned value 0 to 255 (00_scope.md R13). -/
abbrev Byte := BitVec 8

/-- A host command word `W`: 56 bits (30_encoding.md R73). -/
abbrev CmdWord := BitVec 56

end Sys2Proof
end

