-- ==== Sys2Proof/Syntax.lean ====
section
/-! DEFINITION. Sys2Proof/Syntax.lean: the enumerations of 30_encoding.md R74 and the one syntax of
instructions: a constructor per row of spec/opcode_table.json (14 host commands, 3 wire frames). -/

namespace Sys2Proof

/-- A physical colour level, the value of a 2-bit pixel (R18, R74). -/
inductive Level where
  | black | darkGray | lightGray | white
deriving DecidableEq, Repr

/-- A logical rendered colour (R18, R74); conflict C3 fixes the count at six. -/
inductive Colour where
  | black | white | yellow | green | red | blue
deriving DecidableEq, Repr

/-- An update mode (R74, R163). -/
inductive UpdateMode where
  | full | partly | mono
deriving DecidableEq, Repr

/-- The `target` of `RP_WRBUF`: which device-side buffer a buffer-write frame fills (R74, R30). -/
inductive BufferSel where
  | current | previous
deriving DecidableEq, Repr

/-- The `fillsel` of `RP_WRBUF`: stream the live FrameBuffer, or the constant `fill` (R74). -/
inductive FillSel where
  | live | fill
deriving DecidableEq, Repr

/-- The instructions. An argument that has codes naming nothing (`index`, `mode`, `colour`, R84) is kept
as its raw code, because what such a code does is a rule of the command (R192, R194). -/
inductive Instr where
  /-- `FB_CLEAR level` (R102). -/
  | fbClear (level : Level)
  /-- `FB_INVERT` (R103). -/
  | fbInvert
  /-- `FB_SETSEG index, level` (R106). -/
  | fbSetseg (index : BitVec 5) (level : Level)
  /-- `FB_DRAWSEGS mask, level` (R107). -/
  | fbDrawsegs (mask : BitVec 32) (level : Level)
  /-- `RP_WRREG addr, pm, op0..op3` (R122, R89). -/
  | rpWrreg (addr : Byte) (pm : BitVec 4) (op0 op1 op2 op3 : Byte)
  /-- `RP_RDREG addr` (R123). -/
  | rpRdreg (addr : Byte)
  /-- `RP_WRBUF target, fillsel, fill` (R124). -/
  | rpWrbuf (target : BufferSel) (fillsel : FillSel) (fill : Byte)
  /-- `PS_ON` (R141). -/
  | psOn
  /-- `PS_OFF` (R143). -/
  | psOff
  /-- `WS_BEGIN` (R159). -/
  | wsBegin
  /-- `WS_UPDATE mode, manual` (R162). -/
  | wsUpdate (mode : BitVec 2) (manual : Bool)
  /-- `WS_RENDER colour` (R168). -/
  | wsRender (colour : BitVec 3)
  /-- `WS_SETCV v`, `v` in 16-bit two's complement (R160). -/
  | wsSetcv (v : BitVec 16)
  /-- `WS_SETSV sv`, `sv` unsigned (R161). -/
  | wsSetsv (sv : BitVec 16)
  /-- The register-write frame `W_WRREG`: address and present operands (R76). -/
  | wWrreg (addr : BitVec 7) (ops : List Byte)
  /-- The register-read frame `W_RDREG`: address and the byte clocked out for the response (R77). -/
  | wRdreg (addr : BitVec 7) (filler : Byte)
  /-- The buffer-write frame `W_WRBUF`: the streamed data (R78). -/
  | wWrbuf (data : List Byte)
deriving DecidableEq, Repr

end Sys2Proof
end

