-- ==== Sys2Proof/Config.lean ====
section
/-! DEFINITION. Sys2Proof/Config.lean: the configuration record (00_scope.md R8 to R12; the list at the
end of 92_eei_decisions.md), the spec's example configuration, and the free values of the environment.
A configuration is a field of State that no step writes, so every statement over states is a
statement over configurations. -/

namespace Sys2Proof

/-- What a `SEG_TABLE` entry counts (`SEG_UNIT`, decision D5). -/
inductive SegUnit where
  | byte | pixel
deriving DecidableEq, Repr

/-- Every non-fixed parameter of the block (R8). The constraints a configuration must meet are
`wellFormedConfig` in Machine/Operands.lean. -/
structure Config where
  /-- `FB_SIZE` (R9, D4). -/
  fbSize : Nat
  /-- `PANEL_WIDTH` (R9, D4). -/
  panelWidth : Nat
  /-- `BUFFER_ROWS` (R9, D4). -/
  bufferRows : Nat
  /-- `SEG_TABLE[0..21]` (R9, R23, D7). -/
  segTable : List Nat
  /-- `SEG_UNIT` (R9, D5). -/
  segUnit : SegUnit
  /-- `SUBFIELD_MSB_FIRST` (R9, R52, D6). -/
  subfieldMsbFirst : Bool
  /-- `FILLER` (R10, D10). -/
  filler : Byte
  /-- `WAIT_BOUND` (R10, D12): `none` is the unbounded wait of the source. -/
  waitBound : Option Nat
  /-- `STRICT` (R10, D13). -/
  strict : Bool
  /-- `HAS_RESET_LINE` (R10). -/
  hasResetLine : Bool
  /-- The 18 device register addresses `REG_*` (R11, R33, D8), in the order of R33. -/
  regWritePointer : Byte
  regResolution : Byte
  regTiming : Byte
  regPowerSequence : Byte
  regPowerControl : Byte
  regStatus : Byte
  regSoftwareReset : Byte
  regPanelGeometry : Byte
  regPixelRect : Byte
  regCvInit : Byte
  regIntervalSync : Byte
  regDriverVoltage : Byte
  regBorder : Byte
  regMonoWaveform : Byte
  regBoost : Byte
  regCommonVoltage : Byte
  regProgrammedWaveform : Byte
  regEngineTrigger : Byte
  /-- `CP_READY_MASK` (R34, D20). -/
  cpReadyMask : Byte
  /-- The 17 operand lists `OPS_*` (R11, R33, D9, D17, D29). -/
  opsWpCurrent : List Byte
  opsWpPrevious : List Byte
  opsResolution : List Byte
  opsTiming : List Byte
  opsPowerSequence : List Byte
  opsRailsUp : List Byte
  opsRailsDown1 : List Byte
  opsRailsDown2 : List Byte
  opsSoftwareReset : List Byte
  opsPanelGeometry : List Byte
  opsPixelRect : List Byte
  opsCvInit : List Byte
  opsIntervalSync : List Byte
  opsDriverVoltageInit : List Byte
  opsBorder : List Byte
  opsMonoWaveform : List Byte
  opsBoost : List Byte
  /-- `PROGSEL_FULL`, `PROGSEL_PARTIAL` (R39, D21). -/
  progselFull : Byte
  progselPartial : Byte
  /-- `ERASE_MODE`, `ERASE_DELAY_MS`, `ERASE_NEG_LEVEL`, `ERASE_FINAL_LEVEL` (R12, D18). -/
  eraseMode : UpdateMode
  eraseDelayMs : Nat
  eraseNegLevel : Level
  eraseFinalLevel : Level
  /-- `BLUE_LEADING_SV` (R12, R175, D23). -/
  blueLeadingSv : Bool
deriving DecidableEq, Repr

/-- `N_STREAM = PANEL_WIDTH*BUFFER_ROWS/4` (R9, R78). DESIGN CHOICE (log 19): the division truncates, which
matters only where the product is not a multiple of 4; the spec does not say what `/` gives there. -/
def Config.nStream (c : Config) : Nat := c.panelWidth * c.bufferRows / 4

/-- The free value of log 3: the byte the environment answers to the `n`-th `Xfer` that no queued answer
covers (60_exceptions.md R206: "`Xfer(t)` returns any byte"). It has no body on purpose. -/
opaque Config.xferAnswer : Nat → Byte

/-- The free value of log 3: the answer of the environment to the `n`-th `SampleBusy` that no queued
answer covers (R206: "`SampleBusy()` returns any boolean"). It has no body on purpose. -/
opaque Config.busyAnswer : Nat → Bool

/-- The example configuration `EX` (95_test_vectors.md section 0): "one admissible configuration", whose
addresses and operand bytes are example values only. DESIGN CHOICE (log 1): the reset state carries it. -/
def Config.ex : Config where
  fbSize := 300
  panelWidth := 240
  bufferRows := 5
  segTable := [4, 5, 6, 7, 8, 9, 10, 11, 12, 13, 14, 15, 16, 17, 18, 19, 20, 21, 22, 23, 24, 25]
  segUnit := .byte
  subfieldMsbFirst := true
  filler := 0x00
  waitBound := none
  strict := true
  hasResetLine := true
  regWritePointer := 0x0F
  regResolution := 0x0C
  regTiming := 0x06
  regPowerSequence := 0x1F
  regPowerControl := 0x03
  regStatus := 0x15
  regSoftwareReset := 0x20
  regPanelGeometry := 0x01
  regPixelRect := 0x0D
  regCvInit := 0x18
  regIntervalSync := 0x05
  regDriverVoltage := 0x02
  regBorder := 0x1D
  regMonoWaveform := 0x44
  regBoost := 0x04
  regCommonVoltage := 0x1B
  regProgrammedWaveform := 0x40
  regEngineTrigger := 0x14
  cpReadyMask := 0x01
  opsWpCurrent := [0x20]
  opsWpPrevious := [0x30]
  opsResolution := [0x00, 0xEF, 0x00, 0x93]
  opsTiming := [0x67, 0x55]
  opsPowerSequence := [0x00, 0x00, 0x00]
  opsRailsUp := [0xD1]
  opsRailsDown1 := [0xD0]
  opsRailsDown2 := [0xC0]
  opsSoftwareReset := []
  opsPanelGeometry := [0x12]
  opsPixelRect := [0x00, 0xEF, 0x00, 0x04]
  opsCvInit := [0x00, 0x00, 0x24, 0x07]
  opsIntervalSync := [0x00]
  opsDriverVoltageInit := [0x25, 0xFF]
  opsBorder := [0x04]
  opsMonoWaveform := [0x60]
  opsBoost := [0x22, 0x17]
  progselFull := 0x00
  progselPartial := 0x01
  eraseMode := .full
  eraseDelayMs := 50
  eraseNegLevel := .white
  eraseFinalLevel := .white
  blueLeadingSv := false

end Sys2Proof
end

