-- ==== Sys2Proof/WellFormed.lean ====
section
/-! DEFINITION. Sys2Proof/WellFormed.lean: the checks on an instruction as syntax. -/

namespace Sys2Proof

/-- An instruction that the encodings of spec/30_encoding.md admit, for a stream of `nStream` bytes:
every host command (each argument has its field, R73); a register-write frame to an address other than
0x10 with at most 4 operands (R76, R79); a buffer-write frame of exactly `nStream` data bytes (R78, R86). -/
def Instr.wellFormed (nStream : Nat) : Instr → Bool
  | .fbClear _ => true
  | .fbInvert => true
  | .fbSetseg _ _ => true
  | .fbDrawsegs _ _ => true
  | .rpWrreg _ _ _ _ _ _ => true
  | .rpRdreg _ => true
  | .rpWrbuf _ _ _ => true
  | .psOn => true
  | .psOff => true
  | .wsBegin => true
  | .wsUpdate _ _ => true
  | .wsRender _ => true
  | .wsSetcv _ => true
  | .wsSetsv _ => true
  | .wWrreg addr ops => addr != 0x10#7 && decide (ops.length ≤ 4)
  | .wRdreg _ _ => true
  | .wWrbuf data => data.length == nStream

/-- An instruction whose arguments all name something (R84): index 0 to 21, mode 0 to 2, colour 0 to 5.
An instruction that fails this is still encodable; what it does is R192 and R194. -/
def Instr.named : Instr → Bool
  | .fbClear _ => true
  | .fbInvert => true
  | .fbSetseg index _ => decide (index.toNat ≤ 21)
  | .fbDrawsegs _ _ => true
  | .rpWrreg _ _ _ _ _ _ => true
  | .rpRdreg _ => true
  | .rpWrbuf _ _ _ => true
  | .psOn => true
  | .psOff => true
  | .wsBegin => true
  | .wsUpdate mode _ => decide (mode.toNat ≤ 2)
  | .wsRender colour => decide (colour.toNat ≤ 5)
  | .wsSetcv _ => true
  | .wsSetsv _ => true
  | .wWrreg _ _ => true
  | .wRdreg _ _ => true
  | .wWrbuf _ => true

end Sys2Proof
end

