-- ==== Sys2Proof/Decode.lean ====
section
/-! DEFINITION. Sys2Proof/Decode.lean: the decoder of host command words (30_encoding.md R72, R73) and of
wire frames (R76 to R79, R86), total on any bits and bytes and rejecting by name; then the encoder, from
the same tables; then the two encodings under one name. -/

namespace Sys2Proof

/-- Why the decoder rejects what it is given. -/
inductive DecodeError where
  /-- The opcode `W[55:48]` is not one of the 14 of R72. -/
  | unknownOpcode (opcode : Byte)
  /-- A frame has at least its first byte (R75). -/
  | emptyFrame
  /-- The length is not the one the frame's kind has (R86). -/
  | frameLength (length : Nat)
deriving DecidableEq, Repr

/-! ## The argument codes of R74 -/

/-- The level a 2-bit code names (R74). -/
def Level.ofCode (c : BitVec 2) : Level :=
  if c = 0#2 then .black else if c = 1#2 then .darkGray else if c = 2#2 then .lightGray else .white

/-- The 2-bit code of a level (R74, R80). -/
def Level.code : Level → BitVec 2
  | .black => 0#2
  | .darkGray => 1#2
  | .lightGray => 2#2
  | .white => 3#2

/-- The colour a 3-bit code names; codes 6 and 7 name nothing (R74, R84). -/
def Colour.ofCode (c : BitVec 3) : Option Colour :=
  if c = 0#3 then some .black else if c = 1#3 then some .white else if c = 2#3 then some .yellow
  else if c = 3#3 then some .green else if c = 4#3 then some .red else if c = 5#3 then some .blue
  else none

/-- The mode a 2-bit code names; code 3 names nothing (R74, R84). -/
def UpdateMode.ofCode (c : BitVec 2) : Option UpdateMode :=
  if c = 0#2 then some .full else if c = 1#2 then some .partly else if c = 2#2 then some .mono
  else none

/-- `target`: 0 current, 1 previous (R74). -/
def BufferSel.ofBit (b : BitVec 1) : BufferSel := if b = 0#1 then .current else .previous

/-- The bit of a `target` (R74). -/
def BufferSel.bit : BufferSel → BitVec 1
  | .current => 0#1
  | .previous => 1#1

/-- `fillsel`: 0 the live FrameBuffer, 1 the constant (R74). -/
def FillSel.ofBit (b : BitVec 1) : FillSel := if b = 0#1 then .live else .fill

/-- The bit of a `fillsel` (R74). -/
def FillSel.bit : FillSel → BitVec 1
  | .live => 0#1
  | .fill => 1#1

/-! ## Host command words -/

/-- The slice `W[hi:lo]` of `n = hi - lo + 1` bits (R13). -/
def cmdField (w : CmdWord) (lo n : Nat) : BitVec n := w.extractLsb' lo n

/-- Decoding a host command word: opcode `W[55:48]` (R72), fields by R73; bits no field uses are ignored. -/
def decode (w : CmdWord) : Except DecodeError Instr :=
  let opcode : Byte := cmdField w 48 8
  let level := Level.ofCode (cmdField w 0 2)
  if opcode = 0x01#8 then .ok (.fbClear level)
  else if opcode = 0x02#8 then .ok .fbInvert
  else if opcode = 0x03#8 then .ok (.fbSetseg (cmdField w 8 5) level)
  else if opcode = 0x04#8 then .ok (.fbDrawsegs (cmdField w 8 32) level)
  else if opcode = 0x10#8 then
    .ok (.rpWrreg (cmdField w 40 8) (cmdField w 32 4) (cmdField w 24 8) (cmdField w 16 8)
      (cmdField w 8 8) (cmdField w 0 8))
  else if opcode = 0x11#8 then .ok (.rpRdreg (cmdField w 40 8))
  else if opcode = 0x12#8 then
    .ok (.rpWrbuf (BufferSel.ofBit (cmdField w 0 1)) (FillSel.ofBit (cmdField w 1 1)) (cmdField w 8 8))
  else if opcode = 0x20#8 then .ok .psOn
  else if opcode = 0x21#8 then .ok .psOff
  else if opcode = 0x30#8 then .ok .wsBegin
  else if opcode = 0x31#8 then .ok (.wsUpdate (cmdField w 0 2) (cmdField w 2 1 == 1#1))
  else if opcode = 0x32#8 then .ok (.wsRender (cmdField w 0 3))
  else if opcode = 0x33#8 then .ok (.wsSetcv (cmdField w 0 16))
  else if opcode = 0x34#8 then .ok (.wsSetsv (cmdField w 0 16))
  else .error (.unknownOpcode opcode)

/-! ## Wire frames -/

/-- What a frame is, by its first byte alone (R79). -/
inductive FrameKind where
  /-- `W_WRBUF`. -/
  | bufWrite
  /-- `W_RDREG` of a register. -/
  | regRead (addr : BitVec 7)
  /-- `W_WRREG` of a register. -/
  | regWrite (addr : BitVec 7)
deriving DecidableEq, Repr

/-- Classifying a frame by its first byte `b`: 0x10 is a buffer write, else bit 7 set is a register read of
`b[6:0]`, else it is a register write of `b`; the test for 0x10 comes first (R79). -/
def frameKind (b : Byte) : FrameKind :=
  if b = 0x10#8 then .bufWrite
  else if b.getLsbD 7 then .regRead (b.extractLsb' 0 7)
  else .regWrite (b.extractLsb' 0 7)

/-- Decoding the bytes of one chip-select-bracketed frame, for a stream length of `nStream`: the kind is that
of the first byte (R79), and the length is checked to be that of the kind (R86). DESIGN CHOICE (log 6): a
frame of another length is no instruction; what a device makes of one is `coarseFrame`. -/
def decodeFrame (nStream : Nat) : List Byte → Except DecodeError Instr
  | [] => .error .emptyFrame
  | b :: rest =>
    match frameKind b with
    | .bufWrite =>
      if rest.length = nStream then .ok (.wWrbuf rest) else .error (.frameLength (rest.length + 1))
    | .regRead addr =>
      match rest with
      | [f] => .ok (.wRdreg addr f)
      | _ => .error (.frameLength (rest.length + 1))
    | .regWrite addr =>
      if rest.length ≤ 4 then .ok (.wWrreg addr rest) else .error (.frameLength (rest.length + 1))

/-! ## The encoder -/

/-- An instruction as it is stored or sent: a command word, or the bytes of a frame. -/
inductive Encoded where
  | command (w : CmdWord)
  | frame (bytes : List Byte)
deriving DecidableEq, Repr

/-- The first byte of a register-write frame, `0aaaaaaa` (R76). -/
def writeFrameHead (addr : BitVec 7) : Byte := 0#1 ++ addr

/-- The first byte of a register-read frame, `1aaaaaaa` (R77). -/
def readFrameHead (addr : BitVec 7) : Byte := 1#1 ++ addr

/-- The encoding of an instruction; bits no field uses are 0 (R73, R76 to R78). -/
def encode : Instr → Encoded
  | .fbClear level => .command (0x01#8 ++ 0#46 ++ level.code)
  | .fbInvert => .command (0x02#8 ++ 0#48)
  | .fbSetseg index level => .command (0x03#8 ++ 0#35 ++ index ++ 0#6 ++ level.code)
  | .fbDrawsegs mask level => .command (0x04#8 ++ 0#8 ++ mask ++ 0#6 ++ level.code)
  | .rpWrreg addr pm op0 op1 op2 op3 =>
    .command (0x10#8 ++ addr ++ 0#4 ++ pm ++ op0 ++ op1 ++ op2 ++ op3)
  | .rpRdreg addr => .command (0x11#8 ++ addr ++ 0#40)
  | .rpWrbuf target fillsel fill =>
    .command (0x12#8 ++ 0#32 ++ fill ++ 0#6 ++ fillsel.bit ++ target.bit)
  | .psOn => .command (0x20#8 ++ 0#48)
  | .psOff => .command (0x21#8 ++ 0#48)
  | .wsBegin => .command (0x30#8 ++ 0#48)
  | .wsUpdate mode manual => .command (0x31#8 ++ 0#45 ++ BitVec.ofBool manual ++ mode)
  | .wsRender colour => .command (0x32#8 ++ 0#45 ++ colour)
  | .wsSetcv v => .command (0x33#8 ++ 0#32 ++ v)
  | .wsSetsv sv => .command (0x34#8 ++ 0#32 ++ sv)
  | .wWrreg addr ops => .frame (writeFrameHead addr :: ops)
  | .wRdreg addr filler => .frame [readFrameHead addr, filler]
  | .wWrbuf data => .frame (0x10#8 :: data)

/-- Decoding either kind of encoding, for a stream length of `nStream`. -/
def decodeAny (nStream : Nat) : Encoded → Except DecodeError Instr
  | .command w => decode w
  | .frame bytes => decodeFrame nStream bytes

/-! ## The opcode table's rows as words -/

/-- The whole frame whose first byte is `b` and whose every later byte is 0: a buffer write has `nStream`
data bytes, a register read its filler, a register write no operand (R76 to R78, R86). -/
def frameOfFirstByte (nStream : Nat) (b : Byte) : List Byte :=
  match frameKind b with
  | .bufWrite => b :: List.replicate nStream 0#8
  | .regRead _ => [b, 0#8]
  | .regWrite _ => [b]

/-- The instruction an opcode-table word stands for: a 56-bit host command, or a frame known by its first
byte, with the stream length of the example configuration (300). -/
def decodeTableWord (nbits w : Nat) : Option Instr :=
  if nbits = 56 then (decode (BitVec.ofNat 56 w)).toOption
  else if nbits = 8 then
    (decodeFrame 300 (frameOfFirstByte 300 (BitVec.ofNat 8 w))).toOption
  else none

end Sys2Proof
end

