-- ==== Sys2Proof/Machine/Operands.lean ====
section
/-! DEFINITION. Sys2Proof/Machine/Operands.lean: operand assembly and the fixed encoders
(30_encoding.md R80 to R83, R89), segment addressing (40_framebuffer.md R104), the mode table
(43_waveform_sequencer.md R163), and the constraints on a configuration (00_scope.md R9,
92_eei_decisions.md D4, D7, D8, D9, D12, D20). -/

namespace Sys2Proof.Machine

/-! ## Pixels -/

/-- `Pattern(level)`: the level code copied into all four sub-fields (R80). -/
def pattern (l : Level) : Byte := l.code ++ l.code ++ l.code ++ l.code

/-- The shift of sub-field `s` (R52, R81). -/
def fieldShift (msbFirst : Bool) (s : Nat) : Nat := if msbFirst then 6 - 2 * s else 2 * s

/-- `SetField(b, s, l)`: `b` with sub-field `s` replaced by `l` (R81). -/
def setField (msbFirst : Bool) (b : Byte) (s : Nat) (l : Level) : Byte :=
  (b &&& ~~~(0b11#8 <<< fieldShift msbFirst s)) ||| (l.code.setWidth 8 <<< fieldShift msbFirst s)

/-- `GetField(b, s)` (R81). -/
def getField (msbFirst : Bool) (b : Byte) (s : Nat) : BitVec 2 :=
  (b >>> fieldShift msbFirst s).setWidth 2

/-! ## Segment addressing -/

/-- `TILE_STRIDE` (R9). -/
def tileStride : Nat := 60

/-- `N_TILES` (R9). -/
def nTiles : Nat := 5

/-- `N_SEG` (R9). -/
def nSeg : Nat := 22

/-- `SEG_TABLE[i]` (R23). A well-formed table has the 22 entries asked for. -/
def segEntry (c : Config) (i : Nat) : Nat := c.segTable.getD i 0

/-- `SegSub(i)` (R104). -/
def segSub (c : Config) (i : Nat) : Nat := segEntry c i % 4

/-- `SegByte(i, k)` (R104, D5). -/
def segByte (c : Config) (i k : Nat) : Nat :=
  match c.segUnit with
  | .byte => segEntry c i + tileStride * k
  | .pixel => (segEntry c i + tileStride * k) / 4

/-- The five tile bytes of segment `i`, `k = 0` first (R106). -/
def segBytes (c : Config) (i : Nat) : List Nat := (List.range nTiles).map (segByte c i)

/-- The segments a mask selects, ascending; bits 22 to 31 are ignored (R107). -/
def maskSegments (mask : BitVec 32) : List Nat := (List.range nSeg).filter (fun i => mask.getLsbD i)

/-! ## Register operands -/

/-- `READ_FLAG` (R10). -/
def readFlag : Byte := 0x80#8

/-- `OPC_BUF_WRITE` (R10). -/
def opcBufWrite : Byte := 0x10#8

/-- The present operands in slot order: slot `k` is present when `pm[k] = 1` (R89, R122). -/
def presentOps (pm : BitVec 4) (op0 op1 op2 op3 : Byte) : List Byte :=
  (if pm.getLsbD 0 then [op0] else []) ++ (if pm.getLsbD 1 then [op1] else [])
    ++ (if pm.getLsbD 2 then [op2] else []) ++ (if pm.getLsbD 3 then [op3] else [])

/-! ## Voltages, in millivolts -/

/-- `CV_DIVISOR` (R11). -/
def cvDivisor : Nat := 30

/-- `CV_SIGN_FLAG` (R11). -/
def cvSignFlag : Byte := 0x04#8

/-- `EncodeCV(v)` (R82): the little-endian halves of `|v| div 30`, the sign flag in the high byte. -/
def encodeCV (v : Int) : List Byte :=
  let m := v.natAbs / cvDivisor
  let lo := BitVec.ofNat 8 m
  let hi := BitVec.ofNat 8 (m / 256)
  [lo, if v < 0 then hi ||| cvSignFlag else hi]

/-- `SV_FIXED_OP0` (R11, R37). -/
def svFixedOp0 : Byte := 0x25#8

/-- The number `n = (sv div 1000 - 8) * 2` of R83, a signed integer. -/
def svNibble (sv : Nat) : Int := ((sv / 1000 : Nat) - 8 : Int) * 2

/-- `EncodeSV(sv)` (R83): the low 8 bits of `(n << 4) | n`, evaluated in two's complement on 16 bits. -/
def encodeSV (sv : Nat) : Byte :=
  let n := BitVec.ofInt 16 (svNibble sv)
  ((n <<< 4) ||| n).setWidth 8

/-! ## The mode table -/

/-- `ProgSel(mode)` (R163, R39). -/
def progSel (c : Config) : UpdateMode → Byte
  | .full => c.progselFull
  | .partly => c.progselPartial
  | .mono => 0x02#8

/-- `Trig(mode)` (R163, R36). -/
def trig : UpdateMode → Byte
  | .full => 0x03#8
  | .partly => 0x03#8
  | .mono => 0x07#8

/-! ## The constraints on a configuration -/

/-- The 17 registers the block writes (R33: rows 1 to 5 and 7 to 18). -/
def writtenRegs (c : Config) : List Byte :=
  [c.regWritePointer, c.regResolution, c.regTiming, c.regPowerSequence, c.regPowerControl,
   c.regSoftwareReset, c.regPanelGeometry, c.regPixelRect, c.regCvInit, c.regIntervalSync,
   c.regDriverVoltage, c.regBorder, c.regMonoWaveform, c.regBoost, c.regCommonVoltage,
   c.regProgrammedWaveform, c.regEngineTrigger]

/-- The 16 registers that must have pairwise different addresses; the two left out are `REG_CV_INIT`, which
may equal `REG_COMMON_VOLTAGE`, and `REG_PANEL_GEOMETRY`, which may equal `REG_RESOLUTION` (R33, D8). -/
def distinctRegs (c : Config) : List Byte :=
  [c.regWritePointer, c.regResolution, c.regTiming, c.regPowerSequence, c.regPowerControl, c.regStatus,
   c.regSoftwareReset, c.regPixelRect, c.regIntervalSync, c.regDriverVoltage, c.regBorder,
   c.regMonoWaveform, c.regBoost, c.regCommonVoltage, c.regProgrammedWaveform, c.regEngineTrigger]

/-- The 17 operand lists (D9). -/
def operandLists (c : Config) : List (List Byte) :=
  [c.opsWpCurrent, c.opsWpPrevious, c.opsResolution, c.opsTiming, c.opsPowerSequence, c.opsRailsUp,
   c.opsRailsDown1, c.opsRailsDown2, c.opsSoftwareReset, c.opsPanelGeometry, c.opsPixelRect, c.opsCvInit,
   c.opsIntervalSync, c.opsDriverVoltageInit, c.opsBorder, c.opsMonoWaveform, c.opsBoost]

/-- The geometry of R9: `FB_SIZE = N_STREAM`, a table of 22 entries, and every address a command can
compute from it below `FB_SIZE` (D4, D7). -/
def geometryOk (c : Config) : Bool :=
  c.fbSize == c.nStream && c.segTable.length == nSeg
    && (List.range nSeg).all (fun i => (segBytes c i).all (fun a => decide (a < c.fbSize)))

/-- D8: every address is 7 bits; no written register is at 0x10; registers with different names share an
address only where R33 says so. -/
def registersOk (c : Config) : Bool :=
  (writtenRegs c).all (fun a => decide (a.toNat < 0x80) && a != opcBufWrite)
    && decide (c.regStatus.toNat < 0x80)
    && decide ((distinctRegs c).Nodup)
    && (distinctRegs c).all (fun a =>
        (a != c.regCvInit || a == c.regCommonVoltage)
          && (a != c.regPanelGeometry || a == c.regResolution))
    && c.regCvInit != c.regPanelGeometry

/-- D9: at most 4 operand bytes each; the three rail commands pairwise different; the two pointer selections
different. -/
def operandsOk (c : Config) : Bool :=
  (operandLists c).all (fun l => decide (l.length ≤ 4))
    && c.opsRailsUp != c.opsRailsDown1 && c.opsRailsUp != c.opsRailsDown2
    && c.opsRailsDown1 != c.opsRailsDown2 && c.opsWpCurrent != c.opsWpPrevious

/-- D12: `WAIT_BOUND` is none or some n with n at least 1. D20: `CP_READY_MASK` has exactly one bit set. -/
def pollsOk (c : Config) : Bool :=
  (match c.waitBound with
    | none => true
    | some n => decide (1 ≤ n))
    && (List.range 8).any (fun b => c.cpReadyMask == BitVec.twoPow 8 b)

/-- A well-formed configuration (R9, R11, R223; D4, D7 first constraint, D8, D9, D12, D20; log 11). -/
def wellFormedConfig (c : Config) : Bool :=
  geometryOk c && registersOk c && operandsOk c && pollsOk c

end Sys2Proof.Machine
end

