-- ==== Sys2Proof/Machine/State.lean ====
section
/-! DEFINITION. Sys2Proof/Machine/State.lean: the state of the block as plain data (10_state.md), the
device shadow (60_exceptions.md R207), the observation (00_scope.md R16), the inputs from outside, and the
ways a step can stop. -/

namespace Sys2Proof.Machine

/-- A level of the chip-select or the reset output (R28). -/
inductive Line where
  | low | high
deriving DecidableEq, Repr

/-- The panel power state `PS` (R24). -/
inductive PowerState where
  | down | poweringUp | up | poweringDown
deriving DecidableEq, Repr

/-- `RESULT`, the outcome of a finished command (R27, R190). -/
inductive Result where
  | ok
  | okValue (b : Byte)
  | deviceTimeout
  | invalidConfiguration
  | notConfigured
deriving DecidableEq, Repr

/-- An event of the fine trace: one per primitive call (R15). -/
inductive Event where
  /-- `CS(low)`, `CS(high)`. -/
  | cs (l : Line)
  /-- `XFER(t, r)`: byte `t` sent, byte `r` answered. -/
  | xfer (t r : Byte)
  /-- `BUSY(b)`. -/
  | busy (b : Bool)
  /-- `RST(low)`, `RST(high)`. -/
  | rst (l : Line)
  /-- `DELAY(n)`. -/
  | delay (n : Nat)
deriving DecidableEq, Repr

/-- A statement of a command's pseudocode. The statements that contain a wait also have a form for a
command that is standing inside that wait, with the loop counters of R204: `polls` (R121), `reads` (R141). -/
inductive Op where
  /-- A frame whose answers are discarded: `SetCS(low)`, `Tx` of each byte, `SetCS(high)` (R75). -/
  | frame (bytes : List Byte)
  /-- The live form of the buffer-write frame: 0x10, then `FB[0]` to `FB[N_STREAM-1]` (R78, R124). -/
  | stream
  /-- `WaitBusyClear()` after `polls` samples that were busy (R121). -/
  | wait (polls : Nat)
  /-- The read frame `head filler`, its wait, and `RESULT <- OkValue(r)` (R123). -/
  | readResult (head filler : Byte)
  /-- The wait and the result of `readResult`, the response `r` already taken. -/
  | readWait (r : Byte) (polls : Nat)
  /-- The ready poll of `PowerOn` after `reads` status reads that were not ready (R141). -/
  | pollReady (reads : Nat)
  /-- The ready poll, standing in the wait of a read transaction that answered `r`. -/
  | pollWait (r : Byte) (polls reads : Nat)
  /-- `PS <- p` (R140). -/
  | setPower (p : PowerState)
  /-- `SetRST(l)` (R156). -/
  | setReset (l : Line)
  /-- `Delay(n)` (R15). -/
  | delay (n : Nat)
  /-- `Clear(level)`, the body of `FB_CLEAR` (R102). -/
  | clear (level : Level)
  /-- `Invert()`, the body of `FB_INVERT` (R103). -/
  | invert
  /-- The body of `FB_SETSEG index, level` (R106). -/
  | setSeg (index : Nat) (level : Level)
  /-- `CONFIGURED <- 1` (R159). -/
  | setConfigured
deriving DecidableEq, Repr

/-- `SEQ`, the sequencer position (R26): idle, or command `c` is executing and `k` primitives have been
called so far. `todo` is what of the command's pseudocode is still to be done: the model's way to say where
in the pseudocode those `k` calls have led. -/
inductive Seq where
  | idle
  | running (c : Instr) (k : Nat) (todo : List Op)
deriving DecidableEq, Repr

/-- The FrameBuffer as a sparse memory (20_memory.md): (address, byte) pairs, addresses strictly rising,
none with the byte an unlisted address reads as (`Memory.unlisted` in Machine/Ops.lean). -/
abbrev Memory := List Host.Cell

/-- One entry of `DEV.triggers` (R207): the program-select and trigger operands, and what the shadow held
when the trigger was written. `none` is "unknown". -/
structure Trigger where
  progsel : Option (List Byte)
  trigger : List Byte
  cur : Option (List Byte)
  prev : Option (List Byte)
  cv : Option (List Byte)
  sv : Option (List Byte)
deriving DecidableEq, Repr

/-- The device shadow of R207; `none` is "unknown". No rule of the block reads it (R30). -/
structure Device where
  /-- `DEV.wp`. -/
  wp : Option BufferSel
  /-- `DEV.cur`. -/
  cur : Option (List Byte)
  /-- `DEV.prev`. -/
  prev : Option (List Byte)
  /-- `DEV.cv`: the last operand bytes written to `REG_COMMON_VOLTAGE`. -/
  cv : Option (List Byte)
  /-- `DEV.sv`: the last operand bytes written to `REG_DRIVER_VOLTAGE`. -/
  sv : Option (List Byte)
  /-- The last operand bytes written to `REG_PROGRAMMED_WAVEFORM`: the program-select half of the next pair. -/
  progsel : Option (List Byte)
  /-- `DEV.triggers`, oldest first, since the last reset of the block or of the device (log 8). -/
  triggers : List Trigger
deriving DecidableEq, Repr

/-- "Everything is unknown after reset and after a reset of the device" (R207). -/
def Device.unknown : Device where
  wp := none
  cur := none
  prev := none
  cv := none
  sv := none
  progsel := none
  triggers := []

/-- The environment's answers (R31, R206): those already fixed, and how many free answers were used after
the fixed ones ran out (log 3). -/
structure Env where
  /-- The answers to the next `Xfer` calls. -/
  xfer : List Byte
  /-- The answers to the next `SampleBusy` calls. -/
  busy : List Bool
  /-- How many answers of `Config.xferAnswer` have been used. -/
  xferCount : Nat
  /-- How many answers of `Config.busyAnswer` have been used. -/
  busyCount : Nat
deriving DecidableEq, Repr

/-- The state. `fb` to `rst` are the block's own state, exactly the seven of R20; `cfg` is the configuration,
which no step writes; `dev` is the device shadow; `trace` and `returned` are the observation of R16; `env`,
`hostIn` and `frameIn` are inputs from outside. -/
structure State where
  /-- The configuration record (R8). -/
  cfg : Config
  /-- `FB` (R21). -/
  fb : Memory
  /-- `PS` (R24). -/
  ps : PowerState
  /-- `CONFIGURED` (R25). -/
  configured : Bool
  /-- `SEQ` (R26). -/
  seq : Seq
  /-- `RESULT` (R27). -/
  result : Result
  /-- `CS` (R28). -/
  cs : Line
  /-- `RST` (R28); without a reset line nothing writes it (log 12). -/
  rst : Line
  /-- The device shadow (R207). -/
  dev : Device
  /-- The fine trace since reset, oldest event first (R16). -/
  trace : List Event
  /-- The result of every command that has ended since reset, oldest first (R16, R71). -/
  returned : List Result
  /-- The environment's answers (R206). -/
  env : Env
  /-- Command words the host will present, the next one first (R71, log 5). -/
  hostIn : List CmdWord
  /-- Frames put on the bus by themselves, the next one first (R70, log 6). -/
  frameIn : List (List Byte)
deriving DecidableEq, Repr

/-- Why a step could fault. There is no constructor: no rule of the spec stops the block. A failing command
ends with a failure as its `RESULT` ("surfaced as results, not as process-terminating faults", R27, R196), and
no admitted configuration computes an address outside the FrameBuffer (R54). -/
inductive Fault where
deriving DecidableEq, Repr

/-- Why a step is refused. Every refusal is safe: the machine stops where the spec says that the model
refuses, and nothing can be proved about what follows. -/
inductive Refusal where
  /-- Raised by no arm: every instruction has its meaning. -/
  | notModelled (mnemonic : String)
  /-- Raised by every command and step under a configuration that is not well-formed: "A configuration that
  breaks either is refused by the model before any command runs" (R9, 93 U12). Safe. -/
  | illFormedConfiguration
  /-- Raised by `step` with `STRICT = false` on an opcode that is none of the 14 (R84, R194, 93 U4). Safe. -/
  | unknownOpcode
  /-- Raised by `FB_SETSEG` with `STRICT = false` on index 22 to 31 (R84, R106, 93 U2). Safe. -/
  | segmentIndex
  /-- Raised by `WS_UPDATE` with `STRICT = false` on mode 3 (R84, R162, 93 U3). Safe. -/
  | updateMode
  /-- Raised by `WS_RENDER` with `STRICT = false` on colour 6 and 7 (R84, R168, 93 U4). Safe. -/
  | colourCode
  /-- Raised by `step` on bytes put on the bus by themselves that are no frame (R75, R86, log 6). Safe. -/
  | notAFrame
deriving DecidableEq, Repr

/-- The state right after a reset of the block (R41, R220), for a configuration and any contents of `FB`,
which are "unspecified" (R41). -/
def State.resetWith (cfg : Config) (fb : Memory) : State where
  cfg := cfg
  fb := fb
  ps := .down
  configured := false
  seq := .idle
  result := .ok
  cs := .high
  rst := .high
  dev := Device.unknown
  trace := []
  returned := []
  env := { xfer := [], busy := [], xferCount := 0, busyCount := 0 }
  hostIn := []
  frameIn := []

/-- The machine right after reset (R41, R220). DESIGN CHOICE: the configuration is `EX` (log 1) and every
FrameBuffer byte is 0x00 (log 2). -/
def State.reset : State := State.resetWith Config.ex []

end Sys2Proof.Machine
end

