-- ==== Sys2Proof/Machine/Trace.lean ====
section
/-! DEFINITION. Sys2Proof/Machine/Trace.lean: the coarse trace derived from the fine one (00_scope.md R16,
30_encoding.md R79). -/

namespace Sys2Proof.Machine

/-- An event of the coarse trace (R16). -/
inductive Coarse where
  /-- `WR(addr, ops)`. -/
  | wr (addr : BitVec 7) (ops : List Byte)
  /-- `RD(addr, r)`: the register number and the response, the second byte answered; `none` in a frame of one
  byte, which has no second (vector P8: only `RP_WRREG` with `STRICT = false` sends it, R85), and in the
  expected traces of Safety.lean, where the response is the environment's to choose. -/
  | rd (addr : BitVec 7) (r : Option Byte)
  /-- `STREAM(bytes)`. -/
  | stream (bytes : List Byte)
  /-- `WAITBUSY`: a wait that ended with busy clear. -/
  | waitBusy
  /-- `RST(l)`. -/
  | rst (l : Line)
  /-- `DELAY(n)`. -/
  | delay (n : Nat)
  /-- Two chip-select edges with no byte between them, which R79 does not classify; no instruction of R86 sends
  them (R75: a frame has at least its first byte; log 9). -/
  | unframed
deriving DecidableEq, Repr

/-- The coarse event of one frame, from the (sent, answered) byte pairs: its kind is that of its first byte,
whatever its length (R16, R79). -/
def coarseFrame : List (Byte × Byte) → Coarse
  | [] => .unframed
  | (b, _) :: rest =>
    match frameKind b with
    | .bufWrite => .stream (rest.map Prod.fst)
    | .regRead addr => .rd addr (rest.head?.map Prod.snd)
    | .regWrite addr => .wr addr (rest.map Prod.fst)

/-- The coarse trace; `opened` holds the byte pairs of the frame that is open, if one is. The busy samples of
a wait are one `WAITBUSY`, put where the wait ends (R16, R121). -/
def coarseFrom : Option (List (Byte × Byte)) → List Event → List Coarse
  | _, [] => []
  | _, .cs .low :: es => coarseFrom (some []) es
  | some ps, .cs .high :: es => coarseFrame ps :: coarseFrom none es
  | none, .cs .high :: es => coarseFrom none es
  | opened, .xfer t r :: es => coarseFrom (opened.map (· ++ [(t, r)])) es
  | opened, .busy true :: es => coarseFrom opened es
  | opened, .busy false :: es => .waitBusy :: coarseFrom opened es
  | opened, .rst l :: es => .rst l :: coarseFrom opened es
  | opened, .delay n :: es => .delay n :: coarseFrom opened es

/-- The coarse trace of a fine trace that starts with no frame open (R16). -/
def coarse (es : List Event) : List Coarse := coarseFrom none es

end Sys2Proof.Machine
end

