-- ==== Sys2Proof/Machine/Device.lean ====
section
/-! DEFINITION. Sys2Proof/Machine/Device.lean: the device shadow as a fold over the coarse trace
(60_exceptions.md R207). It says what the frames told the device, not what the panel shows. -/

namespace Sys2Proof.Machine

/-- A write of `addr` with operands `ops`, as the shadow sees it (R207). A write to the software-reset
register makes everything unknown; after a trigger `DEV.prev` is unknown (R207, log 8). -/
def Device.write (c : Config) (addr : BitVec 7) (ops : List Byte) (d : Device) : Device :=
  let a : Byte := addr.setWidth 8
  if a = c.regSoftwareReset then Device.unknown
  else if a = c.regWritePointer then
    { d with wp :=
        if ops = c.opsWpCurrent then some .current
        else if ops = c.opsWpPrevious then some .previous
        else none }
  else if a = c.regCommonVoltage then { d with cv := some ops }
  else if a = c.regDriverVoltage then { d with sv := some ops }
  else if a = c.regProgrammedWaveform then { d with progsel := some ops }
  else if a = c.regEngineTrigger then
    { d with
      prev := none
      triggers := d.triggers ++
        [{ progsel := d.progsel, trigger := ops, cur := d.cur, prev := d.prev, cv := d.cv, sv := d.sv }] }
  else d

/-- A buffer stream, as the shadow sees it: `N_STREAM` bytes replace the buffer `DEV.wp` selects (R207). A
stream of another length leaves that buffer unknown, and with the pointer unknown either buffer may have been
written (log 8). -/
def Device.streamed (c : Config) (data : List Byte) (d : Device) : Device :=
  let buffer := if data.length = c.nStream then some data else none
  match d.wp with
  | some .current => { d with cur := buffer }
  | some .previous => { d with prev := buffer }
  | none => { d with cur := none, prev := none }

/-- One coarse event, as the shadow sees it (R207). A reset of the device (R156, R157) makes everything unknown
(log 8). -/
def Device.see (c : Config) (d : Device) : Coarse → Device
  | .wr addr ops => Device.write c addr ops d
  | .rd _ _ => d
  | .stream data => Device.streamed c data d
  | .waitBusy => d
  | .rst .low => Device.unknown
  | .rst .high => d
  | .delay _ => d
  | .unframed => d

/-- The shadow a fine trace leaves, started from "unknown" (R207). -/
def deviceShadow (c : Config) (es : List Event) : Device :=
  (coarse es).foldl (Device.see c) Device.unknown

end Sys2Proof.Machine
end

