-- ==== Sys2Proof/Machine/Flags.lean ====
section
/-! DEFINITION. Sys2Proof/Machine/Flags.lean: the conditions the rules test. The block has no arithmetic
flags (10_state.md R29); what stands in their place is the result code (60_exceptions.md R190) and the
argument checks (R192). -/

namespace Sys2Proof.Machine

/-- The code of a result (R190). -/
def Result.code : Result → Nat
  | .ok => 0
  | .okValue _ => 0
  | .deviceTimeout => 1
  | .invalidConfiguration => 2
  | .notConfigured => 3

/-- `|v| <= 30719` (R82, R192, D15). -/
def cvInRange (v : Int) : Bool := decide (v.natAbs ≤ 30719)

/-- `8000 <= sv <= 15999` (R83, R192, D15). -/
def svInRange (sv : Nat) : Bool := decide (8000 ≤ sv) && decide (sv ≤ 15999)

/-- An address `RP_WRREG` admits with `STRICT`: below 0x80 and not 0x10 (R85, R192). -/
def writeAddrOk (addr : Byte) : Bool := decide (addr.toNat < 0x80) && addr != opcBufWrite

/-- An address `RP_RDREG` admits with `STRICT`: below 0x80 (R85, R192). -/
def readAddrOk (addr : Byte) : Bool := decide (addr.toNat < 0x80)

/-- An index that names a segment (R84, R192). -/
def segIndexOk (index : BitVec 5) : Bool := decide (index.toNat ≤ 21)

/-- `WAIT_BOUND = some(n) and count >= n`, the test of both poll loops (R121, R141, R191). -/
def boundReached (bound : Option Nat) (count : Nat) : Bool :=
  match bound with
  | none => false
  | some n => decide (n ≤ count)

/-- The charge-pump-ready bit of a status byte (R34, R141). -/
def pumpReady (c : Config) (r : Byte) : Bool := (r &&& c.cpReadyMask) != 0#8

end Sys2Proof.Machine
end

