-- ==== Sys2Proof/Machine/Ops.lean ====
section
/-! DEFINITION. Sys2Proof/Machine/Ops.lean: the named operations every meaning is written over: the
FrameBuffer as memory (20_memory.md), the primitives (00_scope.md R15), ending a command with a result
(60_exceptions.md R196), the busy wait and the ready poll (R121, R141), running a command's pseudocode, and
the command-level checks (R195). -/

namespace Sys2Proof.Machine

/-! ## Memory -/

/-- What an address no entry lists reads as. DESIGN CHOICE, unsafe (log 2): the spec leaves the bytes of
`FB` after reset open (R41); statements quantify over every `FB`. -/
def Memory.unlisted : Byte := 0x00#8

/-- The byte at an address. -/
def Memory.read : Memory → Nat → Byte
  | [], _ => Memory.unlisted
  | (b, w) :: m, a => if a = b then w else Memory.read m a

/-- Storing a byte; the canonical form is kept, so storing the unlisted byte removes the entry. -/
def Memory.write : Memory → Nat → Byte → Memory
  | [], a, v => if v = Memory.unlisted then [] else [(a, v)]
  | (b, w) :: m, a, v =>
    if a < b then (if v = Memory.unlisted then (b, w) :: m else (a, v) :: (b, w) :: m)
    else if a = b then (if v = Memory.unlisted then m else (a, v) :: m)
    else (b, w) :: Memory.write m a v

/-- Storing one byte at each of a list of addresses, in order. -/
def Memory.writeAll (m : Memory) (addrs : List Nat) (v : Byte) : Memory :=
  addrs.foldl (fun m a => m.write a v) m

/-- The memory of `n` bytes whose byte at address `a` is `f a`: every byte of the array written at once. -/
def Memory.tabulate (n : Nat) (f : Nat → Byte) : Memory :=
  (List.range n).filterMap (fun a => if f a = Memory.unlisted then none else some (a, f a))

/-- Bytes `0` to `n - 1`, ascending (R50). -/
def Memory.bytes (m : Memory) (n : Nat) : List Byte := (List.range n).map m.read

/-- The canonical form: addresses strictly rising, no entry equal to what an unlisted address reads as. -/
def Memory.wf (m : Memory) : Bool :=
  decide (m.Pairwise (fun x y => x.1 < y.1)) && m.all (fun x => x.2 != Memory.unlisted)

/-! ## The FrameBuffer functions (R100) and the FrameBuffer commands' bodies

Their six laws (R109) are proved in Laws/FrameBuffer.lean. -/

/-- `Clear(level)` as a function to `FB`: `FB[a] <- Pattern(level)` for `a` in 0..FB_SIZE-1 (R100, R102;
R109 (1)). -/
def fbCleared (c : Config) (level : Level) : Memory := Memory.tabulate c.fbSize (fun _ => pattern level)

/-- `Invert()` as a function of `FB`: `FB[a] <- ~FB[a]` for `a` in 0..FB_SIZE-1 (R100, R103; R109 (2), (3)). -/
def fbInverted (c : Config) (fb : Memory) : Memory := Memory.tabulate c.fbSize (fun a => ~~~ fb.read a)

/-- The new byte of a segment write: the primary byte with its sub-field replaced (R106). -/
def segNewByte (c : Config) (fb : Memory) (index : Nat) (level : Level) : Byte :=
  setField c.subfieldMsbFirst (fb.read (segByte c index 0)) (segSub c index) level

/-- The body of `FB_SETSEG` as a function of `FB`: the identical new byte at the segment's five tile bytes
(R100, R106, conflict C1; R109 (5)). -/
def fbSegmentSet (c : Config) (index : Nat) (level : Level) (fb : Memory) : Memory :=
  fb.writeAll (segBytes c index) (segNewByte c fb index level)

/-- `Clear(level)` (R102). -/
def State.clearFb (level : Level) (s : State) : State := { s with fb := fbCleared s.cfg level }

/-- `Invert()` (R103). -/
def State.invertFb (s : State) : State := { s with fb := fbInverted s.cfg s.fb }

/-- The body of `FB_SETSEG` (R106). -/
def State.setSegment (index : Nat) (level : Level) (s : State) : State :=
  { s with fb := fbSegmentSet s.cfg index level s.fb }

/-! ## Primitives -/

/-- One more primitive call (R26). -/
def Seq.tick : Seq → Seq
  | .idle => .idle
  | .running c k todo => .running c (k + 1) todo

/-- What of the command is still to be done. -/
def Seq.withTodo (todo : List Op) : Seq → Seq
  | .idle => .idle
  | .running c k _ => .running c k todo

/-- A primitive call appends one event to the trace and advances `SEQ` by one (R15, R26). -/
def State.emit (e : Event) (s : State) : State :=
  { s with trace := s.trace ++ [e], seq := s.seq.tick }

/-- `SetCS(l)` (R15). -/
def State.setCS (l : Line) (s : State) : State := { s.emit (.cs l) with cs := l }

/-- The environment's answer to the next `Xfer` (R206): a queued one, else the free value (log 3). -/
def Env.answer (e : Env) : Byte × Env :=
  match e.xfer with
  | r :: rest => (r, { e with xfer := rest })
  | [] => (Config.xferAnswer e.xferCount, { e with xferCount := e.xferCount + 1 })

/-- `Xfer(t)`: the byte answered, and the state after (R15). -/
def State.xfer (t : Byte) (s : State) : Byte × State :=
  let a := s.env.answer
  (a.1, { s.emit (.xfer t a.1) with env := a.2 })

/-- `Xfer` of each byte in order: the answers, and the state after. -/
def State.xferAll : List Byte → State → List Byte × State
  | [], s => ([], s)
  | t :: ts, s =>
    let a := s.xfer t
    let rest := State.xferAll ts a.2
    (a.1 :: rest.1, rest.2)

/-- `SetRST(l)`; driving the line low resets the device (R15, R156, R207). -/
def State.setRST (l : Line) (s : State) : State :=
  { s.emit (.rst l) with rst := l, dev := Device.see s.cfg s.dev (.rst l) }

/-- `Delay(n)` (R15, D31). -/
def State.delayMs (n : Nat) (s : State) : State := s.emit (.delay n)

/-- `SampleBusy()` answering `b`, the first of the queued answers, `rest` the others (R15). -/
def State.sampled (b : Bool) (rest : List Bool) (s : State) : State :=
  { s.emit (.busy b) with env := { s.env with busy := rest } }

/-- One frame: `SetCS(low)`, the bytes, `SetCS(high)` (R75), and what the shadow sees of it (R207). Gives the
answers and the state after. -/
def State.sendFrame (bytes : List Byte) (s : State) : List Byte × State :=
  let a := (s.setCS .low).xferAll bytes
  let s' := a.2.setCS .high
  (a.1, { s' with dev := Device.see s'.cfg s'.dev (coarseFrame (bytes.zip a.1)) })

/-- The read frame: `Tx(head)`, `r = Xfer(FILLER)` (R77, R123). Gives the response. -/
def State.readFrame (head filler : Byte) (s : State) : Byte × State :=
  let a := s.sendFrame [head, filler]
  (a.1.getD 1 0#8, a.2)

/-! ## Ending a command -/

/-- A command ends: `RESULT` is written, the block is idle, completion is signalled (R71, R27). -/
def State.complete (r : Result) (s : State) : State :=
  { s with result := r, returned := s.returned ++ [r], seq := .idle }

/-- `raise <Cause>` (R196): the command stops at that point; `RESULT <- <Cause>`; `SEQ <- idle`; completion is
signalled. Nothing is saved, no mode changes, no control goes anywhere. There is no return from it (R197). -/
def State.fail (cause : Result) (s : State) : State := s.complete cause

/-! ## The busy wait -/

/-- Where a wait has come to. -/
inductive WaitEnd where
  /-- Busy was sampled clear. -/
  | clear (s : State)
  /-- The bound was reached: `DeviceTimeout`. -/
  | timeout (s : State)
  /-- No queued sample is left: the command stands in the wait, after `polls` busy samples. -/
  | pending (polls : Nat) (s : State)
deriving DecidableEq, Repr

/-- The loop of `WaitBusyClear` over the queued busy samples (R121). -/
def waitFrom : List Bool → Nat → State → WaitEnd
  | [], polls, s => .pending polls s
  | b :: rest, polls, s =>
    let s' := s.sampled b rest
    if b = false then .clear s'
    else if boundReached s'.cfg.waitBound (polls + 1) then .timeout s'
    else waitFrom rest (polls + 1) s'

/-- `WaitBusyClear()`, `polls` busy samples already taken (R121). -/
def State.waitBusyClear (polls : Nat) (s : State) : WaitEnd := waitFrom s.env.busy polls s

/-! ## Running a command's pseudocode -/

/-- Where one statement has come to. -/
inductive OpEnd where
  /-- It is done. -/
  | done (s : State)
  /-- It ends the command with a result: a failure (R196), or the byte of `RP_RDREG` (R123). -/
  | finish (r : Result) (s : State)
  /-- The command stands in it; `op` is what of it is left. -/
  | pend (op : Op) (s : State)
deriving DecidableEq, Repr

/-- The rest of the ready poll of `PowerOn` (R141), from a status read that is about to be made. Each turn but
the last uses up a queued busy sample, so `fuel` turns are enough when `fuel` exceeds their number; with no
turn left the command simply stands at the poll, and the next step goes on with it. -/
def pollFrom : Nat → Nat → State → OpEnd
  | 0, reads, s => .pend (.pollReady reads) s
  | fuel + 1, reads, s =>
    let a := s.readFrame (s.cfg.regStatus ||| readFlag) s.cfg.filler
    match a.2.waitBusyClear 0 with
    | .clear s' =>
      if pumpReady s'.cfg a.1 then .done s'
      else if boundReached s'.cfg.waitBound (reads + 1) then .finish .deviceTimeout s'
      else pollFrom fuel (reads + 1) s'
    | .timeout s' => .finish .deviceTimeout s'
    | .pending polls s' => .pend (.pollWait a.1 polls reads) s'

/-- The ready poll from a state, with turns enough for its queued busy samples. -/
def State.pollPump (reads : Nat) (s : State) : OpEnd := pollFrom (s.env.busy.length + 1) reads s

/-- One statement. -/
def doOp : Op → State → OpEnd
  | .frame bytes, s => .done (s.sendFrame bytes).2
  | .stream, s => .done (s.sendFrame (opcBufWrite :: s.fb.bytes s.cfg.nStream)).2
  | .wait polls, s =>
    match s.waitBusyClear polls with
    | .clear s' => .done s'
    | .timeout s' => .finish .deviceTimeout s'
    | .pending p s' => .pend (.wait p) s'
  | .readResult head filler, s =>
    let a := s.readFrame head filler
    match a.2.waitBusyClear 0 with
    | .clear s' => .finish (.okValue a.1) s'
    | .timeout s' => .finish .deviceTimeout s'
    | .pending p s' => .pend (.readWait a.1 p) s'
  | .readWait r polls, s =>
    match s.waitBusyClear polls with
    | .clear s' => .finish (.okValue r) s'
    | .timeout s' => .finish .deviceTimeout s'
    | .pending p s' => .pend (.readWait r p) s'
  | .pollReady reads, s => s.pollPump reads
  | .pollWait r polls reads, s =>
    match s.waitBusyClear polls with
    | .clear s' =>
      if pumpReady s'.cfg r then .done s'
      else if boundReached s'.cfg.waitBound (reads + 1) then .finish .deviceTimeout s'
      else s'.pollPump (reads + 1)
    | .timeout s' => .finish .deviceTimeout s'
    | .pending p s' => .pend (.pollWait r p reads) s'
  | .setPower p, s => .done { s with ps := p }
  | .setReset l, s => .done (s.setRST l)
  | .delay n, s => .done (s.delayMs n)
  | .clear level, s => .done (s.clearFb level)
  | .invert, s => .done s.invertFb
  | .setSeg index level, s => .done (s.setSegment index level)
  | .setConfigured, s => .done { s with configured := true }

/-- The statements of a command in order, to its end (`RESULT <- Ok`), to the statement that ends it, or to a
wait whose next busy sample the environment has not answered (log 4). -/
def runOps : List Op → State → State
  | [], s => s.complete .ok
  | op :: rest, s =>
    match doOp op s with
    | .done s' => runOps rest s'
    | .finish r s' => s'.complete r
    | .pend op' s' => { s' with seq := s'.seq.withTodo (op' :: rest) }

/-- Command `c` is accepted and runs (R71, R26). -/
def State.start (c : Instr) (body : List Op) (s : State) : State :=
  runOps body { s with seq := .running c 0 body }

/-- The environment fixes its next busy sample: the free value (log 3). -/
def State.nextBusy (s : State) : State :=
  { s with env := { s.env with busy := [Config.busyAnswer s.env.busyCount], busyCount := s.env.busyCount + 1 } }

/-- The running command goes on: if no busy sample is queued the environment fixes the next one. -/
def State.resume (s : State) : State :=
  match s.seq with
  | .idle => s
  | .running _ _ todo => runOps todo (if s.env.busy = [] then s.nextBusy else s)

/-! ## Accepting a command -/

/-- The checks every command goes through, in the order of R195, and then its body. `gated`: the command is one
of R193. `argOk`: its arguments pass R192. `lax`: what `STRICT = false` does with arguments that do not, when
they name nothing (R194); `none` when they are used as they are. A command is accepted only when `SEQ = idle`:
otherwise nothing happens (R71, log 13). -/
def runCommand (c : Instr) (gated argOk : Bool) (lax : Option Refusal) (body : List Op) (s : State) :
    Host.Outcome State Fault Refusal :=
  if wellFormedConfig s.cfg = false then .refused .illFormedConfiguration
  else if s.seq ≠ .idle then .next s
  else if s.cfg.strict then
    if gated && !s.configured then .next (s.fail .notConfigured)
    else if !argOk then .next (s.fail .invalidConfiguration)
    else .next (s.start c body)
  else
    match argOk, lax with
    | false, some r => .refused r
    | _, _ => .next (s.start c body)

/-- A word whose opcode is none of the 14: `InvalidConfiguration` with `STRICT`, else refused (R84, R192, R194). -/
def unknownCommand (s : State) : Host.Outcome State Fault Refusal :=
  if s.cfg.strict then .next (s.fail .invalidConfiguration) else .refused .unknownOpcode

/-! ## The engine's procedures as pseudocode (R126) -/

/-- `WriteReg(addr, ops)`: the frame and its wait (R122). -/
def writeReg (addr : Byte) (ops : List Byte) : List Op := [.frame (addr :: ops), .wait 0]

/-- What a buffer-write frame streams (R124). -/
inductive StreamSrc where
  | live
  | fill (b : Byte)
deriving DecidableEq, Repr

/-- The second transaction of `WriteBuf`: the stream and its wait (R124). -/
def streamOps (c : Config) : StreamSrc → List Op
  | .live => [.stream, .wait 0]
  | .fill b => [.frame (opcBufWrite :: List.replicate c.nStream b), .wait 0]

/-- `WriteBuf(target, src)`: the pointer write, then the stream, each with its wait (R124). -/
def writeBuf (c : Config) (target : BufferSel) (src : StreamSrc) : List Op :=
  writeReg c.regWritePointer
      (match target with
        | .current => c.opsWpCurrent
        | .previous => c.opsWpPrevious)
    ++ streamOps c src

end Sys2Proof.Machine
end

