-- ==== Sys2Proof/Machine/FrameBuffer.lean ====
section
/-! DEFINITION. Sys2Proof/Machine/FrameBuffer.lean: `FB_CLEAR`, `FB_INVERT`, `FB_SETSEG`, `FB_DRAWSEGS`
(40_framebuffer.md). They are admitted whether or not `CONFIGURED` is set and call no primitive (R100). -/

namespace Sys2Proof.Machine

/-- `FB_CLEAR level` (R102). -/
def execFbClear (level : Level) (s : State) : Host.Outcome State Fault Refusal :=
  runCommand (.fbClear level) false true none [.clear level] s

/-- `FB_INVERT` (R103). -/
def execFbInvert (s : State) : Host.Outcome State Fault Refusal :=
  runCommand .fbInvert false true none [.invert] s

/-- `FB_SETSEG index, level` (R106). -/
def execFbSetseg (index : BitVec 5) (level : Level) (s : State) : Host.Outcome State Fault Refusal :=
  runCommand (.fbSetseg index level) false (segIndexOk index) (some .segmentIndex)
    [.setSeg index.toNat level] s

/-- The body of `FB_DRAWSEGS`: the body of `FB_SETSEG` for each selected segment, ascending (R107). -/
def drawSegsOps (mask : BitVec 32) (level : Level) : List Op :=
  (maskSegments mask).map (fun i => .setSeg i level)

/-- What `drawSegsOps` make of `FB`: the selected segments' writes, ascending (R100, R107; R109 (4); that they
do is `runOps_drawSegs` in Laws/FrameBuffer.lean). -/
def fbSegmentsDrawn (c : Config) (mask : BitVec 32) (level : Level) (fb : Memory) : Memory :=
  (maskSegments mask).foldl (fun m i => fbSegmentSet c i level m) fb

/-- `FB_DRAWSEGS mask, level` (R107). -/
def execFbDrawsegs (mask : BitVec 32) (level : Level) (s : State) : Host.Outcome State Fault Refusal :=
  runCommand (.fbDrawsegs mask level) false true none (drawSegsOps mask level) s

end Sys2Proof.Machine
end

