-- ==== Sys2Proof/Machine/Frames.lean ====
section
/-! DEFINITION. Sys2Proof/Machine/Frames.lean: the three wire frames as transactions
(30_encoding.md R75 to R78, 41_register_protocol.md R120): the frame goes over the bus between `SetCS(low)` and
`SetCS(high)`, the shadow receives it (R207), and the wait that follows every frame follows. They are the bodies
of R122 to R124 without the command-level checks (R126). DESIGN CHOICE (log 6): run by itself a frame ends as
the rule's pseudocode ends, with `RESULT <- Ok` or `RESULT <- OkValue(r)`, or with `DeviceTimeout`. -/

namespace Sys2Proof.Machine

/-- The register-write frame: `[addr, o_1, ..., o_k]`, answers discarded (R76, R122). -/
def execWWrreg (addr : BitVec 7) (ops : List Byte) (s : State) : Host.Outcome State Fault Refusal :=
  runCommand (.wWrreg addr ops) false true none (writeReg (writeFrameHead addr) ops) s

/-- The register-read frame: `[addr | 0x80, filler]`; the second answer is the response (R77, R123). -/
def execWRdreg (addr : BitVec 7) (filler : Byte) (s : State) : Host.Outcome State Fault Refusal :=
  runCommand (.wRdreg addr filler) false true none [.readResult (readFrameHead addr) filler] s

/-- The buffer-write frame: `[0x10, d_0, ...]`, answers discarded (R78, R124). -/
def execWWrbuf (data : List Byte) (s : State) : Host.Outcome State Fault Refusal :=
  runCommand (.wWrbuf data) false true none [.frame (opcBufWrite :: data), .wait 0] s

end Sys2Proof.Machine
end

