-- ==== Sys2Proof/Machine/Protocol.lean ====
section
/-! DEFINITION. Sys2Proof/Machine/Protocol.lean: `RP_WRREG`, `RP_RDREG`, `RP_WRBUF`
(41_register_protocol.md). -/

namespace Sys2Proof.Machine

/-- `RP_WRREG addr, pm, op0, op1, op2, op3` (R122); with `STRICT = false` the bytes are sent as they are (R85). -/
def execRpWrreg (addr : Byte) (pm : BitVec 4) (op0 op1 op2 op3 : Byte) (s : State) :
    Host.Outcome State Fault Refusal :=
  runCommand (.rpWrreg addr pm op0 op1 op2 op3) true (writeAddrOk addr) none
    (writeReg addr (presentOps pm op0 op1 op2 op3)) s

/-- `RP_RDREG addr` (R123): `Tx(addr | 0x80)`, `r = Xfer(FILLER)`, the wait, `RESULT <- OkValue(r)`. -/
def execRpRdreg (addr : Byte) (s : State) : Host.Outcome State Fault Refusal :=
  runCommand (.rpRdreg addr) true (readAddrOk addr) none
    [.readResult (addr ||| readFlag) s.cfg.filler] s

/-- What `RP_WRBUF` streams: `fill` is used only when `fillsel = fill` (R124). -/
def streamSrc : FillSel → Byte → StreamSrc
  | .live, _ => .live
  | .fill, b => .fill b

/-- `RP_WRBUF target, fillsel, fill` (R124). -/
def execRpWrbuf (target : BufferSel) (fillsel : FillSel) (fill : Byte) (s : State) :
    Host.Outcome State Fault Refusal :=
  runCommand (.rpWrbuf target fillsel fill) true true none
    (writeBuf s.cfg target (streamSrc fillsel fill)) s

end Sys2Proof.Machine
end

