-- ==== Sys2Proof/Machine/Power.lean ====
section
/-! DEFINITION. Sys2Proof/Machine/Power.lean: `PS_ON`, `PS_OFF` and the procedures `PowerOn`, `PowerOff`
(42_power_sequencer.md). They run the same from any value of `PS` (R145). -/

namespace Sys2Proof.Machine

/-- `PowerOn()` (R141). -/
def powerOn (c : Config) : List Op :=
  [.setPower .poweringUp, .wait 0]
    ++ writeReg c.regResolution c.opsResolution
    ++ writeReg c.regTiming c.opsTiming
    ++ writeReg c.regPowerSequence c.opsPowerSequence
    ++ writeReg c.regPowerControl c.opsRailsUp
    ++ [.pollReady 0, .setPower .up]

/-- `PowerOff()` (R143): each listed wait is a second wait after the one inside the write (conflict C8). -/
def powerOff (c : Config) : List Op :=
  [.setPower .poweringDown]
    ++ writeReg c.regPowerControl c.opsRailsDown1 ++ [.wait 0]
    ++ writeReg c.regPowerControl c.opsRailsDown2 ++ [.wait 0]
    ++ [.setPower .down]

/-- `PS_ON` (R141). -/
def execPsOn (s : State) : Host.Outcome State Fault Refusal :=
  runCommand .psOn true true none (powerOn s.cfg) s

/-- `PS_OFF` (R143). -/
def execPsOff (s : State) : Host.Outcome State Fault Refusal :=
  runCommand .psOff true true none (powerOff s.cfg) s

end Sys2Proof.Machine
end

