-- ==== Sys2Proof/Machine/Waveform.lean ====
section
/-! DEFINITION. Sys2Proof/Machine/Waveform.lean: `WS_BEGIN`, `WS_SETCV`, `WS_SETSV`, `WS_UPDATE`,
`WS_RENDER`, and the procedures and recipes they are made of (43_waveform_sequencer.md). -/

namespace Sys2Proof.Machine

/-- A list of statements `n` times in sequence (R88). -/
def repeatOps (n : Nat) (ops : List Op) : List Op := (List.replicate n ops).flatten

/-! ## Reset of the device and initialisation -/

/-- `RESET_HOLD_MS` (R10). -/
def resetHoldMs : Nat := 5

/-- `HardwareReset()` (R156, conflict C6). -/
def hardwareReset : List Op :=
  [.setReset .high, .delay resetHoldMs, .setReset .low, .delay resetHoldMs,
   .setReset .high, .delay resetHoldMs, .wait 0]

/-- `SoftwareReset()` (R157). -/
def softwareReset (c : Config) : List Op := writeReg c.regSoftwareReset c.opsSoftwareReset

/-- `InitRegisters()` (R158): eight writes, in this order. -/
def initRegisters (c : Config) : List Op :=
  writeReg c.regPanelGeometry c.opsPanelGeometry
    ++ writeReg c.regPixelRect c.opsPixelRect
    ++ writeReg c.regCvInit c.opsCvInit
    ++ writeReg c.regIntervalSync c.opsIntervalSync
    ++ writeReg c.regDriverVoltage c.opsDriverVoltageInit
    ++ writeReg c.regBorder c.opsBorder
    ++ writeReg c.regMonoWaveform c.opsMonoWaveform
    ++ writeReg c.regBoost c.opsBoost

/-! ## Voltages, updates, passes -/

/-- `SetCV(v)` (R160). -/
def setCV (c : Config) (v : Int) : List Op := writeReg c.regCommonVoltage (encodeCV v)

/-- `SetSV(sv)` (R161). -/
def setSV (c : Config) (sv : Nat) : List Op := writeReg c.regDriverVoltage [svFixedOp0, encodeSV sv]

/-- `Update(mode, manual)` (R162, R144). -/
def update (c : Config) (mode : UpdateMode) (manual : Bool) : List Op :=
  writeBuf c .current .live
    ++ (if manual then [] else powerOn c)
    ++ writeReg c.regProgrammedWaveform [progSel c mode]
    ++ writeReg c.regEngineTrigger [trig mode]
    ++ [.wait 0]
    ++ (if manual then [] else powerOff c)

/-- `WritePrev(level)` (R165). -/
def writePrev (c : Config) (level : Level) : List Op := writeBuf c .previous (.fill (pattern level))

/-- A pass: `WritePrev(level)` then `Update(mode, auto)` (R165). -/
def pass (c : Config) (level : Level) (mode : UpdateMode) : List Op :=
  writePrev c level ++ update c mode false

/-! ## Screen erase -/

/-- `ErasePasses()` (R167). -/
def erasePasses (c : Config) : List Op := repeatOps 3 (pass c .lightGray c.eraseMode)

/-- `ScreenErase()` (R166). -/
def screenErase (c : Config) : List Op :=
  repeatOps 2
      (setCV c 15000 ++ [.clear .black] ++ erasePasses c ++ [.delay c.eraseDelayMs]
        ++ setCV c (-15000) ++ [.clear c.eraseNegLevel] ++ erasePasses c ++ [.delay c.eraseDelayMs])
    ++ [.clear c.eraseFinalLevel] ++ setCV c 0

/-- The body of `WS_BEGIN` (R159). -/
def beginOps (c : Config) : List Op :=
  (if c.hasResetLine then hardwareReset else softwareReset c)
    ++ initRegisters c ++ screenErase c ++ [.setConfigured]

/-! ## Colour recipes -/

/-- `RenderBW()`, colours black and white (R170). -/
def renderBW (c : Config) : List Op :=
  setCV c 0 ++ setSV c 13000 ++ [.invert]
    ++ repeatOps 5 (pass c .lightGray .full ++ pass c .lightGray .full)
    ++ [.invert]

/-- `RenderYellow()` (R171). -/
def renderYellow (c : Config) : List Op :=
  setCV c 15000 ++ setSV c 15000 ++ repeatOps 3 (pass c .lightGray .full)

/-- `RenderGreen()` (R172). -/
def renderGreen (c : Config) : List Op :=
  setCV c 0 ++ setSV c 13000 ++ repeatOps 3 (pass c .white .mono)

/-- `RedBlock()` (R173): the fill comes before the voltage write (conflict C4). -/
def redBlock (c : Config) : List Op :=
  repeatOps 2
    (writePrev c .lightGray ++ setCV c 10000 ++ update c .mono false ++ [.invert, .delay 10]
      ++ writePrev c .lightGray ++ setCV c (-10000) ++ update c .mono false ++ [.invert, .delay 10])

/-- `RenderRed()` (R174). -/
def renderRed (c : Config) : List Op := setSV c 10000 ++ redBlock c

/-- `RenderBlue()` (R175, R176). -/
def renderBlue (c : Config) : List Op :=
  (if c.blueLeadingSv then setSV c 10000 else [])
    ++ redBlock c ++ setSV c 10000 ++ setCV c (-10000) ++ [.invert]
    ++ repeatOps 2 (pass c .lightGray .mono ++ [.delay 1])

/-- The recipe of a colour (R168); black and white share one. -/
def recipe (c : Config) : Colour → List Op
  | .black => renderBW c
  | .white => renderBW c
  | .yellow => renderYellow c
  | .green => renderGreen c
  | .red => renderRed c
  | .blue => renderBlue c

/-! ## The commands -/

/-- `WS_BEGIN` (R159): not gated (R193). -/
def execWsBegin (s : State) : Host.Outcome State Fault Refusal :=
  runCommand .wsBegin false true none (beginOps s.cfg) s

/-- The body of `WS_UPDATE` for a mode code; code 3 never reaches it (R162). -/
def updateOps (c : Config) (mode : Option UpdateMode) (manual : Bool) : List Op :=
  match mode with
  | some m => update c m manual
  | none => []

/-- `WS_UPDATE mode, manual` (R162). -/
def execWsUpdate (mode : BitVec 2) (manual : Bool) (s : State) : Host.Outcome State Fault Refusal :=
  runCommand (.wsUpdate mode manual) true (UpdateMode.ofCode mode).isSome (some .updateMode)
    (updateOps s.cfg (UpdateMode.ofCode mode) manual) s

/-- The body of `WS_RENDER` for a colour code; codes 6 and 7 never reach it (R168). -/
def renderOps (c : Config) (colour : Option Colour) : List Op :=
  match colour with
  | some col => recipe c col
  | none => []

/-- `WS_RENDER colour` (R168). -/
def execWsRender (colour : BitVec 3) (s : State) : Host.Outcome State Fault Refusal :=
  runCommand (.wsRender colour) true (Colour.ofCode colour).isSome (some .colourCode)
    (renderOps s.cfg (Colour.ofCode colour)) s

/-- `WS_SETCV v` (R160): `v` is sign-extended; out of range with `STRICT = false` the formula is applied as
written (R82, R194). -/
def execWsSetcv (v : BitVec 16) (s : State) : Host.Outcome State Fault Refusal :=
  runCommand (.wsSetcv v) true (cvInRange v.toInt) none (setCV s.cfg v.toInt) s

/-- `WS_SETSV sv` (R161): `sv` is zero-extended; out of range with `STRICT = false` the formula is applied as
written (R83, R194). -/
def execWsSetsv (sv : BitVec 16) (s : State) : Host.Outcome State Fault Refusal :=
  runCommand (.wsSetsv sv) true (svInRange sv.toNat) none (setSV s.cfg sv.toNat) s

end Sys2Proof.Machine
end

