-- ==== Sys2Proof/Machine/Dispatch.lean ====
section
/-! DEFINITION. Sys2Proof/Machine/Dispatch.lean: one arm per instruction. -/

namespace Sys2Proof.Machine

def exec (i : Instr) (s : State) : Host.Outcome State Fault Refusal :=
  match i with
  | .fbClear level => Sys2Proof.Machine.execFbClear level s
  | .fbInvert => Sys2Proof.Machine.execFbInvert s
  | .fbSetseg index level => Sys2Proof.Machine.execFbSetseg index level s
  | .fbDrawsegs mask level => Sys2Proof.Machine.execFbDrawsegs mask level s
  | .rpWrreg addr pm op0 op1 op2 op3 => Sys2Proof.Machine.execRpWrreg addr pm op0 op1 op2 op3 s
  | .rpRdreg addr => Sys2Proof.Machine.execRpRdreg addr s
  | .rpWrbuf target fillsel fill => Sys2Proof.Machine.execRpWrbuf target fillsel fill s
  | .psOn => Sys2Proof.Machine.execPsOn s
  | .psOff => Sys2Proof.Machine.execPsOff s
  | .wsBegin => Sys2Proof.Machine.execWsBegin s
  | .wsUpdate mode manual => Sys2Proof.Machine.execWsUpdate mode manual s
  | .wsRender colour => Sys2Proof.Machine.execWsRender colour s
  | .wsSetcv v => Sys2Proof.Machine.execWsSetcv v s
  | .wsSetsv sv => Sys2Proof.Machine.execWsSetsv sv s
  | .wWrreg addr ops => Sys2Proof.Machine.execWWrreg addr ops s
  | .wRdreg addr filler => Sys2Proof.Machine.execWRdreg addr filler s
  | .wWrbuf data => Sys2Proof.Machine.execWWrbuf data s

end Sys2Proof.Machine
end

