-- ==== Sys2Proof/Machine/Step.lean ====
section
/-! DEFINITION. Sys2Proof/Machine/Step.lean: one step of the machine, and how an opcode-table word is put
where the step fetches. -/

namespace Sys2Proof.Machine

/-- One step. A configuration that is not well-formed is refused (R9). While a command runs, it goes on (R26,
R71: nothing else is accepted). When the block is idle, a frame put on the bus by itself is decoded and run
(log 6); else the next command word the host presents is accepted, decoded and run (R71); else the block does
nothing (R198, R220). -/
def step (s : State) : Host.Outcome State Fault Refusal :=
  if wellFormedConfig s.cfg = false then .refused .illFormedConfiguration
  else if s.seq ≠ .idle then .next s.resume
  else
    match s.frameIn, s.hostIn with
    | f :: rest, _ =>
      match decodeFrame s.cfg.nStream f with
      | .ok i => exec i { s with frameIn := rest }
      | .error _ => .refused .notAFrame
    | [], w :: rest =>
      match decode w with
      | .ok i => exec i { s with hostIn := rest }
      | .error _ => unknownCommand { s with hostIn := rest }
    | [], [] => .next s

/-- `s` with an opcode-table word put where `step` fetches its next instruction: a 56-bit word as the next
command the host presents; an 8-bit word as the first byte of the next frame on the bus, every later byte 0.
The block is idle, so that the next step fetches, and no frame stands before a command word (log 5, 6). -/
def State.withFetchWord (s : State) (nbits w : Nat) : State :=
  if nbits = 56 then
    { s with seq := .idle, frameIn := [], hostIn := BitVec.ofNat 56 w :: s.hostIn }
  else if nbits = 8 then
    { s with seq := .idle, frameIn := frameOfFirstByte s.cfg.nStream (BitVec.ofNat 8 w) :: s.frameIn }
  else s

end Sys2Proof.Machine
end

