-- ==== Sys2Proof/Safety.lean ====
section
/-! DEFINITION. Sys2Proof/Safety.lean: the terms the statements use: when a command is admitted, the named
premises about the environment (60_exceptions.md R206), the coarse traces the spec gives for each procedure
(41 to 43, 95_test_vectors.md), and the invariants (R28, R108, R125, 20_memory.md). -/

namespace Sys2Proof.Machine

/-! ## When a command is admitted -/

/-- The block is idle under a well-formed configuration: it accepts a command (R9, R71). -/
def Ready (s : State) : Prop := wellFormedConfig s.cfg = true ∧ s.seq = .idle

/-- The block is idle and the check of R193 lets a gated command pass. -/
def Open (s : State) : Prop := Ready s ∧ (s.cfg.strict = true → s.configured = true)

/-- The commands R193 lists. -/
def gated : Instr → Bool
  | .rpWrreg _ _ _ _ _ _ => true
  | .rpRdreg _ => true
  | .rpWrbuf _ _ _ => true
  | .psOn => true
  | .psOff => true
  | .wsUpdate _ _ => true
  | .wsRender _ => true
  | .wsSetcv _ => true
  | .wsSetsv _ => true
  | .fbClear _ => false
  | .fbInvert => false
  | .fbSetseg _ _ => false
  | .fbDrawsegs _ _ => false
  | .wsBegin => false
  | .wWrreg _ _ => false
  | .wRdreg _ _ => false
  | .wWrbuf _ => false

/-- The conditions of the table of R192, for the commands that have one. -/
def badArgument : Instr → Prop
  | .fbSetseg index _ => 21 < index.toNat
  | .rpWrreg addr _ _ _ _ _ => 0x80 ≤ addr.toNat ∨ addr.toNat = 0x10
  | .rpRdreg addr => 0x80 ≤ addr.toNat
  | .wsUpdate mode _ => mode.toNat = 3
  | .wsRender colour => 6 ≤ colour.toNat
  | .wsSetcv v => 30719 < v.toInt.natAbs
  | .wsSetsv sv => sv.toNat < 8000 ∨ 15999 < sv.toNat
  | .fbClear _ => False
  | .fbInvert => False
  | .fbDrawsegs _ _ => False
  | .rpWrbuf _ _ _ => False
  | .psOn => False
  | .psOff => False
  | .wsBegin => False
  | .wWrreg _ _ => False
  | .wRdreg _ _ => False
  | .wWrbuf _ => False

/-- The 14 opcodes of R72. -/
def commandOpcodes : List Byte :=
  [0x01#8, 0x02#8, 0x03#8, 0x04#8, 0x10#8, 0x11#8, 0x12#8, 0x20#8, 0x21#8, 0x30#8, 0x31#8, 0x32#8, 0x33#8, 0x34#8]

/-- The commands that write `FB` (R22). -/
def writesFb : Instr → Bool
  | .fbClear _ => true
  | .fbInvert => true
  | .fbSetseg _ _ => true
  | .fbDrawsegs _ _ => true
  | .wsBegin => true
  | .wsRender _ => true
  | .rpWrreg _ _ _ _ _ _ => false
  | .rpRdreg _ => false
  | .rpWrbuf _ _ _ => false
  | .psOn => false
  | .psOff => false
  | .wsUpdate _ _ => false
  | .wsSetcv _ => false
  | .wsSetsv _ => false
  | .wWrreg _ _ => false
  | .wRdreg _ _ => false
  | .wWrbuf _ => false

/-- The commands that write `PS`: the two power commands, and those that call `PowerOn` and `PowerOff` (R24, R144). -/
def writesPs : Instr → Bool
  | .psOn => true
  | .psOff => true
  | .wsBegin => true
  | .wsUpdate _ manual => !manual
  | .wsRender _ => true
  | .fbClear _ => false
  | .fbInvert => false
  | .fbSetseg _ _ => false
  | .fbDrawsegs _ _ => false
  | .rpWrreg _ _ _ _ _ _ => false
  | .rpRdreg _ => false
  | .rpWrbuf _ _ _ => false
  | .wsSetcv _ => false
  | .wsSetsv _ => false
  | .wWrreg _ _ => false
  | .wRdreg _ _ => false
  | .wWrbuf _ => false

/-! ## Premises about the environment (R206) -/

/-- *BusyEventuallyClears* for the next `n` waits, on the queued busy samples: each wait sees some busy
samples, fewer than the bound, and then a clear one. -/
def busyClears (bound : Option Nat) : Nat → List Bool → Prop
  | 0, _ => True
  | n + 1, q => ∃ (j : Nat) (rest : List Bool), q = List.replicate j true ++ false :: rest
      ∧ (∀ b, bound = some b → j < b) ∧ busyClears bound n rest

/-- A coarse trace with status reads that are not ready put in: before its `k`-th status read come `us[k]` more, each with
its wait; a list that is too short stands for 0 (R141 (c)). -/
def withUnready : List Nat → List Coarse → List Coarse
  | _, [] => []
  | us, .rd addr r :: es =>
    (List.replicate (us.headD 0) [.rd addr r, .waitBusy]).flatten ++ .rd addr r :: withUnready us.tail es
  | us, .wr addr ops :: es => .wr addr ops :: withUnready us es
  | us, .stream data :: es => .stream data :: withUnready us es
  | us, .waitBusy :: es => .waitBusy :: withUnready us es
  | us, .rst l :: es => .rst l :: withUnready us es
  | us, .delay n :: es => .delay n :: withUnready us es
  | us, .unframed :: es => .unframed :: withUnready us es

/-- *PumpEventuallyReady*, after `us[k]` reads of the `k`-th ready poll: going through a coarse trace along the queued
answers, one byte answered for every byte sent, the responses of the first `us[k]` reads lack the ready bit and the next
one has it. -/
def readsReady (c : Config) : List Nat → List Coarse → List Byte → Prop
  | _, [], _ => True
  | us, .rd _ _ :: es, q =>
    (∀ k, k < us.headD 0 → ∃ r, q[2 * k + 1]? = some r ∧ pumpReady c r = false) ∧
      (∃ r, q[2 * us.headD 0 + 1]? = some r ∧ pumpReady c r = true) ∧
      readsReady c us.tail es (q.drop (2 * us.headD 0 + 2))
  | us, .wr _ ops :: es, q => readsReady c us es (q.drop (ops.length + 1))
  | us, .stream data :: es, q => readsReady c us es (q.drop (data.length + 1))
  | us, .waitBusy :: es, q => readsReady c us es q
  | us, .rst _ :: es, q => readsReady c us es q
  | us, .delay _ :: es, q => readsReady c us es q
  | us, .unframed :: es, q => readsReady c us es q

/-- The environment lets a command with this coarse trace, one without a ready poll, run to its end: every wait clears in
time. -/
def Responsive (s : State) (expected : List Coarse) : Prop :=
  busyClears s.cfg.waitBound (expected.count .waitBusy) s.env.busy

/-- The environment lets a command run to its end whose coarse trace is `expected` when each status read is ready at once:
the `k`-th ready poll finds the pump ready after `us[k]` reads that are not, fewer than the bound, and every wait clears in
time. -/
def ResponsiveAfter (s : State) (us : List Nat) (expected : List Coarse) : Prop :=
  Responsive s (withUnready us expected) ∧ readsReady s.cfg us expected s.env.xfer ∧
    ∀ u ∈ us, ∀ n, s.cfg.waitBound = some n → u < n

/-! ## Coarse traces -/

/-- A coarse event with the response of a read left out: the response is the environment's. -/
def Coarse.blank : Coarse → Coarse
  | .rd addr _ => .rd addr none
  | .wr addr ops => .wr addr ops
  | .stream data => .stream data
  | .waitBusy => .waitBusy
  | .rst l => .rst l
  | .delay n => .delay n
  | .unframed => .unframed

/-- The fine trace of one frame: the bytes sent, and the bytes answered to them (R75). -/
def frameEvents (bytes rs : List Byte) : List Event :=
  .cs .low :: (List.zipWith Event.xfer bytes rs ++ [.cs .high])

/-- From `s` to `t` the trace grew by events whose coarse trace, responses left out, is `expected` (R16). -/
def Ran (s t : State) (expected : List Coarse) : Prop :=
  ∃ new, t.trace = s.trace ++ new ∧ (coarse new).map Coarse.blank = expected

/-- The state that differs from `s` in the result alone: `RESULT`, and the record of results (R27, R196). -/
def State.reported (r : Result) (s : State) : State :=
  { s with result := r, returned := s.returned ++ [r] }

/-- A command ended with result `r`, and the configuration and the inputs still to come are untouched. -/
def Ended (s t : State) (r : Result) : Prop :=
  t.result = r ∧ t.returned = s.returned ++ [r] ∧ t.seq = .idle
    ∧ t.cfg = s.cfg ∧ t.hostIn = s.hostIn ∧ t.frameIn = s.frameIn

/-- A register write and its wait: `WR(addr, ops), WAITBUSY` (R122). -/
def wrT (addr : Byte) (ops : List Byte) : List Coarse := [.wr (addr.setWidth 7) ops, .waitBusy]

/-- A buffer write: the pointer write and its wait, the stream and its wait (R124). -/
def bufT (pointer : Byte) (select data : List Byte) : List Coarse :=
  wrT pointer select ++ [.stream data, .waitBusy]

/-- `PowerOn` with the pump ready at the first status read (R141, vector Q1). -/
def onT (c : Config) : List Coarse :=
  [.waitBusy] ++ wrT c.regResolution c.opsResolution ++ wrT c.regTiming c.opsTiming
    ++ wrT c.regPowerSequence c.opsPowerSequence ++ wrT c.regPowerControl c.opsRailsUp
    ++ [.rd (c.regStatus.setWidth 7) none, .waitBusy]

/-- `PowerOff` (R143, vector Q3). -/
def offT (c : Config) : List Coarse :=
  wrT c.regPowerControl c.opsRailsDown1 ++ [.waitBusy] ++ wrT c.regPowerControl c.opsRailsDown2 ++ [.waitBusy]

/-- An update that streams `data`, sends program-select `p` and trigger `g` (R162, vectors W1, W2). -/
def updateT (c : Config) (data : List Byte) (p g : Byte) (manual : Bool) : List Coarse :=
  bufT c.regWritePointer c.opsWpCurrent data
    ++ (if manual then [] else onT c)
    ++ wrT c.regProgrammedWaveform [p] ++ wrT c.regEngineTrigger [g] ++ [.waitBusy]
    ++ (if manual then [] else offT c)

/-- A fill of the previous buffer with a byte (R165). -/
def prevT (c : Config) (b : Byte) : List Coarse :=
  bufT c.regWritePointer c.opsWpPrevious (List.replicate c.nStream b)

/-- A pass in full mode: previous buffer filled, `data` streamed and triggered (R165). -/
def passFullT (c : Config) (b : Byte) (data : List Byte) : List Coarse :=
  prevT c b ++ updateT c data c.progselFull 0x03#8 false

/-- A pass in mono mode. -/
def passMonoT (c : Config) (b : Byte) (data : List Byte) : List Coarse :=
  prevT c b ++ updateT c data 0x02#8 0x07#8 false

/-- `xs` written out `n` times. -/
def timesT (n : Nat) (xs : List Coarse) : List Coarse := (List.replicate n xs).flatten

/-- The complement of every byte. -/
def flipped (data : List Byte) : List Byte := data.map (fun b => ~~~ b)

/-- The black and white recipe on a FrameBuffer holding `B` (R170, vector W9). -/
def whiteT (c : Config) (B : List Byte) : List Coarse :=
  wrT c.regCommonVoltage [0x00#8, 0x00#8] ++ wrT c.regDriverVoltage [0x25#8, 0xAA#8]
    ++ timesT 10 (passFullT c 0xAA#8 (flipped B))

/-- The yellow recipe (R171, vector W5). -/
def yellowT (c : Config) (B : List Byte) : List Coarse :=
  wrT c.regCommonVoltage [0xF4#8, 0x01#8] ++ wrT c.regDriverVoltage [0x25#8, 0xEE#8]
    ++ timesT 3 (passFullT c 0xAA#8 B)

/-- The green recipe (R172, vector W6). -/
def greenT (c : Config) (B : List Byte) : List Coarse :=
  wrT c.regCommonVoltage [0x00#8, 0x00#8] ++ wrT c.regDriverVoltage [0x25#8, 0xAA#8]
    ++ timesT 3 (passMonoT c 0xFF#8 B)

/-- The block red and blue share (R173, vector W7). -/
def redBlockT (c : Config) (B : List Byte) : List Coarse :=
  timesT 2
    (prevT c 0xAA#8 ++ wrT c.regCommonVoltage [0x4D#8, 0x01#8] ++ updateT c B 0x02#8 0x07#8 false
      ++ [.delay 10]
      ++ prevT c 0xAA#8 ++ wrT c.regCommonVoltage [0x4D#8, 0x05#8]
      ++ updateT c (flipped B) 0x02#8 0x07#8 false ++ [.delay 10])

/-- The red recipe (R174, vector W7). -/
def redT (c : Config) (B : List Byte) : List Coarse :=
  wrT c.regDriverVoltage [0x25#8, 0x44#8] ++ redBlockT c B

/-- The blue recipe (R175, vector W8). -/
def blueT (c : Config) (B : List Byte) : List Coarse :=
  (if c.blueLeadingSv then wrT c.regDriverVoltage [0x25#8, 0x44#8] else [])
    ++ redBlockT c B ++ wrT c.regDriverVoltage [0x25#8, 0x44#8] ++ wrT c.regCommonVoltage [0x4D#8, 0x05#8]
    ++ timesT 2 (passMonoT c 0xAA#8 (flipped B) ++ [.delay 1])

/-- What `WS_RENDER colour` sends. -/
def renderT (c : Config) (B : List Byte) : Colour → List Coarse
  | .black => whiteT c B
  | .white => whiteT c B
  | .yellow => yellowT c B
  | .green => greenT c B
  | .red => redT c B
  | .blue => blueT c B

/-- The bits of the word that hold the opcode and the fields of an instruction's command (R73); a frame has no word. -/
def fieldMask : Instr → CmdWord
  | .fbClear _ => 0xFF000000000003#56
  | .fbInvert => 0xFF000000000000#56
  | .fbSetseg _ _ => 0xFF000000001F03#56
  | .fbDrawsegs _ _ => 0xFF00FFFFFFFF03#56
  | .rpWrreg _ _ _ _ _ _ => 0xFFFF0FFFFFFFFF#56
  | .rpRdreg _ => 0xFFFF0000000000#56
  | .rpWrbuf _ _ _ => 0xFF00000000FF03#56
  | .psOn => 0xFF000000000000#56
  | .psOff => 0xFF000000000000#56
  | .wsBegin => 0xFF000000000000#56
  | .wsUpdate _ _ => 0xFF000000000007#56
  | .wsRender _ => 0xFF000000000007#56
  | .wsSetcv _ => 0xFF00000000FFFF#56
  | .wsSetsv _ => 0xFF00000000FFFF#56
  | .wWrreg _ _ => 0#56
  | .wRdreg _ _ => 0#56
  | .wWrbuf _ => 0#56

/-- How many `WR`, `STREAM`, `RD` and `DELAY` events a coarse trace has (R179). -/
def Coarse.tally : List Coarse → Nat × Nat × Nat × Nat
  | [] => (0, 0, 0, 0)
  | .wr _ _ :: es => let n := Coarse.tally es; (n.1 + 1, n.2.1, n.2.2.1, n.2.2.2)
  | .stream _ :: es => let n := Coarse.tally es; (n.1, n.2.1 + 1, n.2.2.1, n.2.2.2)
  | .rd _ _ :: es => let n := Coarse.tally es; (n.1, n.2.1, n.2.2.1 + 1, n.2.2.2)
  | .delay _ :: es => let n := Coarse.tally es; (n.1, n.2.1, n.2.2.1, n.2.2.2 + 1)
  | .waitBusy :: es => Coarse.tally es
  | .rst _ :: es => Coarse.tally es
  | .unframed :: es => Coarse.tally es

/-- A constant FrameBuffer stream. -/
def plainT (c : Config) (b : Byte) : List Byte := List.replicate c.nStream b

/-- The byte of a level: "white=0xFF, light-gray=0xAA, dark-gray=0x55, black=0x00" (R80). -/
def levelByte : Level → Byte
  | .black => 0x00#8
  | .darkGray => 0x55#8
  | .lightGray => 0xAA#8
  | .white => 0xFF#8

/-- The program-select and trigger bytes of a mode (R163). -/
def modeBytes (c : Config) : UpdateMode → Byte × Byte
  | .full => (c.progselFull, 0x03#8)
  | .partly => (c.progselPartial, 0x03#8)
  | .mono => (0x02#8, 0x07#8)

/-- A pass of the screen erase: light grey fill, `data` streamed, mode `ERASE_MODE` (R167). -/
def erasePassT (c : Config) (data : List Byte) : List Coarse :=
  prevT c 0xAA#8 ++ updateT c data (modeBytes c c.eraseMode).1 (modeBytes c c.eraseMode).2 false

/-- The screen erase (R166). -/
def eraseT (c : Config) : List Coarse :=
  timesT 2
      (wrT c.regCommonVoltage [0xF4#8, 0x01#8] ++ timesT 3 (erasePassT c (plainT c 0x00#8))
        ++ [.delay c.eraseDelayMs]
        ++ wrT c.regCommonVoltage [0xF4#8, 0x05#8] ++ timesT 3 (erasePassT c (plainT c (levelByte c.eraseNegLevel)))
        ++ [.delay c.eraseDelayMs])
    ++ wrT c.regCommonVoltage [0x00#8, 0x00#8]

/-- `WS_BEGIN` (R156 to R159, vectors W10, W11). -/
def beginT (c : Config) : List Coarse :=
  (if c.hasResetLine then
      [.rst .high, .delay 5, .rst .low, .delay 5, .rst .high, .delay 5, .waitBusy]
    else wrT c.regSoftwareReset c.opsSoftwareReset)
    ++ wrT c.regPanelGeometry c.opsPanelGeometry ++ wrT c.regPixelRect c.opsPixelRect
    ++ wrT c.regCvInit c.opsCvInit ++ wrT c.regIntervalSync c.opsIntervalSync
    ++ wrT c.regDriverVoltage c.opsDriverVoltageInit ++ wrT c.regBorder c.opsBorder
    ++ wrT c.regMonoWaveform c.opsMonoWaveform ++ wrT c.regBoost c.opsBoost
    ++ eraseT c

/-! ## `PS` as the coarse trace tells it -/

/-- How far the last coarse events have come in what precedes a change of `PS`. -/
inductive PowerPhase where
  | other
  /-- The current buffer was selected. -/
  | currentSelected
  /-- It was streamed: `PowerOn` starts when the wait of that frame ends (R162). -/
  | currentStreamed
  /-- `OPS_RAILS_DOWN_2` was written. -/
  | railsOff
  /-- The wait of that frame has ended: `PowerOff` ends when the listed wait ends (R143). -/
  | railsOffOnce
deriving DecidableEq, Repr

/-- `PS` after one more coarse event of `WS_UPDATE` (automatic), `WS_RENDER` or `WS_BEGIN`, by the events between which
R141 and R143 write it: `poweringUp` once the flush is over, `up` once the pump was ready, `poweringDown` from the first
rail command, `down` after the last wait. -/
def powerSees (c : Config) (x : PowerState × PowerPhase) : Coarse → PowerState × PowerPhase
  | .wr addr ops =>
    if addr = c.regWritePointer.setWidth 7 ∧ ops = c.opsWpCurrent then (x.1, .currentSelected)
    else if addr = c.regProgrammedWaveform.setWidth 7 then (.up, .other)
    else if addr = c.regPowerControl.setWidth 7 ∧ ops = c.opsRailsDown1 then (.poweringDown, .other)
    else if addr = c.regPowerControl.setWidth 7 ∧ ops = c.opsRailsDown2 then (x.1, .railsOff)
    else (x.1, .other)
  | .stream _ =>
    match x.2 with
    | .currentSelected => (x.1, .currentStreamed)
    | .currentStreamed => (x.1, .other)
    | .railsOff => (x.1, .other)
    | .railsOffOnce => (x.1, .other)
    | .other => (x.1, .other)
  | .waitBusy =>
    match x.2 with
    | .currentStreamed => (.poweringUp, .other)
    | .railsOff => (x.1, .railsOffOnce)
    | .railsOffOnce => (.down, .other)
    | .currentSelected => x
    | .other => x
  | .rd _ _ => x
  | .rst _ => x
  | .delay _ => x
  | .unframed => x

/-- `PS` after a coarse trace that starts with `ps` and in the middle of nothing. -/
def powerAfter (c : Config) (ps : PowerState) (es : List Coarse) : PowerState :=
  (es.foldl (powerSees c) (ps, .other)).1

/-! ## Invariants -/

/-- The FrameBuffer is in canonical form and lists no address outside `0..FB_SIZE-1` (R21). -/
def FbOk (s : State) : Prop := s.fb.wf = true ∧ ∀ x ∈ s.fb, x.1 < s.cfg.fbSize

/-- `TileConsistent(FB)` (R108). -/
def TileConsistent (c : Config) (fb : Memory) : Prop :=
  ∀ i < nSeg, ∀ k < nTiles, fb.read (segByte c i k) = fb.read (segByte c i 0)

/-- The second constraint of D7: for any two segments the sets of five tile bytes are equal or disjoint. -/
def TilesSeparate (c : Config) : Prop :=
  ∀ i < nSeg, ∀ j < nSeg,
    ((∀ a ∈ segBytes c i, a ∈ segBytes c j) ∧ (∀ a ∈ segBytes c j, a ∈ segBytes c i))
      ∨ (∀ a ∈ segBytes c i, a ∉ segBytes c j)

/-- `TileConsistent` with what makes every step keep it: the FrameBuffer is well-formed, the table meets D7, and what a
running command has still to do names segments of the table only. -/
def TilesOk (s : State) : Prop :=
  FbOk s ∧ TilesSeparate s.cfg ∧ TileConsistent s.cfg s.fb ∧
    ∀ c k todo, s.seq = .running c k todo → ∀ i l, Op.setSeg i l ∈ todo → i < nSeg

/-- Where the bus stands between two events (R125). -/
inductive BusPhase where
  /-- No frame is open and a busy sample followed the last one. -/
  | settled
  /-- A frame is open. -/
  | opened
  /-- A frame was closed and no busy sample has followed yet. -/
  | closed
deriving DecidableEq, Repr

/-- The framing rules (1) to (4) of R125 as an automaton over the fine trace: `none` once one is broken. -/
def busPhase : BusPhase → List Event → Option BusPhase
  | p, [] => some p
  | .settled, .cs .low :: es => busPhase .opened es
  | .settled, .busy _ :: es => busPhase .settled es
  | .settled, .delay _ :: es => busPhase .settled es
  | .settled, .rst _ :: es => busPhase .settled es
  | .settled, .cs .high :: _ => none
  | .settled, .xfer _ _ :: _ => none
  | .opened, .xfer _ _ :: es => busPhase .opened es
  | .opened, .cs .high :: es => busPhase .closed es
  | .opened, .cs .low :: _ => none
  | .opened, .busy _ :: _ => none
  | .opened, .delay _ :: _ => none
  | .opened, .rst _ :: _ => none
  | .closed, .busy _ :: es => busPhase .settled es
  | .closed, .delay _ :: es => busPhase .closed es
  | .closed, .rst _ :: es => busPhase .closed es
  | .closed, .cs _ :: _ => none
  | .closed, .xfer _ _ :: _ => none

/-- The statements still to be done keep the framing rules: after a frame comes its wait, and the command's end
finds the bus settled. -/
def opsSettle : BusPhase → List Op → Bool
  | .settled, [] => true
  | .opened, [] => false
  | .closed, [] => false
  | p, .wait _ :: ops => (p != .opened) && opsSettle .settled ops
  | p, .readWait _ _ :: ops => (p != .opened) && opsSettle .settled ops
  | p, .pollWait _ _ _ :: ops => (p != .opened) && opsSettle .settled ops
  | p, .frame _ :: ops => (p == .settled) && opsSettle .closed ops
  | p, .stream :: ops => (p == .settled) && opsSettle .closed ops
  | p, .readResult _ _ :: ops => (p == .settled) && opsSettle .settled ops
  | p, .pollReady _ :: ops => (p == .settled) && opsSettle .settled ops
  | p, .setPower _ :: ops => opsSettle p ops
  | p, .setReset _ :: ops => (p != .opened) && opsSettle p ops
  | p, .delay _ :: ops => (p != .opened) && opsSettle p ops
  | p, .clear _ :: ops => opsSettle p ops
  | p, .invert :: ops => opsSettle p ops
  | p, .setSeg _ _ :: ops => opsSettle p ops
  | p, .setConfigured :: ops => opsSettle p ops

/-- The framing invariant: `CS` is high between steps (R28), the trace keeps R125 (1) to (4), the bus is settled
when the block is idle, and what a running command has still to do keeps the rules. -/
def Framed (s : State) : Prop :=
  s.cs = .high ∧
    match s.seq with
    | .idle => busPhase .settled s.trace = some .settled
    | .running _ _ todo => ∃ p, busPhase .settled s.trace = some p ∧ opsSettle p todo = true

/-- The bytes sent in each closed frame of a fine trace, oldest frame first; `opened` holds those of the frame that is
open, if one is. -/
def framesFrom : Option (List Byte) → List Event → List (List Byte)
  | _, [] => []
  | _, .cs .low :: es => framesFrom (some []) es
  | some bytes, .cs .high :: es => bytes :: framesFrom none es
  | none, .cs .high :: es => framesFrom none es
  | opened, .xfer t _ :: es => framesFrom (opened.map (· ++ [t])) es
  | opened, .busy _ :: es => framesFrom opened es
  | opened, .rst _ :: es => framesFrom opened es
  | opened, .delay _ :: es => framesFrom opened es

/-- The frames whose bytes a statement names; those of `Op.stream` and of the ready poll follow from the configuration. -/
def opSends : Op → List (List Byte)
  | .frame bytes => [bytes]
  | .readResult head filler => [[head, filler]]
  | .stream => []
  | .wait _ => []
  | .readWait _ _ => []
  | .pollReady _ => []
  | .pollWait _ _ _ => []
  | .setPower _ => []
  | .setReset _ => []
  | .delay _ => []
  | .clear _ => []
  | .invert => []
  | .setSeg _ _ => []
  | .setConfigured => []

/-- A frame that its first byte classifies (R79) and that has the length of its kind (R86). -/
def FrameOk (c : Config) (bytes : List Byte) : Prop := ∃ i, decodeFrame c.nStream bytes = .ok i

/-- R125 (5), with `STRICT`: every frame of the trace is classified by its first byte and has the length of its kind, and
so has every frame that a running command has still to send. -/
def Classified (s : State) : Prop :=
  s.cfg.strict = true →
    (∀ f ∈ framesFrom none s.trace, FrameOk s.cfg f) ∧
    ∀ c k todo, s.seq = .running c k todo → ∀ op ∈ todo, ∀ f ∈ opSends op, FrameOk s.cfg f

/-- The shadow is the fold of the coarse trace (R207), and no frame is open. -/
def ShadowOk (s : State) : Prop := Framed s ∧ s.dev = deviceShadow s.cfg s.trace

end Sys2Proof.Machine
end

