-- ==== Sys2Proof/Certificates/Slice0/Obligations.lean ====
section
/-! DEFINITION. Sys2Proof/Certificates/Slice0/Obligations.lean: the statements for the provers. Each docstring names the
rules of spec/ it rests on; OBLIGATIONS.json says the same in words. -/

open Sys2Proof Sys2Proof.Machine

/-! ## Encoding -/

/-- R72 to R74, R76 to R79, R86: decoding the encoding of a well-formed instruction gives it back. -/
def Obligations.DecodeEncodeAgree : Prop :=
  ∀ (n : Nat) (i : Instr), i.wellFormed n = true → decodeAny n (encode i) = .ok i

/-- R73, R79, R86 (log 17): the encoding of what a word decodes to is the word with the bits no field uses cleared; the encoding of
what a frame decodes to is the frame, and it is well-formed. -/
def Obligations.EncodeDecodeAgree : Prop :=
  (∀ (w : CmdWord) (i : Instr), decode w = .ok i → encode i = .command (w &&& fieldMask i)) ∧
  (∀ (n : Nat) (bytes : List Byte) (i : Instr),
    decodeFrame n bytes = .ok i → encode i = .frame bytes ∧ i.wellFormed n = true)

/-- R72: there are 14 commands, and the opcode alone decides whether a word is one. -/
def Obligations.FourteenOpcodes : Prop :=
  ∀ w : CmdWord,
    (w.extractLsb' 48 8 ∈ commandOpcodes → ∃ i, decode w = .ok i) ∧
    (w.extractLsb' 48 8 ∉ commandOpcodes → decode w = .error (.unknownOpcode (w.extractLsb' 48 8)))

/-- R79, R86: a frame is classified by its first byte alone, the test for 0x10 first, and that is its coarse event; one of its
kind's length is decoded; and (MODEL'S CHOICE, log 6, log 9: R86 gives the lengths for checking only) one of another length is
no instruction, rejected with its length. -/
def Obligations.FirstByteClassifiesFrame : Prop :=
  ∀ (n : Nat) (b : Byte) (rest : List Byte),
    (b = 0x10#8 → frameKind b = .bufWrite ∧
      ∀ (r : Byte) (more : List (Byte × Byte)), coarseFrame ((b, r) :: more) = .stream (more.map Prod.fst)) ∧
    (b ≠ 0x10#8 → b.getLsbD 7 = true → frameKind b = .regRead (b.setWidth 7) ∧
      (∀ r, coarseFrame [(b, r)] = .rd (b.setWidth 7) none) ∧
      ∀ (r : Byte) (x : Byte × Byte) (more : List (Byte × Byte)),
        coarseFrame ((b, r) :: x :: more) = .rd (b.setWidth 7) (some x.2)) ∧
    (b ≠ 0x10#8 → b.getLsbD 7 = false → frameKind b = .regWrite (b.setWidth 7) ∧
      ∀ (r : Byte) (more : List (Byte × Byte)), coarseFrame ((b, r) :: more) = .wr (b.setWidth 7) (more.map Prod.fst)) ∧
    (b = 0x10#8 → rest.length = n → decodeFrame n (b :: rest) = .ok (.wWrbuf rest)) ∧
    (∀ f, b.getLsbD 7 = true → rest = [f] → decodeFrame n (b :: rest) = .ok (.wRdreg (b.setWidth 7) f)) ∧
    (b ≠ 0x10#8 → b.getLsbD 7 = false → rest.length ≤ 4 →
      decodeFrame n (b :: rest) = .ok (.wWrreg (b.setWidth 7) rest)) ∧
    ((b = 0x10#8 ∧ rest.length ≠ n) ∨ (b.getLsbD 7 = true ∧ rest.length ≠ 1) ∨
        (b ≠ 0x10#8 ∧ b.getLsbD 7 = false ∧ 4 < rest.length) →
      decodeFrame n (b :: rest) = .error (.frameLength (rest.length + 1)))

/-- 95_test_vectors.md sections 2.1 to 2.5: words of the vectors decode to the commands the vectors print. -/
def Obligations.VectorWordsDecode : Prop :=
  decode 0x03000000000300#56 = .ok (.fbSetseg 3#5 .black) ∧
  decode 0x04000000000901#56 = .ok (.fbDrawsegs 9#32 .darkGray) ∧
  decode 0x100D0500009300#56 = .ok (.rpWrreg 0x0D#8 0b0101#4 0x00#8 0x00#8 0x93#8 0x00#8) ∧
  decode 0x1200000000AA03#56 = .ok (.rpWrbuf .previous .fill 0xAA#8) ∧
  decode 0x31000000000006#56 = .ok (.wsUpdate 2#2 true) ∧
  decode 0x3300000000C568#56 = .ok (.wsSetcv 0xC568#16) ∧
  (0xC568#16).toInt = -15000 ∧
  decodeFrame 300 [0x90#8, 0x00#8] = .ok (.wRdreg 0x10#7 0x00#8) ∧
  decodeFrame 300 [0x0D#8, 0x00#8, 0x93#8] = .ok (.wWrreg 0x0D#7 [0x00#8, 0x93#8])

/-! ## Operands -/

/-- R80: `Pattern`, and the four printed patterns. -/
def Obligations.PatternCopiesLevel : Prop :=
  ∀ l : Level,
    (pattern l).toNat = l.code.toNat * 0x55 ∧
    (∀ (m : Bool) (k : Nat), k < 4 → getField m (pattern l) k = l.code) ∧
    pattern .white = 0xFF#8 ∧ pattern .lightGray = 0xAA#8 ∧ pattern .darkGray = 0x55#8 ∧ pattern .black = 0x00#8

/-- R81, R52: `SetField` replaces one sub-field and leaves the other six bits; `GetField` reads it; where sub-field 0 is. -/
def Obligations.SetFieldReplacesOne : Prop :=
  ∀ (m : Bool) (b : Byte) (k : Nat) (l : Level), k < 4 →
    getField m (setField m b k l) k = l.code ∧
    (∀ k', k' < 4 → k' ≠ k → getField m (setField m b k l) k' = getField m b k') ∧
    getField true b k = b.extractLsb' (6 - 2 * k) 2 ∧
    getField false b k = b.extractLsb' (2 * k) 2

/-- R89: the present operands are sent in ascending slot order, and an absent slot's byte is ignored. -/
def Obligations.AbsentOperandsSkipped : Prop :=
  ∀ (pm : BitVec 4) (op0 op1 op2 op3 : Byte),
    presentOps pm op0 op1 op2 op3
      = ((List.range 4).filter (fun k => pm.getLsbD k)).map (fun k => [op0, op1, op2, op3].getD k 0#8)

/-- R82, R38: `EncodeCV`, for every integer; in range the bytes hold a sign and a magnitude of 10 bits. -/
def Obligations.CommonVoltageBytes : Prop :=
  ∀ v : Int, ∃ lo hi : Byte, encodeCV v = [lo, hi] ∧
    lo.toNat = v.natAbs / 30 % 256 ∧
    (0 ≤ v → hi.toNat = v.natAbs / 30 / 256 % 256) ∧
    (v < 0 → hi = BitVec.ofNat 8 (v.natAbs / 30 / 256) ||| 0x04#8) ∧
    (v.natAbs ≤ 30719 →
      lo.toNat + 256 * (hi.toNat % 4) = v.natAbs / 30 ∧ (hi.getLsbD 2 = true ↔ v < 0) ∧ hi.toNat / 8 = 0)

/-- R83, R37: `EncodeSV`, for every voltage; in range both nibbles hold `n`. -/
def Obligations.SourceVoltageByte : Prop :=
  ∀ sv : Nat,
    encodeSV sv = BitVec.ofInt 8 (((sv / 1000 : Nat) - 8 : Int) * 2 * 16) ||| BitVec.ofInt 8 (((sv / 1000 : Nat) - 8 : Int) * 2) ∧
    (8000 ≤ sv → sv ≤ 15999 →
      (encodeSV sv).toNat / 16 = (sv / 1000 - 8) * 2 ∧ (encodeSV sv).toNat % 16 = (sv / 1000 - 8) * 2)

/-- R163: the mode table. -/
def Obligations.ModeTable : Prop :=
  ∀ c : Config,
    progSel c .full = c.progselFull ∧ trig .full = 0x03#8 ∧
    progSel c .partly = c.progselPartial ∧ trig .partly = 0x03#8 ∧
    progSel c .mono = 0x02#8 ∧ trig .mono = 0x07#8

/-! ## The step -/

/-- R71: the block, idle, accepts the next command word and runs what it decodes to. The list the words stand in is the
model's (log 5). -/
def Obligations.StepRunsTheCommand : Prop :=
  ∀ (s : State) (w : CmdWord) (rest : List CmdWord) (i : Instr),
    Ready s → s.frameIn = [] → s.hostIn = w :: rest → decode w = .ok i →
      step s = exec i { s with hostIn := rest }

/-- R75 to R79; MODEL'S CHOICE (log 6): a frame put on the bus by itself is decoded and run before a command word. -/
def Obligations.StepRunsTheFrame : Prop :=
  ∀ (s : State) (f : List Byte) (rest : List (List Byte)) (i : Instr),
    Ready s → s.frameIn = f :: rest → decodeFrame s.cfg.nStream f = .ok i →
      step s = exec i { s with frameIn := rest }

/-- MODEL'S CHOICE (log 5, log 6): a word put where the step fetches is run by the very next step. -/
def Obligations.FetchWordRunsNext : Prop :=
  ∀ (s : State) (w : Nat) (i : Instr), wellFormedConfig s.cfg = true →
    (decode (BitVec.ofNat 56 w) = .ok i →
      step (s.withFetchWord 56 w) = exec i { s with seq := .idle, frameIn := [] }) ∧
    (decodeFrame s.cfg.nStream (frameOfFirstByte s.cfg.nStream (BitVec.ofNat 8 w)) = .ok i →
      step (s.withFetchWord 8 w) = exec i { s with seq := .idle })

/-- R198, R220: an idle block to which nothing is presented does nothing, whatever the environment holds ready. -/
def Obligations.IdleBlockDoesNothing : Prop :=
  ∀ (s : State) (e : Env), Ready s → s.frameIn = [] → s.hostIn = [] →
    step { s with env := e } = .next { s with env := e }

/-- R71: while a command runs nothing is accepted: a step is the same whatever words and frames wait; and (MODEL'S CHOICE, log
13) exec of an instruction does nothing. -/
def Obligations.RunningBlockAcceptsNothing : Prop :=
  ∀ s : State, wellFormedConfig s.cfg = true → s.seq ≠ .idle →
    (∀ i, exec i s = .next s) ∧
    ∃ t, step s = .next t ∧ t.hostIn = s.hostIn ∧ t.frameIn = s.frameIn ∧
      ∀ (h : List CmdWord) (f : List (List Byte)),
        step { s with hostIn := h, frameIn := f } = .next { t with hostIn := h, frameIn := f }

/-- R9: a configuration that breaks the well-formedness of the geometry is refused before any command runs. -/
def Obligations.BrokenGeometryRefused : Prop :=
  ∀ s : State,
    (s.cfg.fbSize ≠ s.cfg.nStream ∨ ∃ i k, i < nSeg ∧ k < nTiles ∧ s.cfg.fbSize ≤ segByte s.cfg i k) →
    step s = .refused .illFormedConfiguration ∧ ∀ i, exec i s = .refused .illFormedConfiguration

/-! ## The checks of a command -/

/-- R193: `NotConfigured`, exactly when, and nothing else changes. -/
def Obligations.NotConfiguredExactly : Prop :=
  ∀ (i : Instr) (s : State), Ready s →
    (s.cfg.strict = true → s.configured = false → gated i = true →
      exec i s = .next (s.reported .notConfigured)) ∧
    (∀ t, exec i s = .next t → t.returned = s.returned ++ [.notConfigured] →
      s.cfg.strict = true ∧ s.configured = false ∧ gated i = true)

/-- R192: `InvalidConfiguration`, exactly when, and nothing else changes. -/
def Obligations.InvalidConfigurationExactly : Prop :=
  (∀ (i : Instr) (s : State), Ready s →
    (s.cfg.strict = true → (gated i = true → s.configured = true) → badArgument i →
      exec i s = .next (s.reported .invalidConfiguration)) ∧
    (∀ t, exec i s = .next t → t.returned = s.returned ++ [.invalidConfiguration] →
      s.cfg.strict = true ∧ badArgument i)) ∧
  (∀ (s : State) (w : CmdWord) (rest : List CmdWord), Ready s → s.frameIn = [] → s.hostIn = w :: rest →
    s.cfg.strict = true → w.extractLsb' 48 8 ∉ commandOpcodes →
      step s = .next (State.reported .invalidConfiguration { s with hostIn := rest }))

/-- R194, R84: with `STRICT = false` neither check fails; what names nothing is refused; every other command is run. -/
def Obligations.UncheckedSetting : Prop :=
  (∀ (i : Instr) (s : State), Ready s → s.cfg.strict = false →
    (i.named = true → ∃ t, exec i s = .next t ∧
      t.returned ≠ s.returned ++ [.notConfigured] ∧ t.returned ≠ s.returned ++ [.invalidConfiguration]) ∧
    (∀ index l, i = .fbSetseg index l → 21 < index.toNat → exec i s = .refused .segmentIndex) ∧
    (∀ mode m, i = .wsUpdate mode m → mode.toNat = 3 → exec i s = .refused .updateMode) ∧
    (∀ col, i = .wsRender col → 6 ≤ col.toNat → exec i s = .refused .colourCode)) ∧
  (∀ (s : State) (w : CmdWord) (rest : List CmdWord), Ready s → s.frameIn = [] → s.hostIn = w :: rest →
    s.cfg.strict = false → w.extractLsb' 48 8 ∉ commandOpcodes → step s = .refused .unknownOpcode)

/-- R206: with `STRICT` an idle block always has a next state, whatever the environment and the instruction. -/
def Obligations.StrictBlockAlwaysAnswers : Prop :=
  ∀ (i : Instr) (s : State) (e : Env), Ready s → s.cfg.strict = true → ∃ t, exec i { s with env := e } = .next t

/-! ## The FrameBuffer -/

/-- R102: `FB_CLEAR`: every byte becomes the level's pattern; of the rest of the state only the result changes. -/
def Obligations.ClearSetsEveryByte : Prop :=
  (∀ (s : State) (l : Level), Ready s →
    ∃ m : Memory, exec (.fbClear l) s = .next { s.reported .ok with fb := m } ∧ m.wf = true ∧
      (∀ a, m.read a = if a < s.cfg.fbSize then levelByte l else Memory.unlisted) ∧ TileConsistent s.cfg m) ∧
  (∀ w : CmdWord, w.extractLsb' 48 8 = 0x01#8 →
    ∃ l : Level, decode w = .ok (.fbClear l) ∧ l.code = w.extractLsb' 0 2)

/-- R103: `FB_INVERT`: every byte is complemented, each pixel `l` becomes `3 - l`, twice is the identity, and tile
consistency is kept. -/
def Obligations.InvertComplementsEveryByte : Prop :=
  (∀ s : State, Ready s → FbOk s →
     ∃ m : Memory, exec .fbInvert s = .next { s.reported .ok with fb := m } ∧ m.wf = true ∧
       (∀ a, m.read a = if a < s.cfg.fbSize then ~~~ s.fb.read a else s.fb.read a) ∧
       (∀ (b : Bool) (a k : Nat), a < s.cfg.fbSize → k < 4 →
         (getField b (m.read a) k).toNat = 3 - (getField b (s.fb.read a) k).toNat) ∧
       (TileConsistent s.cfg s.fb → TileConsistent s.cfg m) ∧
       exec .fbInvert { s.reported .ok with fb := m } = .next ((s.reported .ok).reported .ok)) ∧
  (∀ w : CmdWord, w.extractLsb' 48 8 = 0x02#8 →
    decode w = .ok .fbInvert)

/-- R109 (3): `FB_INVERT` after `FB_CLEAR l` is `FB_CLEAR (3 - l)`. -/
def Obligations.InvertAfterClear : Prop :=
  ∀ (s : State) (l l' : Level), Ready s → l.code.toNat + l'.code.toNat = 3 →
    ∃ t u, exec (.fbClear l) s = .next t ∧ exec (.fbClear l') s = .next u ∧
      exec .fbInvert t = .next (u.reported .ok)

/-- R106: `FB_SETSEG`: the primary byte with its one sub-field replaced is stored at the five tile bytes; every other byte
is kept; twice is once; an index above 21 is an error with `STRICT` and refused without. -/
def Obligations.SetSegmentCopiesByte : Prop :=
  (∀ (s : State) (index : BitVec 5) (l : Level), Ready s → FbOk s →
     (index.toNat ≤ 21 →
       ∃ m : Memory, exec (.fbSetseg index l) s = .next { s.reported .ok with fb := m } ∧ m.wf = true ∧
         (∀ k, k < nTiles → m.read (segByte s.cfg index.toNat k) =
           setField s.cfg.subfieldMsbFirst (s.fb.read (segByte s.cfg index.toNat 0)) (segSub s.cfg index.toNat) l) ∧
         (∀ a, (∀ k, k < nTiles → a ≠ segByte s.cfg index.toNat k) → m.read a = s.fb.read a) ∧
         exec (.fbSetseg index l) { s.reported .ok with fb := m }
           = .next { (s.reported .ok).reported .ok with fb := m } ∧
         (TileConsistent s.cfg s.fb →
           getField s.cfg.subfieldMsbFirst (s.fb.read (segByte s.cfg index.toNat 0)) (segSub s.cfg index.toNat) = l.code →
           m = s.fb)) ∧
     (21 < index.toNat → s.cfg.strict = true →
       exec (.fbSetseg index l) s = .next (s.reported .invalidConfiguration)) ∧
     (21 < index.toNat → s.cfg.strict = false → exec (.fbSetseg index l) s = .refused .segmentIndex)) ∧
  (∀ w : CmdWord, w.extractLsb' 48 8 = 0x03#8 →
    ∃ l : Level, decode w = .ok (.fbSetseg (w.extractLsb' 8 5) l) ∧ l.code = w.extractLsb' 0 2)

/-- R109 (5), R104: after `FB_SETSEG i, l` the segment's pixel reads `l` in all five tiles, and the other three pixels of
each tile byte are those of the primary byte. -/
def Obligations.SetThenGetSegment : Prop :=
  ∀ (s : State) (index : BitVec 5) (l : Level), Ready s → FbOk s → index.toNat ≤ 21 →
    ∃ t, exec (.fbSetseg index l) s = .next t ∧
      ∀ k, k < nTiles →
        getField s.cfg.subfieldMsbFirst (t.fb.read (segByte s.cfg index.toNat k)) (segEntry s.cfg index.toNat % 4)
          = l.code ∧
        ∀ q, q < 4 → q ≠ segEntry s.cfg index.toNat % 4 →
          getField s.cfg.subfieldMsbFirst (t.fb.read (segByte s.cfg index.toNat k)) q
            = getField s.cfg.subfieldMsbFirst (s.fb.read (segByte s.cfg index.toNat 0)) q

/-- R107: `FB_DRAWSEGS`: the selected segments' writes in ascending order; bytes of no selected segment are kept, from any state; from a tile-consistent state under D7 a pixel
takes the level exactly if it belongs to a selected segment, and every other pixel is kept. -/
def Obligations.DrawSegmentsPixels : Prop :=
  (∀ (s : State) (mask : BitVec 32) (l : Level), Ready s → FbOk s →
     ∃ m : Memory, exec (.fbDrawsegs mask l) s = .next { s.reported .ok with fb := m } ∧ m.wf = true ∧
       m = ((List.range nSeg).filter (fun i => mask.getLsbD i)).foldl (fun fb i =>
         fb.writeAll ((List.range nTiles).map (segByte s.cfg i))
           (setField s.cfg.subfieldMsbFirst (fb.read (segByte s.cfg i 0)) (segSub s.cfg i) l)) s.fb ∧
       (∀ a, (∀ i k, i < nSeg → mask.getLsbD i = true → k < nTiles → a ≠ segByte s.cfg i k) →
         m.read a = s.fb.read a) ∧
       (TileConsistent s.cfg s.fb → TilesSeparate s.cfg →
         ∀ a q, q < 4 →
           ((∃ i, i < nSeg ∧ mask.getLsbD i = true ∧ a ∈ segBytes s.cfg i ∧ segSub s.cfg i = q) →
             getField s.cfg.subfieldMsbFirst (m.read a) q = l.code) ∧
           ((∀ i, i < nSeg → mask.getLsbD i = true → a ∈ segBytes s.cfg i → segSub s.cfg i ≠ q) →
             getField s.cfg.subfieldMsbFirst (m.read a) q = getField s.cfg.subfieldMsbFirst (s.fb.read a) q))) ∧
  (∀ w : CmdWord, w.extractLsb' 48 8 = 0x04#8 →
    ∃ l : Level, decode w = .ok (.fbDrawsegs (w.extractLsb' 8 32) l) ∧ l.code = w.extractLsb' 0 2)

/-- R108: tile consistency: after a clear; kept by an invert; kept by segment writes under D7; what suffices for D7; and it
does not hold of every FrameBuffer. -/
def Obligations.TileConsistency : Prop :=
  ∀ s : State, Ready s → FbOk s →
    (∀ l t, exec (.fbClear l) s = .next t → TileConsistent s.cfg t.fb) ∧
    (∀ t, TileConsistent s.cfg s.fb → exec .fbInvert s = .next t → TileConsistent s.cfg t.fb) ∧
    (∀ i l t, TileConsistent s.cfg s.fb → TilesSeparate s.cfg → exec (.fbSetseg i l) s = .next t →
      TileConsistent s.cfg t.fb) ∧
    (∀ mask l t, TileConsistent s.cfg s.fb → TilesSeparate s.cfg → exec (.fbDrawsegs mask l) s = .next t →
      TileConsistent s.cfg t.fb) ∧
    ((s.cfg.segUnit = .byte ∧ ∀ i, i < nSeg → segByte s.cfg i 0 < 60) ∨
        (s.cfg.segUnit = .pixel ∧ ∀ i, i < nSeg → segByte s.cfg i 0 < 15) → TilesSeparate s.cfg) ∧
    (∃ fb : Memory, FbOk { s with fb := fb } ∧ ¬ TileConsistent s.cfg fb)

/-! ## Transactions -/

/-- R122: `RP_WRREG`: its two checks; the frame with the present operands and its wait, after any number of busy samples under
the bound; the timeout after the whole frame. -/
def Obligations.WriteRegisterCommand : Prop :=
  (∀ (s : State) (addr : Byte) (pm : BitVec 4) (op0 op1 op2 op3 : Byte), Ready s →
     (s.cfg.strict = true → s.configured = false →
       exec (.rpWrreg addr pm op0 op1 op2 op3) s = .next (s.reported .notConfigured)) ∧
     (s.cfg.strict = true → s.configured = true → (0x80 ≤ addr.toNat ∨ addr.toNat = 0x10) →
       exec (.rpWrreg addr pm op0 op1 op2 op3) s = .next (s.reported .invalidConfiguration)) ∧
     ((s.cfg.strict = true → s.configured = true ∧ addr.toNat < 0x80 ∧ addr.toNat ≠ 0x10) →
       ∀ rs more, s.env.xfer = rs ++ more → rs.length = (presentOps pm op0 op1 op2 op3).length + 1 →
         (∀ j rest, s.env.busy = List.replicate j true ++ false :: rest →
           (∀ n, s.cfg.waitBound = some n → j < n) →
           ∃ t, exec (.rpWrreg addr pm op0 op1 op2 op3) s = .next t ∧ Ended s t .ok ∧
             t.trace = s.trace ++ (frameEvents (addr :: presentOps pm op0 op1 op2 op3) rs
               ++ List.replicate j (.busy true) ++ [.busy false]) ∧
             t.env = { s.env with xfer := more, busy := rest } ∧
             t.fb = s.fb ∧ t.ps = s.ps ∧ t.configured = s.configured ∧ t.cs = .high ∧ t.rst = s.rst ∧
             (addr.toNat < 0x80 → addr.toNat ≠ 0x10 →
               t.dev = Device.see s.cfg s.dev (.wr (addr.setWidth 7) (presentOps pm op0 op1 op2 op3)))) ∧
         (∀ n rest, s.cfg.waitBound = some n → s.env.busy = List.replicate n true ++ rest →
           ∃ t, exec (.rpWrreg addr pm op0 op1 op2 op3) s = .next t ∧ Ended s t .deviceTimeout ∧
             t.trace = s.trace ++ (frameEvents (addr :: presentOps pm op0 op1 op2 op3) rs
               ++ List.replicate n (.busy true)) ∧
             t.env = { s.env with xfer := more, busy := rest } ∧
             t.fb = s.fb ∧ t.ps = s.ps ∧ t.configured = s.configured ∧ t.cs = .high ∧ t.rst = s.rst ∧
             (addr.toNat < 0x80 → addr.toNat ≠ 0x10 →
               t.dev = Device.see s.cfg s.dev (.wr (addr.setWidth 7) (presentOps pm op0 op1 op2 op3)))))) ∧
  (∀ w : CmdWord, w.extractLsb' 48 8 = 0x10#8 →
    decode w = .ok (.rpWrreg (w.extractLsb' 40 8) (w.extractLsb' 32 4) (w.extractLsb' 24 8)
      (w.extractLsb' 16 8) (w.extractLsb' 8 8) (w.extractLsb' 0 8)))

/-- R123: `RP_RDREG`: its two checks; the read frame and its wait; the second answer is the result; a timeout loses it. -/
def Obligations.ReadRegisterCommand : Prop :=
  (∀ (s : State) (addr : Byte), Ready s →
     (s.cfg.strict = true → s.configured = false →
       exec (.rpRdreg addr) s = .next (s.reported .notConfigured)) ∧
     (s.cfg.strict = true → s.configured = true → 0x80 ≤ addr.toNat →
       exec (.rpRdreg addr) s = .next (s.reported .invalidConfiguration)) ∧
     ((s.cfg.strict = true → s.configured = true ∧ addr.toNat < 0x80) →
       ∀ a r more, s.env.xfer = a :: r :: more →
         (∀ j rest, s.env.busy = List.replicate j true ++ false :: rest →
           (∀ n, s.cfg.waitBound = some n → j < n) →
           ∃ t, exec (.rpRdreg addr) s = .next t ∧ Ended s t (.okValue r) ∧
             t.trace = s.trace ++ (frameEvents [addr ||| 0x80#8, s.cfg.filler] [a, r]
               ++ List.replicate j (.busy true) ++ [.busy false]) ∧
             t.env = { s.env with xfer := more, busy := rest } ∧
             t.fb = s.fb ∧ t.ps = s.ps ∧ t.configured = s.configured ∧ t.cs = .high ∧ t.rst = s.rst ∧
             t.dev = s.dev) ∧
         (∀ n rest, s.cfg.waitBound = some n → s.env.busy = List.replicate n true ++ rest →
           ∃ t, exec (.rpRdreg addr) s = .next t ∧ Ended s t .deviceTimeout ∧
             t.trace = s.trace ++ (frameEvents [addr ||| 0x80#8, s.cfg.filler] [a, r]
               ++ List.replicate n (.busy true)) ∧
             t.fb = s.fb ∧ t.ps = s.ps ∧ t.configured = s.configured ∧ t.cs = .high ∧ t.rst = s.rst ∧
             t.dev = s.dev))) ∧
  (∀ w : CmdWord, w.extractLsb' 48 8 = 0x11#8 →
    decode w = .ok (.rpRdreg (w.extractLsb' 40 8)))

/-- R124: `RP_WRBUF`: its check; the pointer write, the stream, a wait after each; which buffer the shadow shows filled, and
with what; the timeouts of the first and of the second wait. -/
def Obligations.WriteBufferCommand : Prop :=
  (∀ (s : State) (target : BufferSel) (fillsel : FillSel) (fill : Byte) (select data : List Byte), Ready s →
     select = (if target = .current then s.cfg.opsWpCurrent else s.cfg.opsWpPrevious) →
     data = (if fillsel = .live then (List.range s.cfg.nStream).map s.fb.read
       else List.replicate s.cfg.nStream fill) →
     (s.cfg.strict = true → s.configured = false →
       exec (.rpWrbuf target fillsel fill) s = .next (s.reported .notConfigured)) ∧
     ((s.cfg.strict = true → s.configured = true) →
       (Responsive s (bufT s.cfg.regWritePointer select data) →
         ∃ t, exec (.rpWrbuf target fillsel fill) s = .next t ∧ Ended s t .ok ∧
           Ran s t (bufT s.cfg.regWritePointer select data) ∧
           t.fb = s.fb ∧ t.ps = s.ps ∧ t.configured = s.configured ∧ t.cs = .high ∧ t.rst = s.rst ∧
           (target = .current → t.dev = { s.dev with wp := some .current, cur := some data }) ∧
           (target = .previous → t.dev = { s.dev with wp := some .previous, prev := some data })) ∧
       (∀ n rest, s.cfg.waitBound = some n → s.env.busy = List.replicate n true ++ rest →
         ∃ t, exec (.rpWrbuf target fillsel fill) s = .next t ∧ Ended s t .deviceTimeout ∧
           Ran s t [.wr (s.cfg.regWritePointer.setWidth 7) select] ∧
           t.fb = s.fb ∧ t.ps = s.ps ∧ t.configured = s.configured ∧ t.cs = .high ∧ t.rst = s.rst) ∧
       (∀ n j rest, s.cfg.waitBound = some n → j < n →
         s.env.busy = List.replicate j true ++ false :: (List.replicate n true ++ rest) →
         ∃ t, exec (.rpWrbuf target fillsel fill) s = .next t ∧ Ended s t .deviceTimeout ∧
           Ran s t [.wr (s.cfg.regWritePointer.setWidth 7) select, .waitBusy, .stream data] ∧
           t.fb = s.fb ∧ t.ps = s.ps ∧ t.configured = s.configured ∧ t.cs = .high ∧ t.rst = s.rst))) ∧
  (∀ w : CmdWord, w.extractLsb' 48 8 = 0x12#8 →
    ∃ target fillsel, decode w = .ok (.rpWrbuf target fillsel (w.extractLsb' 8 8)) ∧
      (target = .current ↔ w.getLsbD 0 = false) ∧ (fillsel = .live ↔ w.getLsbD 1 = false))

/-- R75, R76; MODEL'S CHOICE (log 6): a register-write frame by itself is sent, waited for, seen by the shadow. -/
def Obligations.RegisterWriteFrame : Prop :=
  ∀ (s : State) (addr : BitVec 7) (ops : List Byte), Ready s → addr ≠ 0x10#7 → ops.length ≤ 4 →
    Responsive s [.wr addr ops, .waitBusy] →
    ∃ t, exec (.wWrreg addr ops) s = .next t ∧ Ended s t .ok ∧ Ran s t [.wr addr ops, .waitBusy] ∧
      t.fb = s.fb ∧ t.ps = s.ps ∧ t.configured = s.configured ∧ t.cs = .high ∧ t.rst = s.rst ∧
      t.dev = Device.see s.cfg s.dev (.wr addr ops)

/-- R75, R77; MODEL'S CHOICE (log 6): a register-read frame by itself is sent, waited for, and its second answer is the
result. -/
def Obligations.RegisterReadFrame : Prop :=
  ∀ (s : State) (addr : BitVec 7) (filler a r : Byte) (more : List Byte) (j : Nat) (rest : List Bool), Ready s →
    s.env.xfer = a :: r :: more → s.env.busy = List.replicate j true ++ false :: rest →
    (∀ n, s.cfg.waitBound = some n → j < n) →
    ∃ t, exec (.wRdreg addr filler) s = .next t ∧ Ended s t (.okValue r) ∧
      t.trace = s.trace ++ (frameEvents [1#1 ++ addr, filler] [a, r]
        ++ List.replicate j (.busy true) ++ [.busy false]) ∧
      t.env = { s.env with xfer := more, busy := rest } ∧
      t.fb = s.fb ∧ t.ps = s.ps ∧ t.configured = s.configured ∧ t.cs = .high ∧ t.rst = s.rst ∧ t.dev = s.dev

/-- R75, R78; MODEL'S CHOICE (log 6): a buffer-write frame by itself is sent, waited for, and fills the buffer the shadow's
pointer selects. -/
def Obligations.BufferWriteFrame : Prop :=
  ∀ (s : State) (data : List Byte), Ready s → data.length = s.cfg.nStream →
    Responsive s [.stream data, .waitBusy] →
    ∃ t, exec (.wWrbuf data) s = .next t ∧ Ended s t .ok ∧ Ran s t [.stream data, .waitBusy] ∧
      t.fb = s.fb ∧ t.ps = s.ps ∧ t.configured = s.configured ∧ t.cs = .high ∧ t.rst = s.rst ∧
      (s.dev.wp = some .current → t.dev = { s.dev with cur := some data }) ∧
      (s.dev.wp = some .previous → t.dev = { s.dev with prev := some data })

/-- R121, R199; MODEL'S CHOICE of what a step takes in (log 4): with no bound a wait whose samples are all busy stands: the
command stays, one more primitive counted for each sample, and a step that samples busy again changes nothing but the trace
and the count, in a plain wait, in the wait of `RP_RDREG` and in a wait of the ready poll. -/
def Obligations.HangKeepsWaiting : Prop :=
  (∀ (s : State) (v : BitVec 16) (j : Nat), Open s → s.cfg.waitBound = none → (s.cfg.strict = true → v.toInt.natAbs ≤ 30719) →
    s.env.busy = List.replicate j true →
    ∃ t, exec (.wsSetcv v) s = .next t ∧ t.seq = .running (.wsSetcv v) (5 + j) [.wait j] ∧
      t.result = s.result ∧ t.returned = s.returned) ∧
  (∀ (s : State) (c : Instr) (k polls j : Nat) (rest : List Op) (stands : Nat → Op),
    (stands = .wait ∨ (∃ r, stands = .readWait r) ∨ ∃ r reads, stands = fun polls => .pollWait r polls reads) →
    wellFormedConfig s.cfg = true → s.cfg.waitBound = none →
    s.seq = .running c k (stands polls :: rest) → s.env.busy = List.replicate (j + 1) true →
    step s = .next { s with
      seq := .running c (k + (j + 1)) (stands (polls + (j + 1)) :: rest)
      trace := s.trace ++ List.replicate (j + 1) (.busy true)
      env := { s.env with busy := [] } })

/-- R206, R123, R31; MODEL'S CHOICE of how the answers are held (log 3, log 4): with nothing queued, the answers are the
environment's free values, whatever they are: the frame is sent and answered by the next two free bytes, the command stands
in its wait, and the next free sample ends it, with the second byte as its result, or makes it stand on, or is the bound. -/
def Obligations.FreeAnswersDecide : Prop :=
  ∀ (s : State) (addr : Byte), Open s → (s.cfg.strict = true → addr.toNat < 0x80) → s.env.xfer = [] → s.env.busy = [] →
    ∃ t u, exec (.rpRdreg addr) s = .next t ∧ t.returned = s.returned ∧
      t.trace = s.trace ++ frameEvents [addr ||| 0x80#8, s.cfg.filler]
        [Config.xferAnswer s.env.xferCount, Config.xferAnswer (s.env.xferCount + 1)] ∧
      t.seq = .running (.rpRdreg addr) 4 [.readWait (Config.xferAnswer (s.env.xferCount + 1)) 0] ∧
      step t = .next u ∧ u.trace = t.trace ++ [.busy (Config.busyAnswer s.env.busyCount)] ∧
      (Config.busyAnswer s.env.busyCount = false →
        Ended s u (.okValue (Config.xferAnswer (s.env.xferCount + 1)))) ∧
      (Config.busyAnswer s.env.busyCount = true → s.cfg.waitBound = some 1 → Ended s u .deviceTimeout) ∧
      (Config.busyAnswer s.env.busyCount = true → (∀ n, s.cfg.waitBound = some n → 2 ≤ n) →
        u.returned = s.returned ∧
        u.seq = .running (.rpRdreg addr) 5 [.readWait (Config.xferAnswer (s.env.xferCount + 1)) 1])

/-! ## Power -/

/-- R141: `PS_ON`: after any number of status reads that are not ready, under the bound, and one that is. -/
def Obligations.PowerOnCompletes : Prop :=
  ∀ (s : State) (pre more : List Byte) (unready : List (Byte × Byte)) (last : Byte × Byte), Open s →
    s.env.xfer = pre ++ ((unready ++ [last]).flatMap (fun p => [p.1, p.2]) ++ more) →
    pre.length = s.cfg.opsResolution.length + s.cfg.opsTiming.length + s.cfg.opsPowerSequence.length
      + s.cfg.opsRailsUp.length + 4 →
    (∀ p ∈ unready, (p.2 &&& s.cfg.cpReadyMask) = 0#8) → (last.2 &&& s.cfg.cpReadyMask) ≠ 0#8 →
    (∀ n, s.cfg.waitBound = some n → unready.length < n) →
    busyClears s.cfg.waitBound (6 + unready.length) s.env.busy →
    ∃ t, exec .psOn s = .next t ∧ Ended s t .ok ∧
      Ran s t ([.waitBusy] ++ wrT s.cfg.regResolution s.cfg.opsResolution ++ wrT s.cfg.regTiming s.cfg.opsTiming
        ++ wrT s.cfg.regPowerSequence s.cfg.opsPowerSequence ++ wrT s.cfg.regPowerControl s.cfg.opsRailsUp
        ++ timesT (unready.length + 1) [.rd (s.cfg.regStatus.setWidth 7) none, .waitBusy]) ∧
      t.ps = .up ∧ t.fb = s.fb ∧ t.configured = s.configured ∧ t.cs = .high ∧ t.rst = s.rst ∧ t.dev = s.dev

/-- R141, R191, R196: `PS_ON` ends in `DeviceTimeout` when its first wait sees busy as often as the bound, or when as many
status reads as the bound are not ready; `PS` stays `poweringUp`. -/
def Obligations.PowerOnTimesOut : Prop :=
  (∀ (s : State) (n : Nat) (rest : List Bool), Open s → s.cfg.waitBound = some n →
    s.env.busy = List.replicate n true ++ rest →
    exec .psOn s = .next (State.reported .deviceTimeout { s with
      ps := .poweringUp
      trace := s.trace ++ List.replicate n (.busy true)
      env := { s.env with busy := rest } })) ∧
  (∀ (s : State) (n : Nat) (pre more : List Byte) (unready : List (Byte × Byte)), Open s → s.cfg.waitBound = some n →
    unready.length = n →
    s.env.xfer = pre ++ (unready.flatMap (fun p => [p.1, p.2]) ++ more) →
    pre.length = s.cfg.opsResolution.length + s.cfg.opsTiming.length + s.cfg.opsPowerSequence.length
      + s.cfg.opsRailsUp.length + 4 →
    (∀ p ∈ unready, (p.2 &&& s.cfg.cpReadyMask) = 0#8) →
    busyClears s.cfg.waitBound (5 + n) s.env.busy →
    ∃ t, exec .psOn s = .next t ∧ Ended s t .deviceTimeout ∧
      Ran s t ([.waitBusy] ++ wrT s.cfg.regResolution s.cfg.opsResolution ++ wrT s.cfg.regTiming s.cfg.opsTiming
        ++ wrT s.cfg.regPowerSequence s.cfg.opsPowerSequence ++ wrT s.cfg.regPowerControl s.cfg.opsRailsUp
        ++ timesT n [.rd (s.cfg.regStatus.setWidth 7) none, .waitBusy]) ∧
      t.ps = .poweringUp ∧ t.fb = s.fb ∧ t.configured = s.configured ∧ t.cs = .high ∧ t.rst = s.rst ∧ t.dev = s.dev)

/-- R141 (c), R199; MODEL'S CHOICE of what a step takes in (log 4): a command that stands at a ready poll whose status byte was not ready, when the wait clears, sends another
read frame and stands again. -/
def Obligations.UnreadyPumpReadAgain : Prop :=
  ∀ (s : State) (c : Instr) (k polls reads : Nat) (r a b : Byte) (more : List Byte) (rest : List Op),
    wellFormedConfig s.cfg = true → s.cfg.waitBound = none → s.seq = .running c k (.pollWait r polls reads :: rest) →
    (r &&& s.cfg.cpReadyMask) = 0#8 → s.env.busy = [false] → s.env.xfer = a :: b :: more →
    step s = .next { s with
      cs := .high
      seq := .running c (k + 5) (.pollWait b 0 (reads + 1) :: rest)
      trace := s.trace ++ .busy false :: frameEvents [s.cfg.regStatus ||| 0x80#8, s.cfg.filler] [a, b]
      env := { s.env with xfer := more, busy := [] } }

/-- R143: `PS_OFF`: its check; the two rail commands, each with its own and the listed wait; and the timeout of each of the
four waits (the last: vector Q7), the earlier ones having cleared after any numbers `js` of busy samples under the bound. -/
def Obligations.PowerOffCommand : Prop :=
  (∀ s : State, Ready s →
     (s.cfg.strict = true → s.configured = false → exec .psOff s = .next (s.reported .notConfigured)) ∧
     ((s.cfg.strict = true → s.configured = true) →
       (Responsive s (offT s.cfg) →
         ∃ t, exec .psOff s = .next t ∧ Ended s t .ok ∧ Ran s t (offT s.cfg) ∧
           t.ps = .down ∧ t.fb = s.fb ∧ t.configured = s.configured ∧ t.cs = .high ∧ t.rst = s.rst ∧ t.dev = s.dev) ∧
       (∀ (n : Nat) (js : List Nat) (rest : List Bool), s.cfg.waitBound = some n → js.length < 4 → (∀ j ∈ js, j < n) →
         s.env.busy = js.flatMap (fun j => List.replicate j true ++ [false]) ++ (List.replicate n true ++ rest) →
         ∃ t, exec .psOff s = .next t ∧ Ended s t .deviceTimeout ∧
           Ran s t ((offT s.cfg).take (if js.length < 2 then js.length + 1 else js.length + 2)) ∧
           t.ps = .poweringDown ∧ t.fb = s.fb ∧ t.configured = s.configured ∧ t.cs = .high ∧ t.rst = s.rst ∧
           t.dev = s.dev))) ∧
  (∀ w : CmdWord, w.extractLsb' 48 8 = 0x21#8 →
    decode w = .ok .psOff)

/-- R24, R140, R141, R143, R144, R162, R196: which commands write `PS`, and what a timeout leaves in it, by where it fell: in
an automatic `WS_UPDATE`, in a `WS_RENDER` or in `WS_BEGIN`, at any point, `PS` is what the coarse trace of the command so far
tells (`powerAfter`); for `WS_UPDATE` the four places are spelled out. -/
def Obligations.TimeoutLeavesPowerState : Prop :=
  ∀ (s t : State), Ready s →
    (∀ i, writesPs i = false → exec i s = .next t → t.ps = s.ps) ∧
    (exec .psOn s = .next t → t.returned = s.returned ++ [.deviceTimeout] → t.ps = .poweringUp) ∧
    (exec .psOff s = .next t → t.returned = s.returned ++ [.deviceTimeout] → t.ps = .poweringDown) ∧
    (∀ i, ((∃ mode, i = .wsUpdate mode false) ∨ (∃ colour, i = .wsRender colour) ∨ i = .wsBegin) → exec i s = .next t →
      ∃ new, t.trace = s.trace ++ new ∧ t.ps = powerAfter s.cfg s.ps (coarse new)) ∧
    (∀ mode new, exec (.wsUpdate mode false) s = .next t → t.returned = s.returned ++ [.deviceTimeout] →
      t.trace = s.trace ++ new →
      ((coarse new).length < 4 → t.ps = s.ps) ∧
      (4 ≤ (coarse new).length → (∀ ops, .wr (s.cfg.regProgrammedWaveform.setWidth 7) ops ∉ coarse new) →
        t.ps = .poweringUp) ∧
      (∀ ops, .wr (s.cfg.regProgrammedWaveform.setWidth 7) ops ∈ coarse new →
        .wr (s.cfg.regPowerControl.setWidth 7) s.cfg.opsRailsDown1 ∉ coarse new → t.ps = .up) ∧
      (.wr (s.cfg.regPowerControl.setWidth 7) s.cfg.opsRailsDown1 ∈ coarse new → t.ps = .poweringDown))

/-! ## The waveform sequencer -/

/-- R160: `WS_SETCV`: its two checks, the one register write, and its timeout. -/
def Obligations.SetCommonVoltageCommand : Prop :=
  (∀ (s : State) (v : BitVec 16), Ready s →
     (s.cfg.strict = true → s.configured = false → exec (.wsSetcv v) s = .next (s.reported .notConfigured)) ∧
     (s.cfg.strict = true → s.configured = true → 30719 < v.toInt.natAbs →
       exec (.wsSetcv v) s = .next (s.reported .invalidConfiguration)) ∧
     ((s.cfg.strict = true → s.configured = true ∧ v.toInt.natAbs ≤ 30719) →
       Responsive s (wrT s.cfg.regCommonVoltage (encodeCV v.toInt)) →
       ∃ t, exec (.wsSetcv v) s = .next t ∧ Ended s t .ok ∧
         Ran s t (wrT s.cfg.regCommonVoltage (encodeCV v.toInt)) ∧
         t.fb = s.fb ∧ t.ps = s.ps ∧ t.configured = s.configured ∧ t.cs = .high ∧ t.rst = s.rst ∧
         t.dev = { s.dev with cv := some (encodeCV v.toInt) }) ∧
     ((s.cfg.strict = true → s.configured = true ∧ v.toInt.natAbs ≤ 30719) →
       ∀ n rest, s.cfg.waitBound = some n → s.env.busy = List.replicate n true ++ rest →
       ∃ t, exec (.wsSetcv v) s = .next t ∧ Ended s t .deviceTimeout ∧ Ran s t ((wrT s.cfg.regCommonVoltage (encodeCV v.toInt)).take 1) ∧
         t.fb = s.fb ∧ t.ps = s.ps ∧ t.configured = s.configured ∧ t.cs = .high ∧ t.rst = s.rst ∧
         t.dev = { s.dev with cv := some (encodeCV v.toInt) })) ∧
  (∀ w : CmdWord, w.extractLsb' 48 8 = 0x33#8 →
    decode w = .ok (.wsSetcv (w.extractLsb' 0 16)))

/-- R161: `WS_SETSV`: its two checks, the one register write with the fixed first operand 0x25, and its timeout. -/
def Obligations.SetSourceVoltageCommand : Prop :=
  (∀ (s : State) (sv : BitVec 16), Ready s →
     (s.cfg.strict = true → s.configured = false → exec (.wsSetsv sv) s = .next (s.reported .notConfigured)) ∧
     (s.cfg.strict = true → s.configured = true → (sv.toNat < 8000 ∨ 15999 < sv.toNat) →
       exec (.wsSetsv sv) s = .next (s.reported .invalidConfiguration)) ∧
     ((s.cfg.strict = true → s.configured = true ∧ 8000 ≤ sv.toNat ∧ sv.toNat ≤ 15999) →
       Responsive s (wrT s.cfg.regDriverVoltage [0x25#8, encodeSV sv.toNat]) →
       ∃ t, exec (.wsSetsv sv) s = .next t ∧ Ended s t .ok ∧
         Ran s t (wrT s.cfg.regDriverVoltage [0x25#8, encodeSV sv.toNat]) ∧
         t.fb = s.fb ∧ t.ps = s.ps ∧ t.configured = s.configured ∧ t.cs = .high ∧ t.rst = s.rst ∧
         t.dev = { s.dev with sv := some [0x25#8, encodeSV sv.toNat] }) ∧
     ((s.cfg.strict = true → s.configured = true ∧ 8000 ≤ sv.toNat ∧ sv.toNat ≤ 15999) →
       ∀ n rest, s.cfg.waitBound = some n → s.env.busy = List.replicate n true ++ rest →
       ∃ t, exec (.wsSetsv sv) s = .next t ∧ Ended s t .deviceTimeout ∧ Ran s t ((wrT s.cfg.regDriverVoltage [0x25#8, encodeSV sv.toNat]).take 1) ∧
         t.fb = s.fb ∧ t.ps = s.ps ∧ t.configured = s.configured ∧ t.cs = .high ∧ t.rst = s.rst ∧
         t.dev = { s.dev with sv := some [0x25#8, encodeSV sv.toNat] })) ∧
  (∀ w : CmdWord, w.extractLsb' 48 8 = 0x34#8 →
    decode w = .ok (.wsSetsv (w.extractLsb' 0 16)))

/-- R162, R163, R144, R207: `WS_UPDATE`, each mode, automatic and manual: the flush, the power-up unless manual, the
program-select and trigger writes, the wait, the power-down unless manual; and the pair the shadow records. The power-up may
find the pump not ready any number of times under the bound (`us`). -/
def Obligations.UpdateCompletes : Prop :=
  ∀ (s : State) (mode : BitVec 2) (manual : Bool) (p g : Byte) (data : List Byte) (us : List Nat), Open s →
    (mode = 0#2 ∧ p = s.cfg.progselFull ∧ g = 0x03#8 ∨ mode = 1#2 ∧ p = s.cfg.progselPartial ∧ g = 0x03#8 ∨
      mode = 2#2 ∧ p = 0x02#8 ∧ g = 0x07#8) →
    data = (List.range s.cfg.nStream).map s.fb.read →
    ResponsiveAfter s us (updateT s.cfg data p g manual) →
    ∃ t, exec (.wsUpdate mode manual) s = .next t ∧ Ended s t .ok ∧
      Ran s t (withUnready us (updateT s.cfg data p g manual)) ∧
      t.ps = (if manual = true then s.ps else .down) ∧
      t.fb = s.fb ∧ t.configured = s.configured ∧ t.cs = .high ∧ t.rst = s.rst ∧
      t.dev = { s.dev with
        wp := some .current
        cur := some data
        prev := none
        progsel := some [p]
        triggers := s.dev.triggers ++
          [⟨some [p], [g], some data, s.dev.prev, s.dev.cv, s.dev.sv⟩] }

/-- R168 to R175: `WS_RENDER`, each of the six colours: its recipe's trace, and what is left: `FB` as it was, but for blue,
which leaves it complemented; the rails down. Each power-up may find the pump not ready any number of times under the bound
(`us`). -/
def Obligations.RenderCompletes : Prop :=
  ∀ (s : State) (code : BitVec 3) (col : Colour) (B : List Byte) (us : List Nat), Open s → FbOk s →
    (code = 0#3 ∧ col = .black ∨ code = 1#3 ∧ col = .white ∨ code = 2#3 ∧ col = .yellow ∨ code = 3#3 ∧ col = .green ∨
      code = 4#3 ∧ col = .red ∨ code = 5#3 ∧ col = .blue) →
    B = (List.range s.cfg.nStream).map s.fb.read →
    ResponsiveAfter s us (renderT s.cfg B col) →
    ∃ t, exec (.wsRender code) s = .next t ∧ Ended s t .ok ∧ Ran s t (withUnready us (renderT s.cfg B col)) ∧
      FbOk t ∧ (col ≠ .blue → t.fb = s.fb) ∧
      (col = .blue → ∀ a, t.fb.read a = if a < s.cfg.fbSize then ~~~ s.fb.read a else s.fb.read a) ∧
      t.ps = .down ∧ t.configured = s.configured ∧ t.cs = .high ∧ t.rst = s.rst ∧
      t.dev = (renderT s.cfg B col).foldl (Device.see s.cfg) s.dev

/-- R156 to R159, R166, R167, R222: `WS_BEGIN`, with and without a reset line, configured or not. Each power-up may find the
pump not ready any number of times under the bound (`us`). The shadow is the fold of R207, the list of triggers emptied by the
reset of the device (log 8); that `RST` is unchanged without a reset line is the MODEL'S CHOICE (log 12). -/
def Obligations.BeginCompletes : Prop :=
  ∀ (s : State) (us : List Nat), Ready s → ResponsiveAfter s us (beginT s.cfg) →
    ∃ t, exec .wsBegin s = .next t ∧ Ended s t .ok ∧ Ran s t (withUnready us (beginT s.cfg)) ∧
      t.configured = true ∧ t.ps = .down ∧ t.cs = .high ∧
      t.rst = (if s.cfg.hasResetLine = true then .high else s.rst) ∧
      (∀ a, a < s.cfg.fbSize → t.fb.read a = levelByte s.cfg.eraseFinalLevel) ∧ FbOk t ∧ TileConsistent s.cfg t.fb ∧
      t.dev = (beginT s.cfg).foldl (Device.see s.cfg) s.dev

/-- R179: the counts of `WR`, `STREAM`, `RD` and `DELAY` events of the traces the completion statements give, with one status
read for each `PowerOn`. -/
def Obligations.RecipeSizes : Prop :=
  ∀ (c : Config) (B : List Byte) (p g : Byte),
    Coarse.tally (onT c) = (4, 0, 1, 0) ∧ Coarse.tally (offT c) = (2, 0, 0, 0) ∧
    Coarse.tally (updateT c B p g true) = (3, 1, 0, 0) ∧ Coarse.tally (updateT c B p g false) = (9, 1, 1, 0) ∧
    Coarse.tally (prevT c p) = (1, 1, 0, 0) ∧
    Coarse.tally (renderT c B .black) = (102, 20, 10, 0) ∧ Coarse.tally (renderT c B .white) = (102, 20, 10, 0) ∧
    Coarse.tally (renderT c B .yellow) = (32, 6, 3, 0) ∧ Coarse.tally (renderT c B .green) = (32, 6, 3, 0) ∧
    Coarse.tally (redBlockT c B) = (44, 8, 4, 4) ∧ Coarse.tally (renderT c B .red) = (45, 8, 4, 4) ∧
    Coarse.tally (renderT c B .blue) = (if c.blueLeadingSv = true then 67 else 66, 12, 6, 6) ∧
    Coarse.tally (eraseT c) = (125, 24, 12, 4) ∧
    Coarse.tally (beginT c) = (if c.hasResetLine = true then (133, 24, 12, 7) else (134, 24, 12, 4))

/-- R232, R233, R22: whatever the environment does, `WS_RENDER` leaves `FB` as it was or complemented, up to where the command
stands. -/
def Obligations.RenderKeepsFbUpToComplement : Prop :=
  ∀ (s t : State) (code : BitVec 3), Ready s → FbOk s → exec (.wsRender code) s = .next t →
    t.fb = s.fb ∨ ∀ a, t.fb.read a = if a < s.cfg.fbSize then ~~~ s.fb.read a else s.fb.read a

/-! ## What every command and every step keeps -/

/-- R22: only the commands R22 lists write `FB`. -/
def Obligations.OnlyDrawingWritesFb : Prop :=
  ∀ (i : Instr) (s t : State), writesFb i = false → exec i s = .next t → t.fb = s.fb

/-- R25, R159, R196: `CONFIGURED` is written by the successful end of `WS_BEGIN` only: no other command changes it, nor does a
`WS_BEGIN` that times out or that still stands in a wait. -/
def Obligations.OnlyBeginConfigures : Prop :=
  ∀ (i : Instr) (s t : State), Ready s → exec i s = .next t →
    (t.configured = s.configured ∨ i = .wsBegin) ∧
    (t.returned = s.returned → t.configured = s.configured) ∧
    (i = .wsBegin → t.returned = s.returned ++ [.deviceTimeout] → t.configured = s.configured) ∧
    (i = .wsBegin → t.returned = s.returned ++ [.ok] → t.configured = true)

/-- R196: after `DeviceTimeout` the block is idle with `CS` high, and the last event is a busy sample: the failing one, or the
one that ended the last status read. -/
def Obligations.TimeoutIsLeftIdle : Prop :=
  ∀ (i : Instr) (s t : State), Ready s → Framed s → exec i s = .next t →
    t.returned = s.returned ++ [.deviceTimeout] →
    t.result = .deviceTimeout ∧ t.seq = .idle ∧ t.cs = .high ∧ t.cfg = s.cfg ∧
      ∃ new b, t.trace = s.trace ++ new ++ [.busy b]

/-- R191: with no bound `DeviceTimeout` is never raised, by a command or by a step. -/
def Obligations.NoBoundNoTimeout : Prop :=
  ∀ s t : State, s.cfg.waitBound = none →
    (∀ i, exec i s = .next t → t.returned ≠ s.returned ++ [.deviceTimeout]) ∧
    (step s = .next t → t.returned ≠ s.returned ++ [.deviceTimeout])

/-- R26: `SEQ` keeps the command and counts its primitives, one event of the trace for each. -/
def Obligations.SeqCountsPrimitives : Prop :=
  (∀ (i : Instr) (s t : State) (c : Instr) (k : Nat) (todo : List Op), s.seq = .idle → exec i s = .next t →
    t.seq = .running c k todo → c = i ∧ ∃ new, t.trace = s.trace ++ new ∧ k = new.length) ∧
  (∀ (s t : State) (c c' : Instr) (k k' : Nat) (todo todo' : List Op), s.seq = .running c k todo → step s = .next t →
    t.seq = .running c' k' todo' → c' = c ∧ ∃ new, t.trace = s.trace ++ new ∧ k' = k + new.length)

/-- R25, R31, R16, R71: a step never changes the configuration, never clears `CONFIGURED`, only appends to the trace, and ends
at most one command, with `RESULT` its result. -/
def Obligations.StepOnlyAppends : Prop :=
  ∀ s t : State, step s = .next t →
    t.cfg = s.cfg ∧ (s.configured = true → t.configured = true) ∧ (∃ new, t.trace = s.trace ++ new) ∧
    ((t.returned = s.returned ∧ t.result = s.result) ∨
      (∃ r, t.returned = s.returned ++ [r] ∧ t.result = r ∧ t.seq = .idle))

/-! ## Reset and invariants -/

/-- R220, R41: the reset state, for any configuration and any contents of `FB`; then nothing happens until a command comes. -/
def Obligations.ResetState : Prop :=
  ∀ (c : Config) (fb : Memory),
    (State.resetWith c fb).ps = .down ∧ (State.resetWith c fb).configured = false ∧
    (State.resetWith c fb).seq = .idle ∧ (State.resetWith c fb).result = .ok ∧
    (State.resetWith c fb).cs = .high ∧ (State.resetWith c fb).rst = .high ∧
    (State.resetWith c fb).cfg = c ∧ (State.resetWith c fb).fb = fb ∧
    (State.resetWith c fb).dev = Device.unknown ∧ (State.resetWith c fb).trace = [] ∧
    (wellFormedConfig c = true → step (State.resetWith c fb) = .next (State.resetWith c fb))

/-- R21, R28, R125, R207: the invariants hold at reset; the configuration and the contents of `FB` there are the MODEL'S CHOICE
(log 1, log 2). -/
def Obligations.InvariantsAtReset : Prop :=
  FbOk State.reset ∧ Framed State.reset ∧ Classified State.reset ∧ ShadowOk State.reset ∧ TilesOk State.reset

/-- R21: the FrameBuffer keeps its size and its canonical form. -/
def Obligations.StepKeepsFrameBufferForm : Prop :=
  ∀ s t : State, FbOk s → step s = .next t → FbOk t

/-- R125, R28: the framing of the bus, (1) to (4), and `CS` high between steps (log 7); with `STRICT`, (5): every frame of the
trace is classified by its first byte and has the length of its kind, and no coarse event is an unframed one. -/
def Obligations.StepKeepsFraming : Prop :=
  ∀ s t : State, Framed s → step s = .next t →
    Framed t ∧ (Classified s → Classified t ∧ (t.cfg.strict = true → .unframed ∉ coarse t.trace))

/-- R207: the shadow is the fold of the coarse trace; where R207 is silent the fold is the MODEL'S CHOICE (log 8). -/
def Obligations.StepKeepsShadow : Prop :=
  ∀ s t : State, ShadowOk s → step s = .next t → ShadowOk t

/-- R108: tile consistency under D7, kept by every step. -/
def Obligations.StepKeepsTiles : Prop :=
  ∀ s t : State, TilesOk s → step s = .next t → TilesOk t
end

