-- ==== Sys2Proof/Laws/Memory.lean ====
section
/-! SUPPORT. Sys2Proof/Laws/Memory.lean: the laws of the FrameBuffer memory: reading what was written, the
canonical form, the whole-array writes, and that two canonical memories with the same bytes are equal. -/

namespace Sys2Proof.Machine

@[simp] theorem Memory.read_nil (a : Nat) : Memory.read [] a = Memory.unlisted := rfl

theorem Memory.read_cons (b : Nat) (w : Byte) (m : Memory) (a : Nat) :
    Memory.read ((b, w) :: m) a = if a = b then w else Memory.read m a := rfl

theorem Memory.wf_iff (m : Memory) :
    m.wf = true ↔ m.Pairwise (fun x y => x.1 < y.1) ∧ ∀ x ∈ m, x.2 ≠ Memory.unlisted := by
  simp [Memory.wf]

@[simp] theorem Memory.wf_nil : Memory.wf [] = true := rfl

/-- An address no entry lists reads as the unlisted byte. -/
theorem Memory.read_of_forall_ne {m : Memory} {a : Nat} (h : ∀ x ∈ m, x.1 ≠ a) :
    m.read a = Memory.unlisted := by
  induction m with
  | nil => rfl
  | cons x m ih =>
    rw [Memory.read_cons, if_neg (fun e => h x (by simp) e.symm)]
    exact ih fun y hy => h y (by simp [hy])

/-- An entry of a memory with rising addresses is what its address reads as. -/
theorem Memory.read_of_mem {m : Memory} (hp : m.Pairwise (fun x y => x.1 < y.1)) {x : Host.Cell}
    (hx : x ∈ m) : m.read x.1 = x.2 := by
  induction m with
  | nil => cases hx
  | cons y m ih =>
    rw [List.pairwise_cons] at hp
    rw [Memory.read_cons]
    rcases List.mem_cons.1 hx with rfl | h
    · simp
    · rw [if_neg (Nat.ne_of_gt (hp.1 x h))]
      exact ih hp.2 h

/-! ## One byte -/

theorem Memory.read_write_other (m : Memory) (a b : Nat) (v : Byte) (h : b ≠ a) :
    (m.write a v).read b = m.read b := by
  induction m with
  | nil => simp only [Memory.write]; split <;> simp [Memory.read_cons, h]
  | cons x m ih =>
    obtain ⟨c, w⟩ := x
    simp only [Memory.write]
    split
    · split <;> simp [Memory.read_cons, h]
    · split
      · next hac => subst hac; split <;> simp [Memory.read_cons, h]
      · simp [Memory.read_cons, ih]

theorem Memory.mem_write {m : Memory} {a : Nat} {v : Byte} {x : Host.Cell} (h : x ∈ m.write a v) :
    x ∈ m ∨ (x = (a, v) ∧ v ≠ Memory.unlisted) := by
  induction m with
  | nil => simp only [Memory.write] at h; split at h <;> simp_all
  | cons y m ih =>
    simp only [Memory.write] at h
    split at h
    · split at h
      · exact .inl h
      · rcases List.mem_cons.1 h with h | h
        · exact .inr ⟨h, ‹_›⟩
        · exact .inl h
    · split at h
      · split at h
        · exact .inl (by simp [h])
        · rcases List.mem_cons.1 h with h | h
          · exact .inr ⟨h, ‹_›⟩
          · exact .inl (by simp [h])
      · rcases List.mem_cons.1 h with h | h
        · exact .inl (by simp [h])
        · rcases ih h with h | h
          · exact .inl (by simp [h])
          · exact .inr h

theorem Memory.write_rising {m : Memory} (hp : m.Pairwise (fun x y => x.1 < y.1)) (a : Nat) (v : Byte) :
    (m.write a v).Pairwise (fun x y => x.1 < y.1) := by
  induction m with
  | nil => simp only [Memory.write]; split <;> simp
  | cons y m ih =>
    have hy := List.pairwise_cons.1 hp
    simp only [Memory.write]
    split
    · next hlt =>
      split
      · exact hp
      · refine List.pairwise_cons.2 ⟨fun x hx => ?_, hp⟩
        rcases List.mem_cons.1 hx with rfl | hx
        · exact hlt
        · exact Nat.lt_trans hlt (hy.1 x hx)
    · split
      · next heq =>
        split
        · exact hy.2
        · exact List.pairwise_cons.2 ⟨fun x hx => by rw [heq]; exact hy.1 x hx, hy.2⟩
      · refine List.pairwise_cons.2 ⟨fun x hx => ?_, ih hy.2⟩
        rcases Memory.mem_write hx with hx | ⟨rfl, _⟩
        · exact hy.1 x hx
        · show y.1 < a
          omega

/-- Writing keeps the canonical form. -/
theorem Memory.write_wf {m : Memory} (h : m.wf = true) (a : Nat) (v : Byte) : (m.write a v).wf = true := by
  rw [Memory.wf_iff] at h ⊢
  refine ⟨Memory.write_rising h.1 a v, fun x hx => ?_⟩
  rcases Memory.mem_write hx with hx | ⟨rfl, hv⟩
  · exact h.2 x hx
  · exact hv

theorem Memory.read_write_same {m : Memory} (h : m.wf = true) (a : Nat) (v : Byte) :
    (m.write a v).read a = v := by
  replace h := ((Memory.wf_iff m).1 h).1
  induction m with
  | nil => simp only [Memory.write]; split <;> simp_all [Memory.read_cons]
  | cons y m ih =>
    obtain ⟨b, w⟩ := y
    have hy := List.pairwise_cons.1 h
    simp only [Memory.write]
    split
    · next hlt =>
      split
      · next hv =>
        rw [hv]
        refine Memory.read_of_forall_ne fun x hx => ?_
        rcases List.mem_cons.1 hx with rfl | hx
        · exact Nat.ne_of_gt hlt
        · exact Nat.ne_of_gt (Nat.lt_trans hlt (hy.1 x hx))
      · simp [Memory.read_cons]
    · split
      · next heq =>
        subst heq
        split
        · next hv =>
          rw [hv]
          exact Memory.read_of_forall_ne fun x hx => Nat.ne_of_gt (hy.1 x hx)
        · simp [Memory.read_cons]
      · next hne =>
        rw [Memory.read_cons, if_neg hne]
        exact ih hy.2

theorem Memory.write_inRange {m : Memory} {n a : Nat} (h : ∀ x ∈ m, x.1 < n) (ha : a < n) (v : Byte) :
    ∀ x ∈ m.write a v, x.1 < n := by
  intro x hx
  rcases Memory.mem_write hx with hx | ⟨rfl, _⟩
  · exact h x hx
  · exact ha

/-! ## The same byte at several addresses -/

@[simp] theorem Memory.writeAll_nil (m : Memory) (v : Byte) : m.writeAll [] v = m := rfl

@[simp] theorem Memory.writeAll_cons (m : Memory) (a : Nat) (as : List Nat) (v : Byte) :
    m.writeAll (a :: as) v = (m.write a v).writeAll as v := rfl

theorem Memory.writeAll_wf {m : Memory} (h : m.wf = true) (as : List Nat) (v : Byte) :
    (m.writeAll as v).wf = true := by
  induction as generalizing m with
  | nil => exact h
  | cons a as ih => exact ih (Memory.write_wf h a v)

theorem Memory.writeAll_inRange {m : Memory} {n : Nat} {as : List Nat} (h : ∀ x ∈ m, x.1 < n)
    (ha : ∀ a ∈ as, a < n) (v : Byte) : ∀ x ∈ m.writeAll as v, x.1 < n := by
  induction as generalizing m with
  | nil => exact h
  | cons a as ih =>
    exact ih (Memory.write_inRange h (ha a (by simp)) v) fun b hb => ha b (by simp [hb])

/-- What a memory holds after the same byte is stored at several addresses. -/
theorem Memory.read_writeAll {m : Memory} (h : m.wf = true) (as : List Nat) (v : Byte) (a : Nat) :
    (m.writeAll as v).read a = if a ∈ as then v else m.read a := by
  induction as generalizing m with
  | nil => simp
  | cons b as ih =>
    rw [Memory.writeAll_cons, ih (Memory.write_wf h b v)]
    by_cases hab : a = b
    · subst hab
      simp [Memory.read_write_same h]
    · simp [Memory.read_write_other m b a v hab, hab]

/-! ## Every byte at once -/

theorem Memory.mem_tabulate {n : Nat} {f : Nat → Byte} {x : Host.Cell} :
    x ∈ Memory.tabulate n f ↔ x.1 < n ∧ f x.1 ≠ Memory.unlisted ∧ x.2 = f x.1 := by
  simp only [Memory.tabulate, List.mem_filterMap, List.mem_range]
  constructor
  · rintro ⟨a, ha, he⟩
    split at he
    · cases he
    · cases he
      exact ⟨ha, ‹_›, rfl⟩
  · rintro ⟨hx, hf, he⟩
    exact ⟨x.1, hx, by rw [if_neg hf, ← he]⟩

theorem Memory.tabulate_rising (n : Nat) (f : Nat → Byte) :
    (Memory.tabulate n f).Pairwise (fun x y => x.1 < y.1) := by
  simp only [Memory.tabulate]
  refine List.Pairwise.filterMap _ ?_ (List.pairwise_lt_range (n := n))
  intro a b hab x hx y hy
  split at hx
  · cases hx
  · split at hy
    · cases hy
    · cases hx
      cases hy
      exact hab

/-- Writing every byte gives the canonical form, whatever was there. -/
theorem Memory.tabulate_wf (n : Nat) (f : Nat → Byte) : (Memory.tabulate n f).wf = true := by
  rw [Memory.wf_iff]
  refine ⟨Memory.tabulate_rising n f, fun x hx => ?_⟩
  obtain ⟨_, h, e⟩ := Memory.mem_tabulate.1 hx
  rw [e]
  exact h

theorem Memory.tabulate_inRange (n : Nat) (f : Nat → Byte) : ∀ x ∈ Memory.tabulate n f, x.1 < n :=
  fun _ hx => (Memory.mem_tabulate.1 hx).1

theorem Memory.read_tabulate (n : Nat) (f : Nat → Byte) (a : Nat) :
    (Memory.tabulate n f).read a = if a < n then f a else Memory.unlisted := by
  split
  · next ha =>
    by_cases hf : f a = Memory.unlisted
    · rw [hf]
      refine Memory.read_of_forall_ne ?_
      rintro x hx rfl
      exact (Memory.mem_tabulate.1 hx).2.1 hf
    · exact Memory.read_of_mem (x := (a, f a)) (Memory.tabulate_rising n f)
        (Memory.mem_tabulate.2 ⟨ha, hf, rfl⟩)
  · next ha =>
    refine Memory.read_of_forall_ne ?_
    rintro x hx rfl
    exact ha (Memory.mem_tabulate.1 hx).1

@[simp] theorem Memory.length_bytes (m : Memory) (n : Nat) : (m.bytes n).length = n := by
  simp [Memory.bytes]

theorem Memory.bytes_tabulate (n : Nat) (f : Nat → Byte) :
    (Memory.tabulate n f).bytes n = (List.range n).map f := by
  simp only [Memory.bytes]
  refine List.map_congr_left fun a ha => ?_
  rw [Memory.read_tabulate, if_pos (List.mem_range.1 ha)]

/-! ## Equal bytes, equal memories -/

/-- The list form of extensionality: the entries of a canonical memory are its non-unlisted bytes. -/
theorem Memory.mem_iff {m : Memory} (h : m.wf = true) (x : Host.Cell) :
    x ∈ m ↔ m.read x.1 = x.2 ∧ x.2 ≠ Memory.unlisted := by
  obtain ⟨hp, hn⟩ := (Memory.wf_iff m).1 h
  constructor
  · exact fun hx => ⟨Memory.read_of_mem hp hx, hn x hx⟩
  · rintro ⟨hr, hx⟩
    by_contra hmem
    apply hx
    rw [← hr]
    refine Memory.read_of_forall_ne fun y hy e => hmem ?_
    have : y = x := Prod.ext e (by rw [← hr, ← e, Memory.read_of_mem hp hy])
    rwa [← this]

/-- Two canonical memories with the same bytes are equal data. -/
theorem Memory.ext_read {m₁ m₂ : Memory} (h₁ : m₁.wf = true) (h₂ : m₂.wf = true)
    (h : ∀ a, m₁.read a = m₂.read a) : m₁ = m₂ := by
  have hp₁ := ((Memory.wf_iff m₁).1 h₁).1
  have hp₂ := ((Memory.wf_iff m₂).1 h₂).1
  refine List.Perm.eq_of_pairwise (le := fun x y => x.1 < y.1) (fun a b _ _ hab hba => ?_) hp₁ hp₂ ?_
  · exact absurd (Nat.lt_trans hab hba) (Nat.lt_irrefl _)
  · refine (List.perm_ext_iff_of_nodup (hp₁.imp fun h e => ?_) (hp₂.imp fun h e => ?_)).2 fun x => ?_
    · rw [e] at h; exact Nat.lt_irrefl _ h
    · rw [e] at h; exact Nat.lt_irrefl _ h
    · rw [Memory.mem_iff h₁, Memory.mem_iff h₂, h]

end Sys2Proof.Machine
end

