-- ==== Sys2Proof/Laws/FrameBuffer.lean ====
section
/-! SUPPORT. Sys2Proof/Laws/FrameBuffer.lean: the six laws of 40_framebuffer.md R109, each of the FrameBuffer functions
the commands' bodies are (`fbCleared`, `fbInverted`, `fbSegmentSet`, `fbSegmentsDrawn`): (1) `read_fbCleared`,
(2) `fbInverted_fbInverted`, (3) `fbInverted_fbCleared`, (4) `fbSegmentsDrawn_other` and `fbSegmentsDrawn_pixel`,
(5) `getField_fbSegmentSet`, (6) `fbCleared_inRange`, `fbInverted_inRange`, `fbSegmentSet_inRange`,
`fbSegmentsDrawn_inRange`. -/

namespace Sys2Proof.Machine

/-! ## Sub-fields -/

theorem segSub_lt (c : Config) (i : Nat) : segSub c i < 4 := Nat.mod_lt _ (by decide)

theorem getField_setField_same (m : Bool) (b : Byte) {k : Nat} (l : Level) (hk : k < 4) :
    getField m (setField m b k l) k = l.code := by
  have : k = 0 ∨ k = 1 ∨ k = 2 ∨ k = 3 := by omega
  revert b
  rcases this with rfl | rfl | rfl | rfl <;> cases l <;> cases m <;> decide

theorem getField_setField_other (m : Bool) (b : Byte) {k k' : Nat} (l : Level) (hk : k < 4) (hk' : k' < 4)
    (hne : k' ≠ k) : getField m (setField m b k l) k' = getField m b k' := by
  have h : k = 0 ∨ k = 1 ∨ k = 2 ∨ k = 3 := by omega
  have h' : k' = 0 ∨ k' = 1 ∨ k' = 2 ∨ k' = 3 := by omega
  revert b
  rcases h with rfl | rfl | rfl | rfl <;> rcases h' with rfl | rfl | rfl | rfl <;>
    first
      | exact absurd rfl hne
      | (cases l <;> cases m <;> decide)

/-! ## Clear and invert -/

/-- R109 (1), the clear law of R102: every byte reads the level's pattern. -/
theorem read_fbCleared (c : Config) (l : Level) (a : Nat) :
    (fbCleared c l).read a = if a < c.fbSize then pattern l else Memory.unlisted := Memory.read_tabulate _ _ _

theorem read_fbInverted (c : Config) (fb : Memory) (a : Nat) :
    (fbInverted c fb).read a = if a < c.fbSize then ~~~ fb.read a else Memory.unlisted := Memory.read_tabulate _ _ _

theorem fbCleared_wf (c : Config) (l : Level) : (fbCleared c l).wf = true := Memory.tabulate_wf _ _

theorem fbInverted_wf (c : Config) (fb : Memory) : (fbInverted c fb).wf = true := Memory.tabulate_wf _ _

/-- R109 (2), the involution of R103. -/
theorem fbInverted_fbInverted {c : Config} {fb : Memory} (hw : fb.wf = true) (hr : ∀ x ∈ fb, x.1 < c.fbSize) :
    fbInverted c (fbInverted c fb) = fb := by
  refine Memory.ext_read (fbInverted_wf _ _) hw fun a => ?_
  rw [read_fbInverted, read_fbInverted]
  split
  · simp
  · next ha =>
    refine (Memory.read_of_forall_ne fun x hx e => ?_).symm
    subst e
    exact ha (hr x hx)

/-- R109 (3): inverting after a clear to `l` is a clear to `3 - l`. -/
theorem fbInverted_fbCleared (c : Config) {l l' : Level} (h : l.code.toNat + l'.code.toNat = 3) :
    fbInverted c (fbCleared c l) = fbCleared c l' := by
  have hp : ~~~ pattern l = pattern l' := by revert h; cases l <;> cases l' <;> decide
  refine Memory.ext_read (fbInverted_wf _ _) (fbCleared_wf _ _) fun a => ?_
  rw [read_fbInverted, read_fbCleared, read_fbCleared]
  split
  · exact hp
  · rfl

/-! ## One segment -/

theorem mem_segBytes {c : Config} {i a : Nat} : a ∈ segBytes c i ↔ ∃ k, k < nTiles ∧ segByte c i k = a := by
  simp [segBytes]

theorem fbSegmentSet_wf {c : Config} {fb : Memory} (h : fb.wf = true) (i : Nat) (l : Level) :
    (fbSegmentSet c i l fb).wf = true := Memory.writeAll_wf h _ _

/-- Everything a segment write does (R106): the new byte at the five tile bytes, and nothing else. -/
theorem read_fbSegmentSet {c : Config} {fb : Memory} (h : fb.wf = true) (i : Nat) (l : Level) (a : Nat) :
    (fbSegmentSet c i l fb).read a = if a ∈ segBytes c i then segNewByte c fb i l else fb.read a :=
  Memory.read_writeAll h _ _ _

/-- R109 (5): after `FB_SETSEG i, l` the segment's pixel reads `l` in every tile. -/
theorem getField_fbSegmentSet {c : Config} {fb : Memory} (h : fb.wf = true) (i : Nat) (l : Level) {k : Nat}
    (hk : k < nTiles) :
    getField c.subfieldMsbFirst ((fbSegmentSet c i l fb).read (segByte c i k)) (segSub c i) = l.code := by
  rw [read_fbSegmentSet h, if_pos (mem_segBytes.2 ⟨k, hk, rfl⟩)]
  exact getField_setField_same _ _ _ (segSub_lt c i)

/-- On a tile-consistent FrameBuffer a segment write sets one sub-field of each tile byte (R107). -/
theorem read_fbSegmentSet_of_tileConsistent {c : Config} {fb : Memory} (h : fb.wf = true) (ht : TileConsistent c fb)
    {i : Nat} (hi : i < nSeg) (l : Level) (a : Nat) :
    (fbSegmentSet c i l fb).read a =
      if a ∈ segBytes c i then setField c.subfieldMsbFirst (fb.read a) (segSub c i) l else fb.read a := by
  rw [read_fbSegmentSet h]
  split
  · next hm =>
    obtain ⟨k, hk, rfl⟩ := mem_segBytes.1 hm
    rw [ht i hi k hk]
    rfl
  · rfl

/-- A segment write keeps tile consistency under D7 (R108). -/
theorem fbSegmentSet_tileConsistent {c : Config} {fb : Memory} (h : fb.wf = true) (hs : TilesSeparate c)
    (ht : TileConsistent c fb) {i : Nat} (hi : i < nSeg) (l : Level) : TileConsistent c (fbSegmentSet c i l fb) := by
  intro j hj k hk
  have m1 : segByte c j k ∈ segBytes c j := mem_segBytes.2 ⟨k, hk, rfl⟩
  have m0 : segByte c j 0 ∈ segBytes c j := mem_segBytes.2 ⟨0, by decide, rfl⟩
  rw [read_fbSegmentSet h, read_fbSegmentSet h]
  rcases hs j hj i hi with ⟨h1, -⟩ | h1
  · rw [if_pos (h1 _ m1), if_pos (h1 _ m0)]
  · rw [if_neg (h1 _ m1), if_neg (h1 _ m0)]
    exact ht j hj k hk

/-! ## The selected segments -/

theorem mem_maskSegments {mask : BitVec 32} {i : Nat} : i ∈ maskSegments mask ↔ i < nSeg ∧ mask.getLsbD i = true := by
  simp [maskSegments]

/-- The segments of a list, written in its order. -/
def fbDrawn (c : Config) (l : Level) (is : List Nat) (fb : Memory) : Memory :=
  is.foldl (fun m i => fbSegmentSet c i l m) fb

theorem fbDrawn_cons (c : Config) (l : Level) (i : Nat) (is : List Nat) (fb : Memory) :
    fbDrawn c l (i :: is) fb = fbDrawn c l is (fbSegmentSet c i l fb) := rfl

theorem fbSegmentsDrawn_eq (c : Config) (mask : BitVec 32) (l : Level) (fb : Memory) :
    fbSegmentsDrawn c mask l fb = fbDrawn c l (maskSegments mask) fb := rfl

/-- The body of `FB_DRAWSEGS` leaves `FB` as `fbSegmentsDrawn` says (R107). -/
theorem runOps_drawSegs (mask : BitVec 32) (l : Level) (s : State) :
    runOps (drawSegsOps mask l) s = ({ s with fb := fbSegmentsDrawn s.cfg mask l s.fb } : State).complete .ok := by
  rw [fbSegmentsDrawn_eq, drawSegsOps]
  induction maskSegments mask generalizing s with
  | nil => rfl
  | cons i is ih =>
    rw [List.map_cons, runOps, doOp]
    exact ih (s.setSegment i l)

theorem fbDrawn_wf {c : Config} {l : Level} {is : List Nat} {fb : Memory} (h : fb.wf = true) :
    (fbDrawn c l is fb).wf = true := by
  induction is generalizing fb with
  | nil => exact h
  | cons i is ih => exact ih (fbSegmentSet_wf h i l)

theorem fbDrawn_tileConsistent {c : Config} {l : Level} {is : List Nat} {fb : Memory} (h : fb.wf = true)
    (hs : TilesSeparate c) (ht : TileConsistent c fb) (hi : ∀ i ∈ is, i < nSeg) :
    TileConsistent c (fbDrawn c l is fb) := by
  induction is generalizing fb with
  | nil => exact ht
  | cons i is ih =>
    exact ih (fbSegmentSet_wf h i l) (fbSegmentSet_tileConsistent h hs ht (hi i (by simp)) l)
      fun j hj => hi j (by simp [hj])

/-- R109 (4), the frame of R107 for whole bytes: a byte of no selected segment is kept. -/
theorem fbSegmentsDrawn_other {c : Config} {mask : BitVec 32} {l : Level} {fb : Memory} {a : Nat} (h : fb.wf = true)
    (ha : ∀ i < nSeg, mask.getLsbD i = true → a ∉ segBytes c i) : (fbSegmentsDrawn c mask l fb).read a = fb.read a := by
  rw [fbSegmentsDrawn_eq]
  replace ha : ∀ i ∈ maskSegments mask, a ∉ segBytes c i := fun i hi =>
    ha i (mem_maskSegments.1 hi).1 (mem_maskSegments.1 hi).2
  generalize maskSegments mask = is at ha ⊢
  induction is generalizing fb with
  | nil => rfl
  | cons i is ih =>
    rw [fbDrawn_cons, ih (fbSegmentSet_wf h i l) fun j hj => ha j (by simp [hj]), read_fbSegmentSet h,
      if_neg (ha i (by simp))]

/-- R109 (4), the frame of R107 for pixels, from a tile-consistent FrameBuffer under D7: a sub-field of a byte takes the
level if a selected segment has it, and is kept if none has. -/
theorem fbSegmentsDrawn_pixel {c : Config} {mask : BitVec 32} {l : Level} {fb : Memory} {a q : Nat} (h : fb.wf = true)
    (hs : TilesSeparate c) (ht : TileConsistent c fb) (hq : q < 4) :
    ((∃ i, i < nSeg ∧ mask.getLsbD i = true ∧ a ∈ segBytes c i ∧ segSub c i = q) →
      getField c.subfieldMsbFirst ((fbSegmentsDrawn c mask l fb).read a) q = l.code) ∧
    ((∀ i, i < nSeg → mask.getLsbD i = true → a ∈ segBytes c i → segSub c i ≠ q) →
      getField c.subfieldMsbFirst ((fbSegmentsDrawn c mask l fb).read a) q
        = getField c.subfieldMsbFirst (fb.read a) q) := by
  have key : ∀ (is : List Nat) (fb : Memory), fb.wf = true → TileConsistent c fb → (∀ i ∈ is, i < nSeg) →
      ((∃ i ∈ is, a ∈ segBytes c i ∧ segSub c i = q) →
        getField c.subfieldMsbFirst ((fbDrawn c l is fb).read a) q = l.code) ∧
      ((∀ i ∈ is, a ∈ segBytes c i → segSub c i ≠ q) →
        getField c.subfieldMsbFirst ((fbDrawn c l is fb).read a) q = getField c.subfieldMsbFirst (fb.read a) q) := by
    intro is
    induction is with
    | nil => exact fun fb _ _ _ => ⟨by simp, fun _ => rfl⟩
    | cons i is ih =>
      intro fb h ht hi
      have hseg := hi i (by simp)
      have hstep := read_fbSegmentSet_of_tileConsistent h ht hseg l a
      obtain ⟨ih₁, ih₂⟩ := ih _ (fbSegmentSet_wf h i l) (fbSegmentSet_tileConsistent h hs ht hseg l)
        fun j hj => hi j (by simp [hj])
      rw [fbDrawn_cons]
      constructor
      · rintro ⟨j, hj, hm, hsub⟩
        by_cases hlater : ∃ i ∈ is, a ∈ segBytes c i ∧ segSub c i = q
        · exact ih₁ hlater
        · have hno : ∀ i ∈ is, a ∈ segBytes c i → segSub c i ≠ q := fun i hi hm e => hlater ⟨i, hi, hm, e⟩
          have hji : j = i := (List.mem_cons.1 hj).resolve_right fun e => hno j e hm hsub
          subst hji
          rw [ih₂ hno, hstep, if_pos hm, ← hsub]
          exact getField_setField_same _ _ _ (segSub_lt c j)
      · intro hno
        rw [ih₂ fun j hj => hno j (by simp [hj]), hstep]
        split
        · next hm => exact getField_setField_other _ _ _ (segSub_lt c i) hq (Ne.symm (hno i (by simp) hm))
        · rfl
  obtain ⟨h₁, h₂⟩ := key (maskSegments mask) fb h ht fun i hi => (mem_maskSegments.1 hi).1
  exact ⟨fun ⟨i, hi, hb, hm⟩ => h₁ ⟨i, mem_maskSegments.2 ⟨hi, hb⟩, hm⟩,
    fun hno => h₂ fun i hi => hno i (mem_maskSegments.1 hi).1 (mem_maskSegments.1 hi).2⟩

/-! ## The size

R109 (6): `FB_SIZE` is a field of the configuration, which no operation writes (`State.clearFb_cfg`,
`State.invertFb_cfg`, `State.setSegment_cfg`), and no address of it or above ever gets an entry. -/

theorem fbCleared_inRange (c : Config) (l : Level) : ∀ x ∈ fbCleared c l, x.1 < c.fbSize := Memory.tabulate_inRange _ _

theorem fbInverted_inRange (c : Config) (fb : Memory) : ∀ x ∈ fbInverted c fb, x.1 < c.fbSize :=
  Memory.tabulate_inRange _ _

/-- An admitted configuration's segments lie in the FrameBuffer (D7). -/
theorem fbSegmentSet_inRange {c : Config} {fb : Memory} {i : Nat} (h : ∀ x ∈ fb, x.1 < c.fbSize)
    (hi : ∀ a ∈ segBytes c i, a < c.fbSize) (l : Level) : ∀ x ∈ fbSegmentSet c i l fb, x.1 < c.fbSize :=
  Memory.writeAll_inRange h hi _

theorem fbSegmentsDrawn_inRange {c : Config} {fb : Memory} (h : ∀ x ∈ fb, x.1 < c.fbSize)
    (hi : ∀ i < nSeg, ∀ a ∈ segBytes c i, a < c.fbSize) (mask : BitVec 32) (l : Level) :
    ∀ x ∈ fbSegmentsDrawn c mask l fb, x.1 < c.fbSize := by
  rw [fbSegmentsDrawn_eq]
  have his : ∀ i ∈ maskSegments mask, i < nSeg := fun i hi => (mem_maskSegments.1 hi).1
  generalize maskSegments mask = is at his ⊢
  induction is generalizing fb with
  | nil => exact h
  | cons i is ih =>
    exact ih (fbSegmentSet_inRange h (hi i (his i (by simp))) l) fun j hj => his j (by simp [hj])

end Sys2Proof.Machine
end

