-- ==== Sys2Proof/Laws/State.lean ====
section
/-! SUPPORT. Sys2Proof/Laws/State.lean: one lemma per field per update of State, each true by rfl, so that no proof
unfolds a record update. -/

namespace Sys2Proof.Machine

section clearFb
@[simp] theorem State.clearFb_cfg (level : Level) (s : State) : (s.clearFb level).cfg = s.cfg := rfl
@[simp] theorem State.clearFb_fb (level : Level) (s : State) : (s.clearFb level).fb = fbCleared s.cfg level := rfl
@[simp] theorem State.clearFb_ps (level : Level) (s : State) : (s.clearFb level).ps = s.ps := rfl
@[simp] theorem State.clearFb_configured (level : Level) (s : State) : (s.clearFb level).configured = s.configured := rfl
@[simp] theorem State.clearFb_seq (level : Level) (s : State) : (s.clearFb level).seq = s.seq := rfl
@[simp] theorem State.clearFb_result (level : Level) (s : State) : (s.clearFb level).result = s.result := rfl
@[simp] theorem State.clearFb_cs (level : Level) (s : State) : (s.clearFb level).cs = s.cs := rfl
@[simp] theorem State.clearFb_rst (level : Level) (s : State) : (s.clearFb level).rst = s.rst := rfl
@[simp] theorem State.clearFb_dev (level : Level) (s : State) : (s.clearFb level).dev = s.dev := rfl
@[simp] theorem State.clearFb_trace (level : Level) (s : State) : (s.clearFb level).trace = s.trace := rfl
@[simp] theorem State.clearFb_returned (level : Level) (s : State) : (s.clearFb level).returned = s.returned := rfl
@[simp] theorem State.clearFb_env (level : Level) (s : State) : (s.clearFb level).env = s.env := rfl
@[simp] theorem State.clearFb_hostIn (level : Level) (s : State) : (s.clearFb level).hostIn = s.hostIn := rfl
@[simp] theorem State.clearFb_frameIn (level : Level) (s : State) : (s.clearFb level).frameIn = s.frameIn := rfl
end clearFb

section invertFb
@[simp] theorem State.invertFb_cfg (s : State) : (s.invertFb).cfg = s.cfg := rfl
@[simp] theorem State.invertFb_fb (s : State) : (s.invertFb).fb = fbInverted s.cfg s.fb := rfl
@[simp] theorem State.invertFb_ps (s : State) : (s.invertFb).ps = s.ps := rfl
@[simp] theorem State.invertFb_configured (s : State) : (s.invertFb).configured = s.configured := rfl
@[simp] theorem State.invertFb_seq (s : State) : (s.invertFb).seq = s.seq := rfl
@[simp] theorem State.invertFb_result (s : State) : (s.invertFb).result = s.result := rfl
@[simp] theorem State.invertFb_cs (s : State) : (s.invertFb).cs = s.cs := rfl
@[simp] theorem State.invertFb_rst (s : State) : (s.invertFb).rst = s.rst := rfl
@[simp] theorem State.invertFb_dev (s : State) : (s.invertFb).dev = s.dev := rfl
@[simp] theorem State.invertFb_trace (s : State) : (s.invertFb).trace = s.trace := rfl
@[simp] theorem State.invertFb_returned (s : State) : (s.invertFb).returned = s.returned := rfl
@[simp] theorem State.invertFb_env (s : State) : (s.invertFb).env = s.env := rfl
@[simp] theorem State.invertFb_hostIn (s : State) : (s.invertFb).hostIn = s.hostIn := rfl
@[simp] theorem State.invertFb_frameIn (s : State) : (s.invertFb).frameIn = s.frameIn := rfl
end invertFb

section setSegment
@[simp] theorem State.setSegment_cfg (index : Nat) (level : Level) (s : State) : (s.setSegment index level).cfg = s.cfg := rfl
@[simp] theorem State.setSegment_fb (index : Nat) (level : Level) (s : State) : (s.setSegment index level).fb = fbSegmentSet s.cfg index level s.fb := rfl
@[simp] theorem State.setSegment_ps (index : Nat) (level : Level) (s : State) : (s.setSegment index level).ps = s.ps := rfl
@[simp] theorem State.setSegment_configured (index : Nat) (level : Level) (s : State) : (s.setSegment index level).configured = s.configured := rfl
@[simp] theorem State.setSegment_seq (index : Nat) (level : Level) (s : State) : (s.setSegment index level).seq = s.seq := rfl
@[simp] theorem State.setSegment_result (index : Nat) (level : Level) (s : State) : (s.setSegment index level).result = s.result := rfl
@[simp] theorem State.setSegment_cs (index : Nat) (level : Level) (s : State) : (s.setSegment index level).cs = s.cs := rfl
@[simp] theorem State.setSegment_rst (index : Nat) (level : Level) (s : State) : (s.setSegment index level).rst = s.rst := rfl
@[simp] theorem State.setSegment_dev (index : Nat) (level : Level) (s : State) : (s.setSegment index level).dev = s.dev := rfl
@[simp] theorem State.setSegment_trace (index : Nat) (level : Level) (s : State) : (s.setSegment index level).trace = s.trace := rfl
@[simp] theorem State.setSegment_returned (index : Nat) (level : Level) (s : State) : (s.setSegment index level).returned = s.returned := rfl
@[simp] theorem State.setSegment_env (index : Nat) (level : Level) (s : State) : (s.setSegment index level).env = s.env := rfl
@[simp] theorem State.setSegment_hostIn (index : Nat) (level : Level) (s : State) : (s.setSegment index level).hostIn = s.hostIn := rfl
@[simp] theorem State.setSegment_frameIn (index : Nat) (level : Level) (s : State) : (s.setSegment index level).frameIn = s.frameIn := rfl
end setSegment

section emit
@[simp] theorem State.emit_cfg (e : Event) (s : State) : (s.emit e).cfg = s.cfg := rfl
@[simp] theorem State.emit_fb (e : Event) (s : State) : (s.emit e).fb = s.fb := rfl
@[simp] theorem State.emit_ps (e : Event) (s : State) : (s.emit e).ps = s.ps := rfl
@[simp] theorem State.emit_configured (e : Event) (s : State) : (s.emit e).configured = s.configured := rfl
@[simp] theorem State.emit_seq (e : Event) (s : State) : (s.emit e).seq = s.seq.tick := rfl
@[simp] theorem State.emit_result (e : Event) (s : State) : (s.emit e).result = s.result := rfl
@[simp] theorem State.emit_cs (e : Event) (s : State) : (s.emit e).cs = s.cs := rfl
@[simp] theorem State.emit_rst (e : Event) (s : State) : (s.emit e).rst = s.rst := rfl
@[simp] theorem State.emit_dev (e : Event) (s : State) : (s.emit e).dev = s.dev := rfl
@[simp] theorem State.emit_trace (e : Event) (s : State) : (s.emit e).trace = s.trace ++ [e] := rfl
@[simp] theorem State.emit_returned (e : Event) (s : State) : (s.emit e).returned = s.returned := rfl
@[simp] theorem State.emit_env (e : Event) (s : State) : (s.emit e).env = s.env := rfl
@[simp] theorem State.emit_hostIn (e : Event) (s : State) : (s.emit e).hostIn = s.hostIn := rfl
@[simp] theorem State.emit_frameIn (e : Event) (s : State) : (s.emit e).frameIn = s.frameIn := rfl
end emit

section setCS
@[simp] theorem State.setCS_cfg (l : Line) (s : State) : (s.setCS l).cfg = s.cfg := rfl
@[simp] theorem State.setCS_fb (l : Line) (s : State) : (s.setCS l).fb = s.fb := rfl
@[simp] theorem State.setCS_ps (l : Line) (s : State) : (s.setCS l).ps = s.ps := rfl
@[simp] theorem State.setCS_configured (l : Line) (s : State) : (s.setCS l).configured = s.configured := rfl
@[simp] theorem State.setCS_seq (l : Line) (s : State) : (s.setCS l).seq = s.seq.tick := rfl
@[simp] theorem State.setCS_result (l : Line) (s : State) : (s.setCS l).result = s.result := rfl
@[simp] theorem State.setCS_cs (l : Line) (s : State) : (s.setCS l).cs = l := rfl
@[simp] theorem State.setCS_rst (l : Line) (s : State) : (s.setCS l).rst = s.rst := rfl
@[simp] theorem State.setCS_dev (l : Line) (s : State) : (s.setCS l).dev = s.dev := rfl
@[simp] theorem State.setCS_trace (l : Line) (s : State) : (s.setCS l).trace = s.trace ++ [.cs l] := rfl
@[simp] theorem State.setCS_returned (l : Line) (s : State) : (s.setCS l).returned = s.returned := rfl
@[simp] theorem State.setCS_env (l : Line) (s : State) : (s.setCS l).env = s.env := rfl
@[simp] theorem State.setCS_hostIn (l : Line) (s : State) : (s.setCS l).hostIn = s.hostIn := rfl
@[simp] theorem State.setCS_frameIn (l : Line) (s : State) : (s.setCS l).frameIn = s.frameIn := rfl
end setCS

section setRST
@[simp] theorem State.setRST_cfg (l : Line) (s : State) : (s.setRST l).cfg = s.cfg := rfl
@[simp] theorem State.setRST_fb (l : Line) (s : State) : (s.setRST l).fb = s.fb := rfl
@[simp] theorem State.setRST_ps (l : Line) (s : State) : (s.setRST l).ps = s.ps := rfl
@[simp] theorem State.setRST_configured (l : Line) (s : State) : (s.setRST l).configured = s.configured := rfl
@[simp] theorem State.setRST_seq (l : Line) (s : State) : (s.setRST l).seq = s.seq.tick := rfl
@[simp] theorem State.setRST_result (l : Line) (s : State) : (s.setRST l).result = s.result := rfl
@[simp] theorem State.setRST_cs (l : Line) (s : State) : (s.setRST l).cs = s.cs := rfl
@[simp] theorem State.setRST_rst (l : Line) (s : State) : (s.setRST l).rst = l := rfl
@[simp] theorem State.setRST_dev (l : Line) (s : State) : (s.setRST l).dev = Device.see s.cfg s.dev (.rst l) := rfl
@[simp] theorem State.setRST_trace (l : Line) (s : State) : (s.setRST l).trace = s.trace ++ [.rst l] := rfl
@[simp] theorem State.setRST_returned (l : Line) (s : State) : (s.setRST l).returned = s.returned := rfl
@[simp] theorem State.setRST_env (l : Line) (s : State) : (s.setRST l).env = s.env := rfl
@[simp] theorem State.setRST_hostIn (l : Line) (s : State) : (s.setRST l).hostIn = s.hostIn := rfl
@[simp] theorem State.setRST_frameIn (l : Line) (s : State) : (s.setRST l).frameIn = s.frameIn := rfl
end setRST

section delayMs
@[simp] theorem State.delayMs_cfg (n : Nat) (s : State) : (s.delayMs n).cfg = s.cfg := rfl
@[simp] theorem State.delayMs_fb (n : Nat) (s : State) : (s.delayMs n).fb = s.fb := rfl
@[simp] theorem State.delayMs_ps (n : Nat) (s : State) : (s.delayMs n).ps = s.ps := rfl
@[simp] theorem State.delayMs_configured (n : Nat) (s : State) : (s.delayMs n).configured = s.configured := rfl
@[simp] theorem State.delayMs_seq (n : Nat) (s : State) : (s.delayMs n).seq = s.seq.tick := rfl
@[simp] theorem State.delayMs_result (n : Nat) (s : State) : (s.delayMs n).result = s.result := rfl
@[simp] theorem State.delayMs_cs (n : Nat) (s : State) : (s.delayMs n).cs = s.cs := rfl
@[simp] theorem State.delayMs_rst (n : Nat) (s : State) : (s.delayMs n).rst = s.rst := rfl
@[simp] theorem State.delayMs_dev (n : Nat) (s : State) : (s.delayMs n).dev = s.dev := rfl
@[simp] theorem State.delayMs_trace (n : Nat) (s : State) : (s.delayMs n).trace = s.trace ++ [.delay n] := rfl
@[simp] theorem State.delayMs_returned (n : Nat) (s : State) : (s.delayMs n).returned = s.returned := rfl
@[simp] theorem State.delayMs_env (n : Nat) (s : State) : (s.delayMs n).env = s.env := rfl
@[simp] theorem State.delayMs_hostIn (n : Nat) (s : State) : (s.delayMs n).hostIn = s.hostIn := rfl
@[simp] theorem State.delayMs_frameIn (n : Nat) (s : State) : (s.delayMs n).frameIn = s.frameIn := rfl
end delayMs

section sampled
@[simp] theorem State.sampled_cfg (b : Bool) (rest : List Bool) (s : State) : (s.sampled b rest).cfg = s.cfg := rfl
@[simp] theorem State.sampled_fb (b : Bool) (rest : List Bool) (s : State) : (s.sampled b rest).fb = s.fb := rfl
@[simp] theorem State.sampled_ps (b : Bool) (rest : List Bool) (s : State) : (s.sampled b rest).ps = s.ps := rfl
@[simp] theorem State.sampled_configured (b : Bool) (rest : List Bool) (s : State) : (s.sampled b rest).configured = s.configured := rfl
@[simp] theorem State.sampled_seq (b : Bool) (rest : List Bool) (s : State) : (s.sampled b rest).seq = s.seq.tick := rfl
@[simp] theorem State.sampled_result (b : Bool) (rest : List Bool) (s : State) : (s.sampled b rest).result = s.result := rfl
@[simp] theorem State.sampled_cs (b : Bool) (rest : List Bool) (s : State) : (s.sampled b rest).cs = s.cs := rfl
@[simp] theorem State.sampled_rst (b : Bool) (rest : List Bool) (s : State) : (s.sampled b rest).rst = s.rst := rfl
@[simp] theorem State.sampled_dev (b : Bool) (rest : List Bool) (s : State) : (s.sampled b rest).dev = s.dev := rfl
@[simp] theorem State.sampled_trace (b : Bool) (rest : List Bool) (s : State) : (s.sampled b rest).trace = s.trace ++ [.busy b] := rfl
@[simp] theorem State.sampled_returned (b : Bool) (rest : List Bool) (s : State) : (s.sampled b rest).returned = s.returned := rfl
@[simp] theorem State.sampled_env (b : Bool) (rest : List Bool) (s : State) : (s.sampled b rest).env = { s.env with busy := rest } := rfl
@[simp] theorem State.sampled_hostIn (b : Bool) (rest : List Bool) (s : State) : (s.sampled b rest).hostIn = s.hostIn := rfl
@[simp] theorem State.sampled_frameIn (b : Bool) (rest : List Bool) (s : State) : (s.sampled b rest).frameIn = s.frameIn := rfl
end sampled

section complete
@[simp] theorem State.complete_cfg (r : Result) (s : State) : (s.complete r).cfg = s.cfg := rfl
@[simp] theorem State.complete_fb (r : Result) (s : State) : (s.complete r).fb = s.fb := rfl
@[simp] theorem State.complete_ps (r : Result) (s : State) : (s.complete r).ps = s.ps := rfl
@[simp] theorem State.complete_configured (r : Result) (s : State) : (s.complete r).configured = s.configured := rfl
@[simp] theorem State.complete_seq (r : Result) (s : State) : (s.complete r).seq = .idle := rfl
@[simp] theorem State.complete_result (r : Result) (s : State) : (s.complete r).result = r := rfl
@[simp] theorem State.complete_cs (r : Result) (s : State) : (s.complete r).cs = s.cs := rfl
@[simp] theorem State.complete_rst (r : Result) (s : State) : (s.complete r).rst = s.rst := rfl
@[simp] theorem State.complete_dev (r : Result) (s : State) : (s.complete r).dev = s.dev := rfl
@[simp] theorem State.complete_trace (r : Result) (s : State) : (s.complete r).trace = s.trace := rfl
@[simp] theorem State.complete_returned (r : Result) (s : State) : (s.complete r).returned = s.returned ++ [r] := rfl
@[simp] theorem State.complete_env (r : Result) (s : State) : (s.complete r).env = s.env := rfl
@[simp] theorem State.complete_hostIn (r : Result) (s : State) : (s.complete r).hostIn = s.hostIn := rfl
@[simp] theorem State.complete_frameIn (r : Result) (s : State) : (s.complete r).frameIn = s.frameIn := rfl
end complete

section fail
@[simp] theorem State.fail_cfg (cause : Result) (s : State) : (s.fail cause).cfg = s.cfg := rfl
@[simp] theorem State.fail_fb (cause : Result) (s : State) : (s.fail cause).fb = s.fb := rfl
@[simp] theorem State.fail_ps (cause : Result) (s : State) : (s.fail cause).ps = s.ps := rfl
@[simp] theorem State.fail_configured (cause : Result) (s : State) : (s.fail cause).configured = s.configured := rfl
@[simp] theorem State.fail_seq (cause : Result) (s : State) : (s.fail cause).seq = .idle := rfl
@[simp] theorem State.fail_result (cause : Result) (s : State) : (s.fail cause).result = cause := rfl
@[simp] theorem State.fail_cs (cause : Result) (s : State) : (s.fail cause).cs = s.cs := rfl
@[simp] theorem State.fail_rst (cause : Result) (s : State) : (s.fail cause).rst = s.rst := rfl
@[simp] theorem State.fail_dev (cause : Result) (s : State) : (s.fail cause).dev = s.dev := rfl
@[simp] theorem State.fail_trace (cause : Result) (s : State) : (s.fail cause).trace = s.trace := rfl
@[simp] theorem State.fail_returned (cause : Result) (s : State) : (s.fail cause).returned = s.returned ++ [cause] := rfl
@[simp] theorem State.fail_env (cause : Result) (s : State) : (s.fail cause).env = s.env := rfl
@[simp] theorem State.fail_hostIn (cause : Result) (s : State) : (s.fail cause).hostIn = s.hostIn := rfl
@[simp] theorem State.fail_frameIn (cause : Result) (s : State) : (s.fail cause).frameIn = s.frameIn := rfl
end fail

section nextBusy
@[simp] theorem State.nextBusy_cfg (s : State) : (s.nextBusy).cfg = s.cfg := rfl
@[simp] theorem State.nextBusy_fb (s : State) : (s.nextBusy).fb = s.fb := rfl
@[simp] theorem State.nextBusy_ps (s : State) : (s.nextBusy).ps = s.ps := rfl
@[simp] theorem State.nextBusy_configured (s : State) : (s.nextBusy).configured = s.configured := rfl
@[simp] theorem State.nextBusy_seq (s : State) : (s.nextBusy).seq = s.seq := rfl
@[simp] theorem State.nextBusy_result (s : State) : (s.nextBusy).result = s.result := rfl
@[simp] theorem State.nextBusy_cs (s : State) : (s.nextBusy).cs = s.cs := rfl
@[simp] theorem State.nextBusy_rst (s : State) : (s.nextBusy).rst = s.rst := rfl
@[simp] theorem State.nextBusy_dev (s : State) : (s.nextBusy).dev = s.dev := rfl
@[simp] theorem State.nextBusy_trace (s : State) : (s.nextBusy).trace = s.trace := rfl
@[simp] theorem State.nextBusy_returned (s : State) : (s.nextBusy).returned = s.returned := rfl
@[simp] theorem State.nextBusy_env (s : State) : (s.nextBusy).env = { s.env with busy := [Config.busyAnswer s.env.busyCount], busyCount := s.env.busyCount + 1 } := rfl
@[simp] theorem State.nextBusy_hostIn (s : State) : (s.nextBusy).hostIn = s.hostIn := rfl
@[simp] theorem State.nextBusy_frameIn (s : State) : (s.nextBusy).frameIn = s.frameIn := rfl
end nextBusy

section xfer
@[simp] theorem State.xfer_answer (t : Byte) (s : State) : (s.xfer t).1 = s.env.answer.1 := rfl
@[simp] theorem State.xfer_cfg (t : Byte) (s : State) : (s.xfer t).2.cfg = s.cfg := rfl
@[simp] theorem State.xfer_fb (t : Byte) (s : State) : (s.xfer t).2.fb = s.fb := rfl
@[simp] theorem State.xfer_ps (t : Byte) (s : State) : (s.xfer t).2.ps = s.ps := rfl
@[simp] theorem State.xfer_configured (t : Byte) (s : State) : (s.xfer t).2.configured = s.configured := rfl
@[simp] theorem State.xfer_seq (t : Byte) (s : State) : (s.xfer t).2.seq = s.seq.tick := rfl
@[simp] theorem State.xfer_result (t : Byte) (s : State) : (s.xfer t).2.result = s.result := rfl
@[simp] theorem State.xfer_cs (t : Byte) (s : State) : (s.xfer t).2.cs = s.cs := rfl
@[simp] theorem State.xfer_rst (t : Byte) (s : State) : (s.xfer t).2.rst = s.rst := rfl
@[simp] theorem State.xfer_dev (t : Byte) (s : State) : (s.xfer t).2.dev = s.dev := rfl
@[simp] theorem State.xfer_trace (t : Byte) (s : State) : (s.xfer t).2.trace = s.trace ++ [.xfer t s.env.answer.1] := rfl
@[simp] theorem State.xfer_returned (t : Byte) (s : State) : (s.xfer t).2.returned = s.returned := rfl
@[simp] theorem State.xfer_env (t : Byte) (s : State) : (s.xfer t).2.env = s.env.answer.2 := rfl
@[simp] theorem State.xfer_hostIn (t : Byte) (s : State) : (s.xfer t).2.hostIn = s.hostIn := rfl
@[simp] theorem State.xfer_frameIn (t : Byte) (s : State) : (s.xfer t).2.frameIn = s.frameIn := rfl
end xfer

section seq
@[simp] theorem Seq.tick_idle : Seq.tick .idle = .idle := rfl
@[simp] theorem Seq.tick_running (c : Instr) (k : Nat) (todo : List Op) :
    Seq.tick (.running c k todo) = .running c (k + 1) todo := rfl
@[simp] theorem Seq.withTodo_idle (todo : List Op) : Seq.withTodo todo .idle = .idle := rfl
@[simp] theorem Seq.withTodo_running (c : Instr) (k : Nat) (todo old : List Op) :
    Seq.withTodo todo (.running c k old) = .running c k todo := rfl
end seq

end Sys2Proof.Machine
end

