-- ==== Sys2Proof/Laws/Ops.lean ====
section
/-! SUPPORT. Sys2Proof/Laws/Ops.lean: for each shared operation one lemma that says once everything it can do:
the exchange of bytes, the frame, the busy wait, the ready poll, and the acceptance of a command. -/

namespace Sys2Proof.Machine

/-! ## Several primitive calls -/

/-- `n` primitive calls. -/
def Seq.ticks (n : Nat) : Seq → Seq
  | .idle => .idle
  | .running c k todo => .running c (k + n) todo

@[simp] theorem Seq.ticks_idle (n : Nat) : Seq.ticks n .idle = .idle := rfl

@[simp] theorem Seq.ticks_running (n : Nat) (c : Instr) (k : Nat) (todo : List Op) :
    Seq.ticks n (.running c k todo) = .running c (k + n) todo := rfl

theorem Seq.tick_eq (q : Seq) : q.tick = q.ticks 1 := by cases q <;> rfl

@[simp] theorem Seq.ticks_ticks (m n : Nat) (q : Seq) : (q.ticks m).ticks n = q.ticks (m + n) := by
  cases q <;> simp [Nat.add_assoc]

@[simp] theorem Seq.ticks_zero (q : Seq) : q.ticks 0 = q := by cases q <;> rfl

/-- A state whose trace grew by `es`, with one primitive call an event. -/
def State.grown (es : List Event) (s : State) : State :=
  { s with trace := s.trace ++ es, seq := s.seq.ticks es.length }

/-! ## The environment's answers -/

/-- The next `n` answers. -/
def Env.answers : Nat → Env → List Byte × Env
  | 0, e => ([], e)
  | n + 1, e => (e.answer.1 :: (Env.answers n e.answer.2).1, (Env.answers n e.answer.2).2)

@[simp] theorem Env.answer_busy (e : Env) : e.answer.2.busy = e.busy := by
  unfold Env.answer; split <;> rfl

@[simp] theorem Env.answer_busyCount (e : Env) : e.answer.2.busyCount = e.busyCount := by
  unfold Env.answer; split <;> rfl

@[simp] theorem Env.answer_xfer (e : Env) : e.answer.2.xfer = e.xfer.drop 1 := by
  unfold Env.answer
  split <;> simp_all

/-- Answering uses up the queue as far as it goes. -/
@[simp] theorem Env.answers_xfer (n : Nat) (e : Env) : (e.answers n).2.xfer = e.xfer.drop n := by
  induction n generalizing e with
  | zero => rfl
  | succ n ih => simp [Env.answers, ih]

/-- An answer the queue covers is the queue's. -/
theorem Env.answers_getElem? {n i : Nat} {e : Env} {r : Byte} (h : e.xfer[i]? = some r) (hi : i < n) :
    (e.answers n).1[i]? = some r := by
  induction n generalizing e i with
  | zero => omega
  | succ n ih =>
    cases i with
    | zero =>
      obtain ⟨x, b, c, d⟩ := e
      cases x with
      | nil => simp at h
      | cons a rest => simpa [Env.answers, Env.answer] using h
    | succ i =>
      simp only [Env.answers, List.getElem?_cons_succ]
      exact ih (by simpa [Nat.add_comm] using h) (by omega)

@[simp] theorem Env.length_answers (n : Nat) (e : Env) : (e.answers n).1.length = n := by
  induction n generalizing e with
  | zero => rfl
  | succ n ih => simp [Env.answers, ih]

@[simp] theorem Env.answers_busy (n : Nat) (e : Env) : (e.answers n).2.busy = e.busy := by
  induction n generalizing e with
  | zero => rfl
  | succ n ih => simp [Env.answers, ih]

@[simp] theorem Env.answers_busyCount (n : Nat) (e : Env) : (e.answers n).2.busyCount = e.busyCount := by
  induction n generalizing e with
  | zero => rfl
  | succ n ih => simp [Env.answers, ih]

/-- While the queue lasts, the answers are the queue's. -/
theorem Env.answers_of_le {n : Nat} {e : Env} (h : n ≤ e.xfer.length) :
    e.answers n = (e.xfer.take n, { e with xfer := e.xfer.drop n }) := by
  induction n generalizing e with
  | zero => simp [Env.answers]
  | succ n ih =>
    obtain ⟨x, b, c, d⟩ := e
    cases x with
    | nil => simp at h
    | cons r rest =>
      have := ih (e := ⟨rest, b, c, d⟩) (by simpa using h)
      simp [Env.answers, Env.answer, this]

/-! ## Frames -/

theorem length_frameEvents {bytes rs : List Byte} (h : rs.length = bytes.length) :
    (frameEvents bytes rs).length = bytes.length + 2 := by
  simp [frameEvents, h]

/-- Exchanging bytes: the answers, and a state that differs in its trace, position and environment. -/
theorem State.xferAll_eq (bytes : List Byte) (s : State) :
    s.xferAll bytes = ((s.env.answers bytes.length).1,
      { s.grown (List.zipWith Event.xfer bytes (s.env.answers bytes.length).1) with
        env := (s.env.answers bytes.length).2 }) := by
  induction bytes generalizing s with
  | nil => simp [State.xferAll, Env.answers, State.grown]
  | cons t ts ih =>
    simp only [State.xferAll, ih, State.xfer_answer, State.xfer_env, List.length_cons, Env.answers]
    refine Prod.ext rfl ?_
    simp only [State.grown, State.xfer, State.emit, List.zipWith_cons_cons, List.length_cons,
      List.length_zipWith, Env.length_answers, Nat.min_self, Seq.tick_eq, Seq.ticks_ticks,
      List.append_assoc, List.cons_append, List.nil_append, Nat.add_comm 1]

/-- Everything a frame does (R75). -/
theorem State.sendFrame_eq (bytes : List Byte) (s : State) :
    s.sendFrame bytes = ((s.env.answers bytes.length).1,
      { s.grown (frameEvents bytes (s.env.answers bytes.length).1) with
        cs := .high
        env := (s.env.answers bytes.length).2
        dev := Device.see s.cfg s.dev
          (coarseFrame (bytes.zip (s.env.answers bytes.length).1)) }) := by
  simp only [State.sendFrame, State.xferAll_eq, State.setCS_env]
  refine Prod.ext rfl ?_
  simp only [State.grown, State.setCS, State.emit, frameEvents, List.length_cons, List.length_append,
    List.length_nil, Seq.tick_eq, Seq.ticks_ticks, List.append_assoc, List.cons_append, List.nil_append]
  congr 2
  omega

@[simp] theorem State.sendFrame_answers (bytes : List Byte) (s : State) :
    (s.sendFrame bytes).1 = (s.env.answers bytes.length).1 := by rw [State.sendFrame_eq]
@[simp] theorem State.sendFrame_cfg (bytes : List Byte) (s : State) : (s.sendFrame bytes).2.cfg = s.cfg := by
  rw [State.sendFrame_eq]; rfl
@[simp] theorem State.sendFrame_fb (bytes : List Byte) (s : State) : (s.sendFrame bytes).2.fb = s.fb := by
  rw [State.sendFrame_eq]; rfl
@[simp] theorem State.sendFrame_ps (bytes : List Byte) (s : State) : (s.sendFrame bytes).2.ps = s.ps := by
  rw [State.sendFrame_eq]; rfl
@[simp] theorem State.sendFrame_configured (bytes : List Byte) (s : State) :
    (s.sendFrame bytes).2.configured = s.configured := by rw [State.sendFrame_eq]; rfl
@[simp] theorem State.sendFrame_seq (bytes : List Byte) (s : State) :
    (s.sendFrame bytes).2.seq = s.seq.ticks (bytes.length + 2) := by
  rw [State.sendFrame_eq]
  simp [State.grown, length_frameEvents]
@[simp] theorem State.sendFrame_result (bytes : List Byte) (s : State) :
    (s.sendFrame bytes).2.result = s.result := by rw [State.sendFrame_eq]; rfl
@[simp] theorem State.sendFrame_cs (bytes : List Byte) (s : State) : (s.sendFrame bytes).2.cs = .high := by
  rw [State.sendFrame_eq]
@[simp] theorem State.sendFrame_rst (bytes : List Byte) (s : State) : (s.sendFrame bytes).2.rst = s.rst := by
  rw [State.sendFrame_eq]; rfl
@[simp] theorem State.sendFrame_dev (bytes : List Byte) (s : State) :
    (s.sendFrame bytes).2.dev = Device.see s.cfg s.dev
      (coarseFrame (bytes.zip (s.env.answers bytes.length).1)) := by
  rw [State.sendFrame_eq]
@[simp] theorem State.sendFrame_trace (bytes : List Byte) (s : State) :
    (s.sendFrame bytes).2.trace = s.trace ++ frameEvents bytes (s.env.answers bytes.length).1 := by
  rw [State.sendFrame_eq]; rfl
@[simp] theorem State.sendFrame_returned (bytes : List Byte) (s : State) :
    (s.sendFrame bytes).2.returned = s.returned := by rw [State.sendFrame_eq]; rfl
@[simp] theorem State.sendFrame_env (bytes : List Byte) (s : State) :
    (s.sendFrame bytes).2.env = (s.env.answers bytes.length).2 := by rw [State.sendFrame_eq]
@[simp] theorem State.sendFrame_hostIn (bytes : List Byte) (s : State) :
    (s.sendFrame bytes).2.hostIn = s.hostIn := by rw [State.sendFrame_eq]; rfl
@[simp] theorem State.sendFrame_frameIn (bytes : List Byte) (s : State) :
    (s.sendFrame bytes).2.frameIn = s.frameIn := by rw [State.sendFrame_eq]; rfl

/-! ## The busy wait -/

/-- The state after busy samples `bs` were taken and `rest` is still queued. -/
def State.afterBusy (bs rest : List Bool) (s : State) : State :=
  { s.grown (bs.map Event.busy) with env := { s.env with busy := rest } }

/-- The bound is not reached by the samples after `polls` and up to `polls + j`. -/
def underBound (bound : Option Nat) (polls j : Nat) : Prop :=
  ∀ i, polls < i → i ≤ polls + j → boundReached bound i = false

theorem State.sampled_afterBusy (b : Bool) (bs rest rest' : List Bool) (s : State) :
    (s.sampled b rest').afterBusy bs rest = s.afterBusy (b :: bs) rest := by
  simp only [State.afterBusy, State.grown, State.sampled, State.emit, List.map_cons, List.length_cons,
    List.append_assoc, List.cons_append, List.nil_append, Seq.tick_eq, Seq.ticks_ticks]
  congr 2
  omega

/-- Everything a wait can do (R121): it clears after busy samples that stay under the bound; or it times out at
the bound; or the queued samples are all busy and it stands there. -/
theorem State.waitBusyClear_cases (polls : Nat) (s : State) :
    (∃ j rest, s.env.busy = List.replicate j true ++ false :: rest ∧ underBound s.cfg.waitBound polls j ∧
      s.waitBusyClear polls = .clear (s.afterBusy (List.replicate j true ++ [false]) rest)) ∨
    (∃ j rest, s.env.busy = List.replicate (j + 1) true ++ rest ∧ underBound s.cfg.waitBound polls j ∧
      boundReached s.cfg.waitBound (polls + j + 1) = true ∧
      s.waitBusyClear polls = .timeout (s.afterBusy (List.replicate (j + 1) true) rest)) ∨
    (∃ j, s.env.busy = List.replicate j true ∧ underBound s.cfg.waitBound polls j ∧
      s.waitBusyClear polls = .pending (polls + j) (s.afterBusy (List.replicate j true) [])) := by
  unfold State.waitBusyClear
  generalize hq : s.env.busy = q
  induction q generalizing polls s with
  | nil =>
    refine .inr (.inr ⟨0, rfl, fun i hi hj => by omega, ?_⟩)
    have : { s.env with busy := [] } = s.env := by rw [← hq]
    simp [waitFrom, State.afterBusy, State.grown, this]
  | cons b q ih =>
    cases b with
    | false =>
      refine .inl ⟨0, q, rfl, fun i hi hj => by omega, ?_⟩
      simp [waitFrom, State.afterBusy, State.grown, State.sampled, State.emit, Seq.tick_eq]
    | true =>
      by_cases hb : boundReached s.cfg.waitBound (polls + 1) = true
      · refine .inr (.inl ⟨0, q, rfl, fun i hi hj => by omega, hb, ?_⟩)
        simp [waitFrom, hb, State.afterBusy, State.grown, State.sampled, State.emit, Seq.tick_eq]
      · have hb' : boundReached s.cfg.waitBound (polls + 1) = false := by simpa using hb
        have hstep : waitFrom (true :: q) polls s = waitFrom q (polls + 1) (s.sampled true q) := by
          simp [waitFrom, hb']
        have under : ∀ {j}, underBound s.cfg.waitBound (polls + 1) j →
            underBound s.cfg.waitBound polls (j + 1) := by
          intro j h i hi hj
          by_cases e : i = polls + 1
          · exact e ▸ hb'
          · exact h i (by omega) (by omega)
        rw [hstep]
        rcases ih (polls + 1) (s.sampled true q) rfl with ⟨j, rest, e, u, h⟩ | ⟨j, rest, e, u, h, h'⟩ | ⟨j, e, u, h⟩
        · refine .inl ⟨j + 1, rest, ?_, under u, ?_⟩
          · rw [e, List.replicate_succ]; rfl
          · rw [h, State.sampled_afterBusy, List.replicate_succ]; rfl
        · refine .inr (.inl ⟨j + 1, rest, ?_, under u, ?_, ?_⟩)
          · rw [e, List.replicate_succ (n := j + 1)]; rfl
          · rw [← h]; simp only [State.sampled_cfg]; congr 1; omega
          · rw [h', State.sampled_afterBusy, ← List.replicate_succ]
        · refine .inr (.inr ⟨j + 1, ?_, under u, ?_⟩)
          · rw [e, List.replicate_succ]
          · rw [h, State.sampled_afterBusy, ← List.replicate_succ]
            congr 1
            omega

theorem underBound_of_lt {bound : Option Nat} {polls j : Nat} (h : ∀ b, bound = some b → polls + j < b) :
    underBound bound polls j := by
  intro i hi hj
  cases bound with
  | none => rfl
  | some b =>
    have := h b rfl
    simp only [boundReached, decide_eq_false_iff_not]
    omega

theorem replicate_true_append_inj {j k : Nat} {xs ys : List Bool}
    (h : List.replicate j true ++ false :: xs = List.replicate k true ++ false :: ys) : j = k ∧ xs = ys := by
  induction j generalizing k with
  | zero =>
    cases k with
    | zero => simpa using h
    | succ k => simp [List.replicate_succ] at h
  | succ j ih =>
    cases k with
    | zero => simp [List.replicate_succ] at h
    | succ k =>
      simp only [List.replicate_succ, List.cons_append, List.cons.injEq, true_and] at h
      obtain ⟨e, e'⟩ := ih h
      exact ⟨by rw [e], e'⟩

theorem replicate_true_le {j k : Nat} {xs ys : List Bool}
    (h : List.replicate j true ++ false :: xs = List.replicate k true ++ ys) : k ≤ j := by
  induction k generalizing j with
  | zero => omega
  | succ k ih =>
    cases j with
    | zero => simp [List.replicate_succ] at h
    | succ j =>
      simp only [List.replicate_succ, List.cons_append, List.cons.injEq, true_and] at h
      have := ih h
      omega

/-- A wait clears when the queue holds `j` busy samples, under the bound, and then a clear one (R121). -/
theorem State.waitBusyClear_clear {polls j : Nat} {rest : List Bool} {s : State}
    (hq : s.env.busy = List.replicate j true ++ false :: rest)
    (hb : underBound s.cfg.waitBound polls j) :
    s.waitBusyClear polls = .clear (s.afterBusy (List.replicate j true ++ [false]) rest) := by
  rcases State.waitBusyClear_cases polls s with ⟨j', rest', e, u, h⟩ | ⟨j', rest', e, u, r, h⟩ | ⟨j', e, u, h⟩
  · rw [hq] at e
    obtain ⟨rfl, rfl⟩ := replicate_true_append_inj e
    exact h
  · exfalso
    rw [hq] at e
    have := replicate_true_le e
    rw [hb _ (by omega) (by omega)] at r
    cases r
  · exfalso
    rw [hq] at e
    have : false ∈ List.replicate j' true := by rw [← e]; simp
    simp at this

/-- A wait times out when the queue holds as many busy samples as the bound (R121, R191). -/
theorem State.waitBusyClear_timeout {polls n : Nat} {rest : List Bool} {s : State}
    (hn : s.cfg.waitBound = some n) (hp : polls < n)
    (hq : s.env.busy = List.replicate (n - polls) true ++ rest) :
    s.waitBusyClear polls = .timeout (s.afterBusy (List.replicate (n - polls) true) rest) := by
  rcases State.waitBusyClear_cases polls s with ⟨j, rest', e, u, h⟩ | ⟨j, rest', e, u, r, h⟩ | ⟨j, e, u, h⟩
  · exfalso
    rw [hq] at e
    have hle := replicate_true_le e.symm
    have := u n hp (by omega)
    simp [hn, boundReached] at this
  · have hj : j + 1 = n - polls := by
      have h1 : n ≤ polls + j + 1 := by simpa [hn, boundReached] using r
      by_contra hne
      have := u n hp (by omega)
      simp [hn, boundReached] at this
    rw [hq, ← hj, List.append_cancel_left_eq] at e
    rw [h, ← hj, e]
  · exfalso
    have hlen := congrArg List.length e
    rw [hq] at hlen
    simp only [List.length_append, List.length_replicate] at hlen
    have := u n hp (by omega)
    simp [hn, boundReached] at this

/-- An unbounded wait stands when every queued sample is busy (R121, R199). -/
theorem State.waitBusyClear_pending {polls j : Nat} {s : State} (hn : s.cfg.waitBound = none)
    (hq : s.env.busy = List.replicate j true) :
    s.waitBusyClear polls = .pending (polls + j) (s.afterBusy (List.replicate j true) []) := by
  rcases State.waitBusyClear_cases polls s with ⟨j', rest, e, u, h⟩ | ⟨j', rest, e, u, r, h⟩ | ⟨j', e, u, h⟩
  · exfalso
    rw [hq] at e
    have : false ∈ List.replicate j true := by rw [e]; simp
    simp at this
  · simp [hn, boundReached] at r
  · have : j = j' := by simpa [hq] using congrArg List.length e
    subst this
    exact h

section afterBusy
variable (bs rest : List Bool) (s : State)
@[simp] theorem State.afterBusy_cfg : (s.afterBusy bs rest).cfg = s.cfg := rfl
@[simp] theorem State.afterBusy_fb : (s.afterBusy bs rest).fb = s.fb := rfl
@[simp] theorem State.afterBusy_ps : (s.afterBusy bs rest).ps = s.ps := rfl
@[simp] theorem State.afterBusy_configured : (s.afterBusy bs rest).configured = s.configured := rfl
@[simp] theorem State.afterBusy_seq : (s.afterBusy bs rest).seq = s.seq.ticks bs.length := by
  simp [State.afterBusy, State.grown]
@[simp] theorem State.afterBusy_result : (s.afterBusy bs rest).result = s.result := rfl
@[simp] theorem State.afterBusy_cs : (s.afterBusy bs rest).cs = s.cs := rfl
@[simp] theorem State.afterBusy_rst : (s.afterBusy bs rest).rst = s.rst := rfl
@[simp] theorem State.afterBusy_dev : (s.afterBusy bs rest).dev = s.dev := rfl
@[simp] theorem State.afterBusy_trace : (s.afterBusy bs rest).trace = s.trace ++ bs.map Event.busy := rfl
@[simp] theorem State.afterBusy_returned : (s.afterBusy bs rest).returned = s.returned := rfl
@[simp] theorem State.afterBusy_env : (s.afterBusy bs rest).env = { s.env with busy := rest } := rfl
@[simp] theorem State.afterBusy_hostIn : (s.afterBusy bs rest).hostIn = s.hostIn := rfl
@[simp] theorem State.afterBusy_frameIn : (s.afterBusy bs rest).frameIn = s.frameIn := rfl
end afterBusy

/-! ## The read frame -/

@[simp] theorem State.readFrame_state (head filler : Byte) (s : State) :
    (s.readFrame head filler).2 = (s.sendFrame [head, filler]).2 := rfl

@[simp] theorem State.readFrame_response (head filler : Byte) (s : State) :
    (s.readFrame head filler).1 = (s.env.answers 2).1.getD 1 0#8 := by
  simp [State.readFrame]

/-! ## Accepting a command -/

/-- Everything the acceptance of a command can do (R71, R195, R9). -/
theorem runCommand_cases (c : Instr) (g a : Bool) (lax : Option Refusal) (body : List Op) (s : State) :
    (wellFormedConfig s.cfg = false ∧ runCommand c g a lax body s = .refused .illFormedConfiguration) ∨
    (wellFormedConfig s.cfg = true ∧ s.seq ≠ .idle ∧ runCommand c g a lax body s = .next s) ∨
    (wellFormedConfig s.cfg = true ∧ s.seq = .idle ∧ s.cfg.strict = true ∧ g = true ∧ s.configured = false ∧
      runCommand c g a lax body s = .next (s.fail .notConfigured)) ∨
    (wellFormedConfig s.cfg = true ∧ s.seq = .idle ∧ s.cfg.strict = true ∧ (g = true → s.configured = true) ∧
      a = false ∧ runCommand c g a lax body s = .next (s.fail .invalidConfiguration)) ∨
    (∃ r, wellFormedConfig s.cfg = true ∧ s.seq = .idle ∧ s.cfg.strict = false ∧ a = false ∧ lax = some r ∧
      runCommand c g a lax body s = .refused r) ∨
    (wellFormedConfig s.cfg = true ∧ s.seq = .idle ∧
      (s.cfg.strict = true → (g = true → s.configured = true) ∧ a = true) ∧
      (s.cfg.strict = false → a = true ∨ lax = none) ∧
      runCommand c g a lax body s = .next (s.start c body)) := by
  unfold runCommand
  cases wellFormedConfig s.cfg <;> by_cases hs : s.seq = .idle <;> cases s.cfg.strict <;> cases g <;>
    cases s.configured <;> cases a <;> cases lax <;> simp [hs]

/-- A command whose checks pass runs. -/
theorem runCommand_start {c : Instr} {g a : Bool} {lax : Option Refusal} {body : List Op} {s : State}
    (hw : wellFormedConfig s.cfg = true) (hs : s.seq = .idle)
    (h : s.cfg.strict = true → (g = true → s.configured = true) ∧ a = true)
    (h' : s.cfg.strict = false → a = true ∨ lax = none) :
    runCommand c g a lax body s = .next (s.start c body) := by
  unfold runCommand
  revert h h'
  cases s.cfg.strict <;> cases g <;> cases s.configured <;> cases a <;> cases lax <;> simp [hs, hw]

/-- A gated command before `WS_BEGIN` (R193, R195). -/
theorem runCommand_notConfigured {c : Instr} {a : Bool} {lax : Option Refusal} {body : List Op} {s : State}
    (hw : wellFormedConfig s.cfg = true) (hs : s.seq = .idle) (h : s.cfg.strict = true)
    (hc : s.configured = false) :
    runCommand c true a lax body s = .next (s.fail .notConfigured) := by
  simp [runCommand, hw, hs, h, hc]

/-- A command with an argument that fails its check (R192, R195). -/
theorem runCommand_invalid {c : Instr} {g : Bool} {lax : Option Refusal} {body : List Op} {s : State}
    (hw : wellFormedConfig s.cfg = true) (hs : s.seq = .idle) (h : s.cfg.strict = true)
    (hc : g = true → s.configured = true) :
    runCommand c g false lax body s = .next (s.fail .invalidConfiguration) := by
  unfold runCommand
  revert hc
  cases g <;> cases s.configured <;> simp [hw, hs, h]

/-- A command that names nothing, with `STRICT = false` (R194). -/
theorem runCommand_refused {c : Instr} {g : Bool} {r : Refusal} {body : List Op} {s : State}
    (hw : wellFormedConfig s.cfg = true) (hs : s.seq = .idle) (h : s.cfg.strict = false) :
    runCommand c g false (some r) body s = .refused r := by
  simp [runCommand, hw, hs, h]

end Sys2Proof.Machine
end

