-- ==== Sys2Proof/Laws/PerInstr.lean ====
section
/-! SUPPORT. Sys2Proof/Laws/PerInstr.lean: the per-instruction family `EncodesRow`: the encoding of every instruction
carries the match bits of its row of spec/opcode_table.json, and for a host command also its width. -/

namespace Sys2Proof.Laws

/-- The mask of the host commands' rows: `0xFF << 48` (R73). -/
def commandMask : CmdWord := 0xFF000000000000#56

/-- `x` is a command word that matches the row with these match bits. -/
def commandFits (word : CmdWord) : Encoded → Prop
  | .command w => w &&& commandMask = word
  | .frame _ => False

/-- `x` is a frame whose first byte matches the row with this match byte and mask. -/
def frameFits (pattern mask : Byte) : Encoded → Prop
  | .frame (b :: _) => b &&& mask = pattern
  | _ => False

/-- The encoding of an instruction matches its row. The row of `W_WRREG` "matches only after W_WRBUF (0x10) has been
excluded", so it is asked of a well-formed frame to be no buffer write. -/
def EncodesRow.Statement : Instr → Prop
  | .fbClear level => commandFits 0x01000000000000#56 (encode (.fbClear level))
  | .fbInvert => commandFits 0x02000000000000#56 (encode .fbInvert)
  | .fbSetseg index level => commandFits 0x03000000000000#56 (encode (.fbSetseg index level))
  | .fbDrawsegs mask level => commandFits 0x04000000000000#56 (encode (.fbDrawsegs mask level))
  | .rpWrreg addr pm op0 op1 op2 op3 =>
    commandFits 0x10000000000000#56 (encode (.rpWrreg addr pm op0 op1 op2 op3))
  | .rpRdreg addr => commandFits 0x11000000000000#56 (encode (.rpRdreg addr))
  | .rpWrbuf target fillsel fill => commandFits 0x12000000000000#56 (encode (.rpWrbuf target fillsel fill))
  | .psOn => commandFits 0x20000000000000#56 (encode .psOn)
  | .psOff => commandFits 0x21000000000000#56 (encode .psOff)
  | .wsBegin => commandFits 0x30000000000000#56 (encode .wsBegin)
  | .wsUpdate mode manual => commandFits 0x31000000000000#56 (encode (.wsUpdate mode manual))
  | .wsRender colour => commandFits 0x32000000000000#56 (encode (.wsRender colour))
  | .wsSetcv v => commandFits 0x33000000000000#56 (encode (.wsSetcv v))
  | .wsSetsv sv => commandFits 0x34000000000000#56 (encode (.wsSetsv sv))
  | .wWrreg addr ops =>
    frameFits 0x00#8 0x80#8 (encode (.wWrreg addr ops))
      ∧ (addr ≠ 0x10#7 → ¬ frameFits 0x10#8 0xFF#8 (encode (.wWrreg addr ops)))
  | .wRdreg addr filler => frameFits 0x80#8 0x80#8 (encode (.wRdreg addr filler))
  | .wWrbuf data => frameFits 0x10#8 0xFF#8 (encode (.wWrbuf data))

/-- The mask keeps the opcode `W[55:48]` and clears the rest. -/
theorem masked (w : CmdWord) : w &&& commandMask = w.extractLsb' 48 8 ++ 0#48 := by
  have hm : commandMask = BitVec.allOnes 8 ++ 0#48 := by decide
  apply BitVec.eq_of_getLsbD_eq
  intro i hi
  rw [hm, BitVec.getLsbD_and, BitVec.getLsbD_append, BitVec.getLsbD_append]
  by_cases h : i < 48
  · simp [h]
  · have h' : i - 48 < 8 := by omega
    have hw : 48 + (i - 48) = i := by omega
    simp only [h, if_false, BitVec.getLsbD_allOnes, BitVec.getLsbD_extractLsb', h', decide_true,
      hw, Bool.and_true, Bool.true_and]

theorem commandFits_of_opcode {w word : CmdWord} {opcode : Byte} (h : w.extractLsb' 48 8 = opcode)
    (hword : opcode ++ 0#48 = word) : commandFits word (.command w) := by
  show w &&& commandMask = word
  rw [masked, h, hword]

theorem EncodesRow.fbClear (level : Level) : EncodesRow.Statement (.fbClear level) :=
  commandFits_of_opcode (opcode := 0x01#8) (by cases level <;> decide) (by decide)

theorem EncodesRow.fbInvert : EncodesRow.Statement .fbInvert :=
  commandFits_of_opcode (opcode := 0x02#8) (by decide) (by decide)

theorem EncodesRow.fbSetseg (index : BitVec 5) (level : Level) :
    EncodesRow.Statement (.fbSetseg index level) :=
  commandFits_of_opcode (opcode := 0x03#8) (by
    rw [extract_append_high _ level.code _ 8 (by decide), extract_append_high _ 0#6 _ 8 (by decide),
      extract_append_high _ index _ 8 (by decide), extract_append_high _ 0#35 _ 8 (by decide)]
    decide) (by decide)

theorem EncodesRow.fbDrawsegs (mask : BitVec 32) (level : Level) :
    EncodesRow.Statement (.fbDrawsegs mask level) :=
  commandFits_of_opcode (opcode := 0x04#8) (by
    rw [extract_append_high _ level.code _ 8 (by decide), extract_append_high _ 0#6 _ 8 (by decide),
      extract_append_high _ mask _ 8 (by decide), extract_append_high _ 0#8 _ 8 (by decide)]
    decide) (by decide)

theorem EncodesRow.rpWrreg (addr : Byte) (pm : BitVec 4) (op0 op1 op2 op3 : Byte) :
    EncodesRow.Statement (.rpWrreg addr pm op0 op1 op2 op3) :=
  commandFits_of_opcode (opcode := 0x10#8) (by
    rw [extract_append_high _ op3 _ 8 (by decide), extract_append_high _ op2 _ 8 (by decide),
      extract_append_high _ op1 _ 8 (by decide), extract_append_high _ op0 _ 8 (by decide),
      extract_append_high _ pm _ 8 (by decide), extract_append_high _ 0#4 _ 8 (by decide),
      extract_append_high _ addr _ 8 (by decide)]
    decide) (by decide)

theorem EncodesRow.rpRdreg (addr : Byte) :
    EncodesRow.Statement (.rpRdreg addr) :=
  commandFits_of_opcode (opcode := 0x11#8) (by
    rw [extract_append_high _ 0#40 _ 8 (by decide), extract_append_high _ addr _ 8 (by decide)]
    decide) (by decide)

theorem EncodesRow.rpWrbuf (target : BufferSel) (fillsel : FillSel) (fill : Byte) :
    EncodesRow.Statement (.rpWrbuf target fillsel fill) :=
  commandFits_of_opcode (opcode := 0x12#8) (by
    rw [extract_append_high _ target.bit _ 8 (by decide), extract_append_high _ fillsel.bit _ 8 (by decide),
      extract_append_high _ 0#6 _ 8 (by decide), extract_append_high _ fill _ 8 (by decide),
      extract_append_high _ 0#32 _ 8 (by decide)]
    decide) (by decide)

theorem EncodesRow.psOn : EncodesRow.Statement .psOn :=
  commandFits_of_opcode (opcode := 0x20#8) (by decide) (by decide)

theorem EncodesRow.psOff : EncodesRow.Statement .psOff :=
  commandFits_of_opcode (opcode := 0x21#8) (by decide) (by decide)

theorem EncodesRow.wsBegin : EncodesRow.Statement .wsBegin :=
  commandFits_of_opcode (opcode := 0x30#8) (by decide) (by decide)

theorem EncodesRow.wsUpdate (mode : BitVec 2) (manual : Bool) :
    EncodesRow.Statement (.wsUpdate mode manual) :=
  commandFits_of_opcode (opcode := 0x31#8) (by
    rw [extract_append_high _ mode _ 8 (by decide),
      extract_append_high _ (BitVec.ofBool manual) _ 8 (by decide),
      extract_append_high _ 0#45 _ 8 (by decide)]
    decide) (by decide)

theorem EncodesRow.wsRender (colour : BitVec 3) :
    EncodesRow.Statement (.wsRender colour) :=
  commandFits_of_opcode (opcode := 0x32#8) (by
    rw [extract_append_high _ colour _ 8 (by decide), extract_append_high _ 0#45 _ 8 (by decide)]
    decide) (by decide)

theorem EncodesRow.wsSetcv (v : BitVec 16) :
    EncodesRow.Statement (.wsSetcv v) :=
  commandFits_of_opcode (opcode := 0x33#8) (by
    rw [extract_append_high _ v _ 8 (by decide), extract_append_high _ 0#32 _ 8 (by decide)]
    decide) (by decide)

theorem EncodesRow.wsSetsv (sv : BitVec 16) :
    EncodesRow.Statement (.wsSetsv sv) :=
  commandFits_of_opcode (opcode := 0x34#8) (by
    rw [extract_append_high _ sv _ 8 (by decide), extract_append_high _ 0#32 _ 8 (by decide)]
    decide) (by decide)

/-- The first byte of a register-write frame has bit 7 clear and is 0x10 only for register 0x10. -/
theorem EncodesRow.wWrreg (addr : BitVec 7) (ops : List Byte) : EncodesRow.Statement (.wWrreg addr ops) := by
  have all : ∀ a : BitVec 7, writeFrameHead a &&& 0x80#8 = 0x00#8 ∧
      (a ≠ 0x10#7 → writeFrameHead a &&& 0xFF#8 ≠ 0x10#8) := by decide
  exact all addr

theorem EncodesRow.wRdreg (addr : BitVec 7) (filler : Byte) : EncodesRow.Statement (.wRdreg addr filler) := by
  have all : ∀ a : BitVec 7, readFrameHead a &&& 0x80#8 = 0x80#8 := by decide
  exact all addr

theorem EncodesRow.wWrbuf (data : List Byte) : EncodesRow.Statement (.wWrbuf data) := by
  show 0x10#8 &&& 0xFF#8 = 0x10#8
  decide

end Sys2Proof.Laws
end

