-- ==== Sys2Proof/Laws/Run.lean ====
section
/-! SUPPORT. Sys2Proof/Laws/Run.lean: what running a command's pseudocode can do, said once: a relation between
states that every elementary operation respects is respected by a statement, by a body, by the meaning of every
instruction and by the step. -/

namespace Sys2Proof.Machine

/-- A relation that is reflexive and transitive and that every elementary operation a list of statements can use
respects. -/
structure Keeps (ops : List Op) (R : State → State → Prop) : Prop where
  refl : ∀ s, R s s
  trans : ∀ {s t u}, R s t → R t u → R s u
  frame : ∀ bytes s, R s (s.sendFrame bytes).2
  busy : ∀ bs rest s, R s (s.afterBusy bs rest)
  power : ∀ p, Op.setPower p ∈ ops → ∀ s : State, R s { s with ps := p }
  reset : ∀ l, Op.setReset l ∈ ops → ∀ s : State, R s (s.setRST l)
  delay : ∀ n, Op.delay n ∈ ops → ∀ s : State, R s (s.delayMs n)
  clear : ∀ l, Op.clear l ∈ ops → ∀ s : State, R s (s.clearFb l)
  invert : Op.invert ∈ ops → ∀ s : State, R s s.invertFb
  seg : ∀ i l, Op.setSeg i l ∈ ops → ∀ s : State, R s (s.setSegment i l)
  configured : Op.setConfigured ∈ ops → ∀ s : State, R s { s with configured := true }

/-- The state a statement has come to. -/
def OpEnd.state : OpEnd → State
  | .done s => s
  | .finish _ s => s
  | .pend _ s => s

theorem Keeps.wait {ops : List Op} {R : State → State → Prop} (h : Keeps ops R) (polls : Nat) (s : State) :
    (∃ s', s.waitBusyClear polls = .clear s' ∧ R s s') ∨ (∃ s', s.waitBusyClear polls = .timeout s' ∧ R s s') ∨
      (∃ p s', s.waitBusyClear polls = .pending p s' ∧ R s s') := by
  rcases State.waitBusyClear_cases polls s with ⟨_, _, _, _, e⟩ | ⟨_, _, _, _, _, e⟩ | ⟨_, _, _, e⟩
  · exact .inl ⟨_, e, h.busy _ _ _⟩
  · exact .inr (.inl ⟨_, e, h.busy _ _ _⟩)
  · exact .inr (.inr ⟨_, _, e, h.busy _ _ _⟩)

theorem Keeps.poll {ops : List Op} {R : State → State → Prop} (h : Keeps ops R) (fuel reads : Nat) (s : State) :
    R s (pollFrom fuel reads s).state := by
  induction fuel generalizing reads s with
  | zero => exact h.refl s
  | succ fuel ih =>
    simp only [pollFrom, State.readFrame_state]
    have hf := h.frame [s.cfg.regStatus ||| readFlag, s.cfg.filler] s
    rcases h.wait 0 (s.sendFrame [s.cfg.regStatus ||| readFlag, s.cfg.filler]).2 with
      ⟨s', e, hr⟩ | ⟨s', e, hr⟩ | ⟨p, s', e, hr⟩
    · rw [e]
      dsimp only
      split
      · exact h.trans hf hr
      · split
        · exact h.trans hf hr
        · exact h.trans (h.trans hf hr) (ih _ _)
    · rw [e]; exact h.trans hf hr
    · rw [e]; exact h.trans hf hr

/-- One statement respects the relation. -/
theorem Keeps.doOp {ops : List Op} {R : State → State → Prop} (h : Keeps ops R) {op : Op} (hop : op ∈ ops)
    (s : State) : R s (doOp op s).state := by
  cases op with
  | frame bytes => exact h.frame _ _
  | stream => exact h.frame _ _
  | wait polls =>
    simp only [Machine.doOp]
    rcases h.wait polls s with ⟨s', e, hr⟩ | ⟨s', e, hr⟩ | ⟨p, s', e, hr⟩ <;> rw [e] <;> exact hr
  | readResult head filler =>
    simp only [Machine.doOp, State.readFrame_state]
    have hf := h.frame [head, filler] s
    rcases h.wait 0 (s.sendFrame [head, filler]).2 with ⟨s', e, hr⟩ | ⟨s', e, hr⟩ | ⟨p, s', e, hr⟩ <;>
      rw [e] <;> exact h.trans hf hr
  | readWait r polls =>
    simp only [Machine.doOp]
    rcases h.wait polls s with ⟨s', e, hr⟩ | ⟨s', e, hr⟩ | ⟨p, s', e, hr⟩ <;> rw [e] <;> exact hr
  | pollReady reads => exact h.poll _ _ _
  | pollWait r polls reads =>
    simp only [Machine.doOp]
    rcases h.wait polls s with ⟨s', e, hr⟩ | ⟨s', e, hr⟩ | ⟨p, s', e, hr⟩
    · rw [e]
      dsimp only
      split
      · exact hr
      · split
        · exact hr
        · exact h.trans hr (h.poll _ _ _)
    · rw [e]; exact hr
    · rw [e]; exact hr
  | setPower p => exact h.power p hop s
  | setReset l => exact h.reset l hop s
  | delay n => exact h.delay n hop s
  | clear l => exact h.clear l hop s
  | invert => exact h.invert hop s
  | setSeg i l => exact h.seg i l hop s
  | setConfigured => exact h.configured hop s

theorem Keeps.mono {ops ops' : List Op} {R : State → State → Prop} (h : Keeps ops R) (hs : ∀ op ∈ ops', op ∈ ops) :
    Keeps ops' R where
  refl := h.refl
  trans := h.trans
  frame := h.frame
  busy := h.busy
  power p hp := h.power p (hs _ hp)
  reset l hl := h.reset l (hs _ hl)
  delay n hn := h.delay n (hs _ hn)
  clear l hl := h.clear l (hs _ hl)
  invert hi := h.invert (hs _ hi)
  seg i l hi := h.seg i l (hs _ hi)
  configured hc := h.configured (hs _ hc)

/-- Running a body respects the relation, up to the way it ends: with a result, or standing in a wait. -/
theorem Keeps.runOps {ops : List Op} {R : State → State → Prop} (h : Keeps ops R) (s : State) :
    (∃ r s', runOps ops s = s'.complete r ∧ R s s') ∨
      (∃ todo s', runOps ops s = { s' with seq := s'.seq.withTodo todo } ∧ R s s') := by
  induction ops generalizing s with
  | nil => exact .inl ⟨.ok, s, rfl, h.refl s⟩
  | cons op rest ih =>
    have hd := h.doOp (op := op) (by simp) s
    have hrest : Keeps rest R := h.mono fun _ ho => by simp [ho]
    simp only [Machine.runOps]
    rcases hdo : Machine.doOp op s with s' | ⟨r, s'⟩ | ⟨op', s'⟩ <;> rw [hdo] at hd <;> dsimp only
    · rcases ih hrest s' with ⟨r, s'', e, hr⟩ | ⟨todo, s'', e, hr⟩
      · exact .inl ⟨r, s'', e, h.trans hd hr⟩
      · exact .inr ⟨todo, s'', e, h.trans hd hr⟩
    · exact .inl ⟨r, s', rfl, hd⟩
    · exact .inr ⟨op' :: rest, s', rfl, hd⟩

/-! ## One statement at a time -/

/-- A wait that clears, and what follows it. -/
theorem runOps_wait_clear {polls j : Nat} {ops : List Op} {q : List Bool} {s : State}
    (hq : s.env.busy = List.replicate j true ++ false :: q) (hb : ∀ n, s.cfg.waitBound = some n → polls + j < n) :
    Machine.runOps (.wait polls :: ops) s = Machine.runOps ops (s.afterBusy (List.replicate j true ++ [false]) q) := by
  simp only [Machine.runOps, Machine.doOp, State.waitBusyClear_clear hq (underBound_of_lt hb)]

/-- A wait that reaches the bound ends the command (R121, R191). -/
theorem runOps_wait_timeout {n : Nat} {ops : List Op} {q : List Bool} {s : State} (hn : s.cfg.waitBound = some n)
    (h1 : 1 ≤ n) (hq : s.env.busy = List.replicate n true ++ q) :
    Machine.runOps (.wait 0 :: ops) s = (s.afterBusy (List.replicate n true) q).complete .deviceTimeout := by
  have h := State.waitBusyClear_timeout (s := s) (polls := 0) hn h1 (by simpa using hq)
  simp only [Nat.sub_zero] at h
  simp only [Machine.runOps, Machine.doOp, h]

/-- A frame, and what follows it. -/
theorem runOps_frame (bytes : List Byte) (ops : List Op) (s : State) :
    Machine.runOps (.frame bytes :: ops) s = Machine.runOps ops (s.sendFrame bytes).2 := rfl

/-! ## The meaning of every instruction in one form -/

/-- Whether the arguments pass R192. -/
def argOk : Instr → Bool
  | .fbClear _ => true
  | .fbInvert => true
  | .fbSetseg index _ => segIndexOk index
  | .fbDrawsegs _ _ => true
  | .rpWrreg addr _ _ _ _ _ => writeAddrOk addr
  | .rpRdreg addr => readAddrOk addr
  | .rpWrbuf _ _ _ => true
  | .psOn => true
  | .psOff => true
  | .wsBegin => true
  | .wsUpdate mode _ => (UpdateMode.ofCode mode).isSome
  | .wsRender colour => (Colour.ofCode colour).isSome
  | .wsSetcv v => cvInRange v.toInt
  | .wsSetsv sv => svInRange sv.toNat
  | .wWrreg _ _ => true
  | .wRdreg _ _ => true
  | .wWrbuf _ => true

/-- How `STRICT = false` treats arguments that name nothing. -/
def laxRefusal : Instr → Option Refusal
  | .fbSetseg _ _ => some .segmentIndex
  | .wsUpdate _ _ => some .updateMode
  | .wsRender _ => some .colourCode
  | .fbClear _ => none
  | .fbInvert => none
  | .fbDrawsegs _ _ => none
  | .rpWrreg _ _ _ _ _ _ => none
  | .rpRdreg _ => none
  | .rpWrbuf _ _ _ => none
  | .psOn => none
  | .psOff => none
  | .wsBegin => none
  | .wsSetcv _ => none
  | .wsSetsv _ => none
  | .wWrreg _ _ => none
  | .wRdreg _ _ => none
  | .wWrbuf _ => none

/-- The pseudocode of every instruction. -/
def bodyOf (c : Config) : Instr → List Op
  | .fbClear level => [.clear level]
  | .fbInvert => [.invert]
  | .fbSetseg index level => [.setSeg index.toNat level]
  | .fbDrawsegs mask level => drawSegsOps mask level
  | .rpWrreg addr pm op0 op1 op2 op3 => writeReg addr (presentOps pm op0 op1 op2 op3)
  | .rpRdreg addr => [.readResult (addr ||| readFlag) c.filler]
  | .rpWrbuf target fillsel fill => writeBuf c target (streamSrc fillsel fill)
  | .psOn => powerOn c
  | .psOff => powerOff c
  | .wsBegin => beginOps c
  | .wsUpdate mode manual => updateOps c (UpdateMode.ofCode mode) manual
  | .wsRender colour => renderOps c (Colour.ofCode colour)
  | .wsSetcv v => setCV c v.toInt
  | .wsSetsv sv => setSV c sv.toNat
  | .wWrreg addr ops => writeReg (writeFrameHead addr) ops
  | .wRdreg addr filler => [.readResult (readFrameHead addr) filler]
  | .wWrbuf data => [.frame (opcBufWrite :: data), .wait 0]

/-- Every meaning is the shared acceptance of a command, over its own body. -/
theorem exec_eq (i : Instr) (s : State) :
    exec i s = runCommand i (gated i) (argOk i) (laxRefusal i) (bodyOf s.cfg i) s := by
  cases i <;> rfl

/-- A next state of `exec` is the old state (not accepted), a failed check, or the command's run. -/
theorem exec_next {i : Instr} {s t : State} (h : exec i s = .next t) :
    wellFormedConfig s.cfg = true ∧
    ((s.seq ≠ .idle ∧ t = s) ∨
     (s.seq = .idle ∧ (t = s.fail .notConfigured ∨ t = s.fail .invalidConfiguration ∨
        t = s.start i (bodyOf s.cfg i)))) := by
  rw [exec_eq] at h
  rcases runCommand_cases i (gated i) (argOk i) (laxRefusal i) (bodyOf s.cfg i) s with
    ⟨_, e⟩ | ⟨hw, hs, e⟩ | ⟨hw, hs, _, _, _, e⟩ | ⟨hw, hs, _, _, _, e⟩ | ⟨r, hw, hs, _, _, _, e⟩ |
      ⟨hw, hs, _, _, e⟩ <;> rw [e] at h <;> cases h
  · exact ⟨hw, .inl ⟨hs, rfl⟩⟩
  · exact ⟨hw, .inr ⟨hs, .inl rfl⟩⟩
  · exact ⟨hw, .inr ⟨hs, .inr (.inl rfl)⟩⟩
  · exact ⟨hw, .inr ⟨hs, .inr (.inr rfl)⟩⟩

/-- Everything a step that answers a next state can do. -/
theorem step_next {s t : State} (h : step s = .next t) :
    wellFormedConfig s.cfg = true ∧
    ((∃ c k todo, s.seq = .running c k todo ∧ t = s.resume) ∨
     (s.seq = .idle ∧ ∃ f rest i, s.frameIn = f :: rest ∧ decodeFrame s.cfg.nStream f = .ok i ∧
        exec i { s with frameIn := rest } = .next t) ∨
     (s.seq = .idle ∧ s.frameIn = [] ∧ ∃ w rest i, s.hostIn = w :: rest ∧ decode w = .ok i ∧
        exec i { s with hostIn := rest } = .next t) ∨
     (s.seq = .idle ∧ s.frameIn = [] ∧ ∃ w rest e, s.hostIn = w :: rest ∧ decode w = .error e ∧
        s.cfg.strict = true ∧ t = State.fail .invalidConfiguration { s with hostIn := rest }) ∨
     (s.seq = .idle ∧ s.frameIn = [] ∧ s.hostIn = [] ∧ t = s)) := by
  unfold step at h
  split at h
  · cases h
  · next hw =>
    have hw : wellFormedConfig s.cfg = true := by simpa using hw
    refine ⟨hw, ?_⟩
    split at h
    · next hs =>
      cases h
      refine .inl ?_
      cases hq : s.seq with
      | idle => exact absurd hq hs
      | running c k todo => exact ⟨c, k, todo, rfl, rfl⟩
    · next hs =>
      have hs : s.seq = .idle := by simpa using hs
      split at h
      · next f rest hf =>
        split at h
        · next i hd => exact .inr (.inl ⟨hs, f, rest, i, hf, hd, h⟩)
        · cases h
      · next w rest hf hh =>
        split at h
        · next i hd => exact .inr (.inr (.inl ⟨hs, hf, w, rest, i, hh, hd, h⟩))
        · next e hd =>
          refine .inr (.inr (.inr (.inl ⟨hs, hf, w, rest, e, hh, hd, ?_⟩)))
          unfold unknownCommand at h
          split at h
          · next hst => exact ⟨hst, by cases h; rfl⟩
          · cases h
      · next hf hh =>
        cases h
        exact .inr (.inr (.inr (.inr ⟨hs, hf, hh, rfl⟩)))

end Sys2Proof.Machine
end

