-- ==== Sys2Proof/Laws/Responsive.lean ====
section
/-! SUPPORT. Sys2Proof/Laws/Responsive.lean: what running a body does when the environment lets it run to its end
(R206): the coarse trace it adds, and the state it leaves. -/

namespace Sys2Proof.Machine

/-! ## Coarse traces of pieces -/

/-- Put after a trace that leaves no frame open, the events `new` add the coarse events `cs` and leave no frame
open either. -/
def Emits (new : List Event) (cs : List Coarse) : Prop :=
  ∀ es, coarseFrom none (new ++ es) = cs ++ coarseFrom none es

theorem Emits.coarse_eq {new : List Event} {cs : List Coarse} (h : Emits new cs) : coarse new = cs := by
  have := h []
  simpa [coarse, coarseFrom] using this

theorem Emits.nil : Emits [] [] := fun _ => rfl

theorem Emits.append {a b : List Event} {x y : List Coarse} (ha : Emits a x) (hb : Emits b y) :
    Emits (a ++ b) (x ++ y) := by
  intro es
  rw [List.append_assoc, ha, hb, List.append_assoc]

theorem coarseFrom_xfers (bytes rs : List Byte) (acc : List (Byte × Byte)) (es : List Event)
    (h : rs.length = bytes.length) :
    coarseFrom (some acc) (List.zipWith Event.xfer bytes rs ++ es) = coarseFrom (some (acc ++ bytes.zip rs)) es := by
  induction bytes generalizing rs acc with
  | nil => simp
  | cons b bytes ih =>
    cases rs with
    | nil => simp at h
    | cons r rs =>
      simp only [List.zipWith_cons_cons, List.cons_append, coarseFrom, List.zip_cons_cons, Option.map_some]
      rw [ih _ _ (by simpa using h)]
      simp

/-- A frame is one coarse event (R16). -/
theorem Emits.frame {bytes rs : List Byte} (h : rs.length = bytes.length) :
    Emits (frameEvents bytes rs) [coarseFrame (bytes.zip rs)] := by
  intro es
  simp only [frameEvents, List.cons_append, List.append_assoc, coarseFrom]
  rw [coarseFrom_xfers bytes rs [] _ h]
  simp [coarseFrom]

/-- The samples of a wait that clears are one coarse event (R16). -/
theorem Emits.wait (j : Nat) : Emits ((List.replicate j true ++ [false]).map Event.busy) [.waitBusy] := by
  intro es
  induction j with
  | zero => simp [coarseFrom]
  | succ j ih => simpa [List.replicate_succ, coarseFrom] using ih

/-! ## The coarse event of a frame -/

/-- The coarse event of a frame, its response left out. -/
def frameCoarse : List Byte → Coarse
  | [] => .unframed
  | b :: rest =>
    match frameKind b with
    | .bufWrite => .stream rest
    | .regRead addr => .rd addr none
    | .regWrite addr => .wr addr rest

/-- What answers a frame gets does not matter for its coarse event, but for the response. -/
theorem blank_coarseFrame {bytes rs : List Byte} (h : rs.length = bytes.length) :
    (coarseFrame (bytes.zip rs)).blank = frameCoarse bytes := by
  cases bytes with
  | nil => rfl
  | cons b bytes =>
    cases rs with
    | nil => simp at h
    | cons r rs =>
      have h₁ : (bytes.zip rs).map Prod.fst = bytes := List.map_fst_zip (by simp at h; omega)
      simp only [List.zip_cons_cons, coarseFrame, frameCoarse, h₁]
      cases frameKind b <;> rfl

theorem low7 (a : Byte) : a.extractLsb' 0 7 = a.setWidth 7 := by
  apply BitVec.eq_of_getLsbD_eq
  intro i hi
  simp [hi]

/-- The first byte of a register write of the block's own registers (R76, R79, D8). -/
theorem frameKind_write {a : Byte} (h7 : a.toNat < 0x80) (h10 : a ≠ 0x10#8) : frameKind a = .regWrite (a.setWidth 7) := by
  have hm : a.getLsbD 7 = false := by
    rw [BitVec.getLsbD]
    exact Nat.testBit_lt_two_pow (by simpa using h7)
  rw [frameKind, if_neg h10, hm, low7]
  rfl

/-- The first byte of a register read (R77, R79). -/
theorem frameKind_read (a : Byte) : frameKind (a ||| readFlag) = .regRead (a.setWidth 7) := by
  revert a
  decide

theorem frameCoarse_write {a : Byte} {ops : List Byte} (h7 : a.toNat < 0x80) (h10 : a ≠ 0x10#8) :
    frameCoarse (a :: ops) = .wr (a.setWidth 7) ops := by
  rw [frameCoarse, frameKind_write h7 h10]

theorem frameCoarse_read (a f : Byte) : frameCoarse [a ||| readFlag, f] = .rd (a.setWidth 7) none := by
  rw [frameCoarse, frameKind_read]

theorem frameCoarse_stream (data : List Byte) : frameCoarse (opcBufWrite :: data) = .stream data := rfl

/-- A frame that is a write: it asks for no response. -/
def plainFrame : List Byte → Bool
  | [] => false
  | b :: _ =>
    match frameKind b with
    | .bufWrite => true
    | .regRead _ => false
    | .regWrite _ => true

theorem frameCoarse_plain {bytes : List Byte} (h : plainFrame bytes = true) :
    (∃ rest, frameCoarse bytes = .stream rest ∧ bytes.length = rest.length + 1) ∨
      (∃ a rest, frameCoarse bytes = .wr a rest ∧ bytes.length = rest.length + 1) := by
  cases bytes with
  | nil => simp [plainFrame] at h
  | cons b rest =>
    simp only [plainFrame] at h
    simp only [frameCoarse]
    cases hk : frameKind b with
    | bufWrite => exact .inl ⟨rest, rfl, rfl⟩
    | regRead a => simp [hk] at h
    | regWrite a => exact .inr ⟨a, rest, rfl, rfl⟩

/-- How many bytes the frames of a coarse trace send. -/
def sentBytes : List Coarse → Nat
  | [] => 0
  | .wr _ ops :: es => ops.length + 1 + sentBytes es
  | .rd _ _ :: es => 2 + sentBytes es
  | .stream data :: es => data.length + 1 + sentBytes es
  | .waitBusy :: es => sentBytes es
  | .rst _ :: es => sentBytes es
  | .delay _ :: es => sentBytes es
  | .unframed :: es => sentBytes es

theorem sentBytes_append (a b : List Coarse) : sentBytes (a ++ b) = sentBytes a + sentBytes b := by
  induction a with
  | nil => simp [sentBytes]
  | cons x a ih => cases x <;> simp [sentBytes, ih] <;> omega

/-! ## What a body adds and leaves -/

/-- The FrameBuffer after a statement. -/
def opFb (c : Config) (fb : Memory) : Op → Memory
  | .clear level => fbCleared c level
  | .invert => fbInverted c fb
  | .setSeg index level => fbSegmentSet c index level fb
  | _ => fb

/-- The FrameBuffer after a body. -/
def opsFb (c : Config) (fb : Memory) (ops : List Op) : Memory := ops.foldl (opFb c) fb

/-- The coarse events of a statement in a responsive environment, responses left out. -/
def opTrace (c : Config) (fb : Memory) : Op → List Coarse
  | .frame bytes => [frameCoarse bytes]
  | .stream => [frameCoarse (opcBufWrite :: fb.bytes c.nStream)]
  | .wait _ => [.waitBusy]
  | .pollReady _ => [frameCoarse [c.regStatus ||| readFlag, c.filler], .waitBusy]
  | .setReset l => [.rst l]
  | .delay n => [.delay n]
  | _ => []

/-- The coarse events of a body. -/
def opsTrace (c : Config) : Memory → List Op → List Coarse
  | _, [] => []
  | fb, op :: ops => opTrace c fb op ++ opsTrace c (opFb c fb op) ops

/-- `PS` after a statement. -/
def opPs (ps : PowerState) : Op → PowerState
  | .setPower p => p
  | _ => ps

/-- `PS` after a body. -/
def opsPs (ps : PowerState) (ops : List Op) : PowerState := ops.foldl opPs ps

/-- `RST` after a statement. -/
def opRst (rst : Line) : Op → Line
  | .setReset l => l
  | _ => rst

/-- `RST` after a body. -/
def opsRst (rst : Line) (ops : List Op) : Line := ops.foldl opRst rst

/-- `CONFIGURED` after a statement. -/
def opConfigured (b : Bool) : Op → Bool
  | .setConfigured => true
  | _ => b

/-- `CONFIGURED` after a body. -/
def opsConfigured (b : Bool) (ops : List Op) : Bool := ops.foldl opConfigured b

/-- `CS` after a statement. -/
def opCs (cs : Line) : Op → Line
  | .frame _ => .high
  | .stream => .high
  | .pollReady _ => .high
  | _ => cs

/-- `CS` after a body. -/
def opsCs (cs : Line) (ops : List Op) : Line := ops.foldl opCs cs

/-- The statements a body starts with: no wait half done, no read but the ready poll's, no statement that gives the
command's result. -/
def fresh : Op → Bool
  | .frame bytes => plainFrame bytes
  | .wait p => p == 0
  | .pollReady r => r == 0
  | .readResult _ _ => false
  | .readWait _ _ => false
  | .pollWait _ _ _ => false
  | _ => true

theorem opsTrace_append (c : Config) (fb : Memory) (a b : List Op) :
    opsTrace c fb (a ++ b) = opsTrace c fb a ++ opsTrace c (opsFb c fb a) b := by
  induction a generalizing fb with
  | nil => rfl
  | cons op a ih => simp [opsTrace, ih, opsFb]

theorem opsFb_append (c : Config) (fb : Memory) (a b : List Op) :
    opsFb c fb (a ++ b) = opsFb c (opsFb c fb a) b := by simp [opsFb]

theorem Device.see_blank (c : Config) (d : Device) (e : Coarse) : Device.see c d e.blank = Device.see c d e := by
  cases e <;> rfl

theorem foldl_see_blank (c : Config) (d : Device) (es : List Coarse) :
    (es.map Coarse.blank).foldl (Device.see c) d = es.foldl (Device.see c) d := by
  induction es generalizing d with
  | nil => rfl
  | cons e es ih => simp [Device.see_blank, ih]

/-! ## Status reads that are not ready -/

/-- The shadow does not see the status reads that come before a ready one. -/
theorem foldl_see_withUnready (c : Config) (us : List Nat) (es : List Coarse) (d : Device) :
    (withUnready us es).foldl (Device.see c) d = es.foldl (Device.see c) d := by
  have skip : ∀ (n : Nat) (a : BitVec 7) (r : Option Byte) (d : Device),
      ((List.replicate n [Coarse.rd a r, .waitBusy]).flatten).foldl (Device.see c) d = d := by
    intro n a r d
    induction n with
    | zero => rfl
    | succ n ih => simpa [List.replicate_succ, Device.see] using ih
  induction es generalizing us d with
  | nil => rfl
  | cons e es ih => cases e <;> simp only [withUnready, List.foldl_append, List.foldl_cons, skip, ih]

theorem count_withUnready_rd (us : List Nat) (a : BitVec 7) (r : Option Byte) (es : List Coarse) :
    (withUnready us (.rd a r :: es)).count .waitBusy = us.headD 0 + (withUnready us.tail es).count .waitBusy := by
  have : ∀ n, ((List.replicate n [Coarse.rd a r, .waitBusy]).flatten).count .waitBusy = n := by
    intro n
    induction n with
    | zero => rfl
    | succ n ih => simp [List.replicate_succ, ih]
  simp [withUnready, this]

theorem withUnready_nil (es : List Coarse) : withUnready [] es = es := by
  induction es with
  | nil => rfl
  | cons e es ih => cases e <;> simp [withUnready, ih]

/-- The environment still lets the events `es` happen, with the unready status reads `us`: their waits clear, their polls
come to an end. -/
def Willing (c : Config) (e : Env) (us : List Nat) (es : List Coarse) : Prop :=
  busyClears c.waitBound ((withUnready us es).count .waitBusy) e.busy ∧ readsReady c us es e.xfer ∧
    ∀ u ∈ us, ∀ n, c.waitBound = some n → u < n

theorem Willing.wait {s : State} {us : List Nat} {es : List Coarse} (h : Willing s.cfg s.env us (.waitBusy :: es)) :
    ∃ j rest, s.waitBusyClear 0 = .clear (s.afterBusy (List.replicate j true ++ [false]) rest) ∧
      Willing s.cfg { s.env with busy := rest } us es := by
  obtain ⟨hw, hr, hu⟩ := h
  rw [withUnready, List.count_cons_self] at hw
  obtain ⟨j, rest, hq, hb, hk⟩ := hw
  refine ⟨j, rest, State.waitBusyClear_clear hq (underBound_of_lt ?_), hk, hr, hu⟩
  intro b hb'
  simpa using hb b hb'

/-- A frame that is a write has its bytes answered. -/
theorem Willing.frame {c : Config} {bytes : List Byte} {e : Env} {us : List Nat} {es : List Coarse}
    (hp : plainFrame bytes = true) (h : Willing c e us (frameCoarse bytes :: es)) :
    Willing c (e.answers bytes.length).2 us es := by
  obtain ⟨hb, hr, hu⟩ := h
  obtain ⟨rest, hf, hl⟩ | ⟨a, rest, hf, hl⟩ := frameCoarse_plain hp <;> rw [hf] at hb hr <;> rw [hl]
  · exact ⟨by simpa [withUnready] using hb, by simpa [readsReady] using hr, hu⟩
  · exact ⟨by simpa [withUnready] using hb, by simpa [readsReady] using hr, hu⟩

theorem busyClears_length {bound : Option Nat} {n : Nat} {q : List Bool} (h : busyClears bound n q) : n ≤ q.length := by
  induction n generalizing q with
  | zero => exact Nat.zero_le _
  | succ n ih =>
    obtain ⟨j, rest, rfl, -, hk⟩ := h
    have := ih hk
    simp only [List.length_append, List.length_replicate, List.length_cons]
    omega

/-! ## One statement -/

/-- The state a fresh statement leaves. -/
def Leaves (s : State) (op : Op) (new : List Event) (cs : List Coarse) (e : Env) (t : State) : Prop :=
  t = { s.grown new with
        fb := opFb s.cfg s.fb op, ps := opPs s.ps op, configured := opConfigured s.configured op
        cs := opCs s.cs op, rst := opRst s.rst op, dev := cs.foldl (Device.see s.cfg) s.dev, env := e }

/-- One turn of the ready poll: a status read answered `r`, and its wait. -/
theorem poll_turn {s : State} {n m : Nat} {r : Byte} (hb : busyClears s.cfg.waitBound (n + 1) s.env.busy)
    (hr : s.env.xfer[1]? = some r) :
    (s.readFrame (s.cfg.regStatus ||| readFlag) s.cfg.filler).1 = r ∧
      ∃ new cs e t, (s.readFrame (s.cfg.regStatus ||| readFlag) s.cfg.filler).2.waitBusyClear 0 = .clear t ∧
        Leaves s (.pollReady m) new cs e t ∧ Emits new cs ∧
        cs.map Coarse.blank = [.rd (s.cfg.regStatus.setWidth 7) none, .waitBusy] ∧
        busyClears s.cfg.waitBound n e.busy ∧ e.xfer = s.env.xfer.drop 2 := by
  obtain ⟨j, rest, hq, hj, hk⟩ := hb
  have hl : (s.env.answers 2).1.length = [s.cfg.regStatus ||| readFlag, s.cfg.filler].length := Env.length_answers _ _
  refine ⟨?_, frameEvents [s.cfg.regStatus ||| readFlag, s.cfg.filler] (s.env.answers 2).1
      ++ (List.replicate j true ++ [false]).map Event.busy,
    [coarseFrame ([s.cfg.regStatus ||| readFlag, s.cfg.filler].zip (s.env.answers 2).1)] ++ [.waitBusy],
    { (s.env.answers 2).2 with busy := rest },
    (s.sendFrame [s.cfg.regStatus ||| readFlag, s.cfg.filler]).2.afterBusy (List.replicate j true ++ [false]) rest,
    ?_, ?_, (Emits.frame hl).append (Emits.wait j), ?_, hk, by simp⟩
  · rw [State.readFrame_response, List.getD_eq_getElem?_getD, Env.answers_getElem? hr (by decide)]
    rfl
  · exact State.waitBusyClear_clear (by simpa using hq) (underBound_of_lt (by simpa using hj))
  · rw [Leaves, State.sendFrame_eq]
    simp only [State.afterBusy, State.grown, List.foldl_append, List.foldl_cons, List.foldl_nil, Device.see,
      List.append_assoc, List.length_append, Seq.ticks_ticks]
    rfl
  · rw [List.map_append, List.map_cons, List.map_nil, blank_coarseFrame hl, frameCoarse_read]
    rfl

theorem Leaves.trans_poll {s t u : State} {a b : List Event} {x y : List Coarse} {e e' : Env} {m m' : Nat}
    (h₁ : Leaves s (.pollReady m) a x e t) (h₂ : Leaves t (.pollReady m') b y e' u) :
    Leaves s (.pollReady m) (a ++ b) (x ++ y) e' u := by
  rw [Leaves, h₂, h₁]
  simp [State.grown, opFb, opPs, opConfigured, opCs, opRst]

/-- The ready poll in an environment that answers `u` times not ready, under the bound, and then ready (R141). -/
theorem pollFrom_ready {u n m fuel : Nat} {s : State} (hf : u < fuel)
    (hb : busyClears s.cfg.waitBound (u + 1 + n) s.env.busy)
    (hu : ∀ k, k < u → ∃ r, s.env.xfer[2 * k + 1]? = some r ∧ pumpReady s.cfg r = false)
    (hr : ∃ r, s.env.xfer[2 * u + 1]? = some r ∧ pumpReady s.cfg r = true)
    (hm : ∀ b, s.cfg.waitBound = some b → m + u < b) :
    ∃ new cs e t, pollFrom fuel m s = .done t ∧ Leaves s (.pollReady m) new cs e t ∧ Emits new cs ∧
      cs.map Coarse.blank = (List.replicate u [.rd (s.cfg.regStatus.setWidth 7) none, .waitBusy]).flatten
        ++ [.rd (s.cfg.regStatus.setWidth 7) none, .waitBusy] ∧
      busyClears s.cfg.waitBound n e.busy ∧ e.xfer = s.env.xfer.drop (2 * u + 2) := by
  induction u generalizing s m fuel with
  | zero =>
    obtain ⟨fuel, rfl⟩ : ∃ f, fuel = f + 1 := ⟨fuel - 1, by omega⟩
    obtain ⟨r, hr, hp⟩ := hr
    obtain ⟨h₁, new, cs, e, t, hw, hl, he, hc, hk, hx⟩ := poll_turn (m := m) (n := n) (by rwa [Nat.zero_add, Nat.add_comm] at hb) hr
    have hcfg : t.cfg = s.cfg := by rw [hl]; rfl
    refine ⟨new, cs, e, t, ?_, hl, he, by simpa using hc, hk, hx⟩
    simp only [pollFrom, hw, h₁, hcfg, hp, if_true]
  | succ u ih =>
    obtain ⟨fuel, rfl⟩ : ∃ f, fuel = f + 1 := ⟨fuel - 1, by omega⟩
    obtain ⟨r₀, hr₀, hp₀⟩ := hu 0 (by omega)
    obtain ⟨h₁, new, cs, e, t, hw, hl, he, hc, hk, hx⟩ := poll_turn (m := m) (n := u + 1 + n)
      (by rwa [show u + 1 + n + 1 = u + 1 + 1 + n by omega]) hr₀
    have hcfg : t.cfg = s.cfg := by rw [hl]; rfl
    have henv : t.env = e := by rw [hl]
    have hnot : boundReached s.cfg.waitBound (m + 1) = false := by
      cases hbd : s.cfg.waitBound with
      | none => rfl
      | some b => simpa [boundReached] using by have := hm b hbd; omega
    have shift : ∀ k, t.env.xfer[2 * k + 1]? = s.env.xfer[2 * (k + 1) + 1]? := by
      intro k
      rw [henv, hx, List.getElem?_drop]
      congr 1
      omega
    obtain ⟨new', cs', e', t', hd', hl', he', hc', hk', hx'⟩ := ih (s := t) (m := m + 1) (fuel := fuel) (by omega)
      (by rw [hcfg, henv]; exact hk)
      (fun k hk => by rw [shift, hcfg]; exact hu (k + 1) (by omega))
      (by rw [shift, hcfg]; exact hr)
      (fun b hb => by rw [hcfg] at hb; have := hm b hb; omega)
    refine ⟨new ++ new', cs ++ cs', e', t', ?_, hl.trans_poll hl', he.append he', ?_, by rwa [hcfg] at hk', ?_⟩
    · simp only [pollFrom, hw, h₁, hcfg, hp₀, hnot, Bool.false_eq_true, if_false]
      exact hd'
    · rw [List.map_append, hc, hc', hcfg, List.replicate_succ, List.flatten_cons, List.append_assoc]
    · rw [hx', henv, hx, List.drop_drop]
      congr 1
      omega

/-- A fresh statement in a willing environment is done, and this is what it adds and leaves. -/
theorem doOp_willing {op : Op} {s : State} {us : List Nat} {es : List Coarse} (hf : fresh op = true)
    (h : Willing s.cfg s.env us (opTrace s.cfg s.fb op ++ es)) :
    ∃ new cs e t us', doOp op s = .done t ∧ Leaves s op new cs e t ∧ Emits new cs ∧
      (∀ xs, withUnready us (opTrace s.cfg s.fb op ++ xs) = cs.map Coarse.blank ++ withUnready us' xs) ∧
      Willing s.cfg e us' es := by
  have plain : ∀ (t : State), opTrace s.cfg s.fb op = [] → doOp op s = .done t →
      t = { s.grown [] with
        fb := opFb s.cfg s.fb op, ps := opPs s.ps op, configured := opConfigured s.configured op
        cs := opCs s.cs op, rst := opRst s.rst op, dev := s.dev, env := s.env } →
      ∃ new cs e t us', doOp op s = .done t ∧ Leaves s op new cs e t ∧ Emits new cs ∧
        (∀ xs, withUnready us (opTrace s.cfg s.fb op ++ xs) = cs.map Coarse.blank ++ withUnready us' xs) ∧
        Willing s.cfg e us' es := by
    intro t ht hd he
    refine ⟨[], [], s.env, t, us, hd, he, Emits.nil, by simp [ht], ?_⟩
    simpa [ht] using h
  have framed : ∀ (bytes : List Byte), plainFrame bytes = true → opTrace s.cfg s.fb op = [frameCoarse bytes] →
      doOp op s = .done (s.sendFrame bytes).2 →
      (opFb s.cfg s.fb op = s.fb ∧ opPs s.ps op = s.ps ∧ opConfigured s.configured op = s.configured ∧
        opCs s.cs op = .high ∧ opRst s.rst op = s.rst) →
      ∃ new cs e t us', doOp op s = .done t ∧ Leaves s op new cs e t ∧ Emits new cs ∧
        (∀ xs, withUnready us (opTrace s.cfg s.fb op ++ xs) = cs.map Coarse.blank ++ withUnready us' xs) ∧
        Willing s.cfg e us' es := by
    rintro bytes hp ht hd ⟨e₁, e₂, e₃, e₄, e₅⟩
    have hl : (s.env.answers bytes.length).1.length = bytes.length := Env.length_answers _ _
    refine ⟨_, _, (s.env.answers bytes.length).2, _, us, hd, ?_, Emits.frame hl, fun xs => ?_, ?_⟩
    · rw [Leaves, State.sendFrame_eq, e₁, e₂, e₃, e₄, e₅]
      rfl
    · obtain ⟨rest, hc, -⟩ | ⟨a, rest, hc, -⟩ := frameCoarse_plain hp <;>
        simp [ht, blank_coarseFrame hl, hc, withUnready]
    · rw [ht] at h
      exact h.frame hp
  cases op with
  | frame bytes => exact framed bytes hf rfl rfl ⟨rfl, rfl, rfl, rfl, rfl⟩
  | stream => exact framed _ rfl rfl rfl ⟨rfl, rfl, rfl, rfl, rfl⟩
  | wait p =>
    obtain rfl : p = 0 := by simpa [fresh] using hf
    obtain ⟨j, rest, e, hw⟩ := Willing.wait (s := s) (us := us) (es := es) h
    refine ⟨_, _, _, s.afterBusy (List.replicate j true ++ [false]) rest, us, by simp only [doOp, e], ?_,
      Emits.wait j, fun xs => by simp [opTrace, withUnready, Coarse.blank], hw⟩
    rfl
  | pollReady r =>
    obtain rfl : r = 0 := by simpa [fresh] using hf
    rw [opTrace, frameCoarse_read] at h
    obtain ⟨hb, ⟨hu, hr, hrest⟩, hbound⟩ := h
    rw [List.cons_append, count_withUnready_rd] at hb
    simp only [List.cons_append, List.nil_append, withUnready, List.count_cons_self] at hb
    have hlen := busyClears_length hb
    have hhead : ∀ b, s.cfg.waitBound = some b → 0 + us.headD 0 < b := by
      intro b hbd
      cases us with
      | nil =>
        obtain ⟨j, -, -, hj, -⟩ := hb
        have := hj b hbd
        simp only [List.headD_nil]
        omega
      | cons u us => simpa using hbound u (by simp) b hbd
    obtain ⟨new, cs, e, t, hd, hl, he, hc, hk, hx⟩ := pollFrom_ready (m := 0) (fuel := s.env.busy.length + 1)
      (n := (withUnready us.tail es).count .waitBusy) (by omega)
      (by rwa [show us.headD 0 + 1 + (withUnready us.tail es).count .waitBusy
            = us.headD 0 + ((withUnready us.tail es).count .waitBusy + 1) by omega])
      hu hr hhead
    refine ⟨new, cs, e, t, us.tail, hd, hl, he, fun xs => ?_, hk, ?_, fun u hu => hbound u (List.mem_of_mem_tail hu)⟩
    · simp only [opTrace, frameCoarse_read, List.cons_append, List.nil_append, withUnready, hc, List.append_assoc]
    · rw [hx]
      exact hrest
  | readResult _ _ => simp [fresh] at hf
  | readWait _ _ => simp [fresh] at hf
  | pollWait _ _ _ => simp [fresh] at hf
  | setPower p => exact plain _ rfl rfl (by simp [State.grown, opFb, opPs, opConfigured, opCs, opRst])
  | setReset l =>
    refine ⟨[.rst l], [.rst l], s.env, _, us, rfl, ?_, fun es => by simp [coarseFrom],
      fun xs => by simp [opTrace, withUnready, Coarse.blank], ?_⟩
    · simp [Leaves, State.grown, State.setRST, State.emit, Seq.tick_eq, opFb, opPs, opConfigured, opCs, opRst]
    · exact ⟨by simpa [opTrace, withUnready] using h.1, h.2.1, h.2.2⟩
  | delay n =>
    refine ⟨[.delay n], [.delay n], s.env, _, us, rfl, ?_, fun es => by simp [coarseFrom],
      fun xs => by simp [opTrace, withUnready, Coarse.blank], ?_⟩
    · simp [Leaves, State.grown, State.delayMs, State.emit, Seq.tick_eq, opFb, opPs, opConfigured, opCs, opRst,
        Device.see]
    · exact ⟨by simpa [opTrace, withUnready] using h.1, h.2.1, h.2.2⟩
  | clear l => exact plain _ rfl rfl (by
      simp [State.grown, State.clearFb, opFb, opPs, opConfigured, opCs, opRst])
  | invert => exact plain _ rfl rfl (by
      simp [State.grown, State.invertFb, opFb, opPs, opConfigured, opCs, opRst])
  | setSeg i l => exact plain _ rfl rfl (by
      simp [State.grown, State.setSegment, opFb, opPs, opConfigured, opCs, opRst])
  | setConfigured => exact plain _ rfl rfl (by simp [State.grown, opFb, opPs, opConfigured, opCs, opRst])

/-! ## A body -/

/-- The state a body of fresh statements leaves. -/
def LeavesAll (s : State) (ops : List Op) (new : List Event) (cs : List Coarse) (e : Env) (t : State) : Prop :=
  t = { s.grown new with
        fb := opsFb s.cfg s.fb ops, ps := opsPs s.ps ops, configured := opsConfigured s.configured ops
        cs := opsCs s.cs ops, rst := opsRst s.rst ops, dev := cs.foldl (Device.see s.cfg) s.dev, env := e }

/-- Fresh statements at the head of a body, in a willing environment, are done, and the rest of the body follows. -/
theorem runOps_append_willing {ops rest : List Op} {s : State} {us : List Nat} {es : List Coarse}
    (hf : ∀ op ∈ ops, fresh op = true) (h : Willing s.cfg s.env us (opsTrace s.cfg s.fb ops ++ es)) :
    ∃ new cs e t us', runOps (ops ++ rest) s = runOps rest t ∧ LeavesAll s ops new cs e t ∧ Emits new cs ∧
      (∀ xs, withUnready us (opsTrace s.cfg s.fb ops ++ xs) = cs.map Coarse.blank ++ withUnready us' xs) ∧
      Willing s.cfg e us' es := by
  induction ops generalizing s us with
  | nil =>
    refine ⟨[], [], s.env, s, us, rfl, ?_, Emits.nil, fun xs => rfl, ?_⟩
    · simp [LeavesAll, State.grown, opsFb, opsPs, opsConfigured, opsCs, opsRst]
    · simpa [opsTrace] using h
  | cons op ops ih =>
    simp only [opsTrace, List.append_assoc] at h
    obtain ⟨new₁, cs₁, e₁, t₁, us₁, hd, hl₁, hem₁, hb₁, hw₁⟩ := doOp_willing (hf op (by simp)) h
    have hcfg : t₁.cfg = s.cfg := by rw [hl₁]; rfl
    have hfb : t₁.fb = opFb s.cfg s.fb op := by rw [hl₁]
    have henv : t₁.env = e₁ := by rw [hl₁]
    obtain ⟨new₂, cs₂, e₂, t₂, us₂, hr, hl₂, hem₂, hb₂, hw₂⟩ := ih (s := t₁) (us := us₁)
      (fun o ho => hf o (by simp [ho])) (by rw [hcfg, hfb, henv]; exact hw₁)
    refine ⟨new₁ ++ new₂, cs₁ ++ cs₂, e₂, t₂, us₂, ?_, ?_, hem₁.append hem₂, fun xs => ?_, by rwa [hcfg] at hw₂⟩
    · simp only [List.cons_append, runOps, hd, hr]
    · rw [LeavesAll, hl₂, hl₁]
      simp [State.grown, opsFb, opsPs, opsConfigured, opsCs, opsRst]
    · rw [hcfg, hfb] at hb₂
      rw [opsTrace, List.append_assoc, hb₁, hb₂, List.map_append, List.append_assoc]

/-- A body of fresh statements in a willing environment runs to its end: `RESULT <- Ok`. -/
theorem runOps_willing {ops : List Op} {s : State} {us : List Nat} (hf : ∀ op ∈ ops, fresh op = true)
    (h : Willing s.cfg s.env us (opsTrace s.cfg s.fb ops)) :
    ∃ new cs e t, runOps ops s = t.complete .ok ∧ LeavesAll s ops new cs e t ∧
      (coarse new).map Coarse.blank = withUnready us (opsTrace s.cfg s.fb ops) ∧
      cs.foldl (Device.see s.cfg) s.dev = (opsTrace s.cfg s.fb ops).foldl (Device.see s.cfg) s.dev := by
  obtain ⟨new, cs, e, t, us', hr, hl, he, hc, -⟩ :=
    runOps_append_willing (rest := []) (es := []) hf (by rwa [List.append_nil])
  have hc' : cs.map Coarse.blank = withUnready us (opsTrace s.cfg s.fb ops) := by simpa [withUnready] using (hc []).symm
  rw [List.append_nil] at hr
  refine ⟨new, cs, e, t, hr, hl, by rw [he.coarse_eq, hc'], ?_⟩
  rw [← foldl_see_blank, hc', foldl_see_withUnready]

/-! ## Environments that answer -/

/-- A queue of ready bytes, long enough, lets every poll find the pump ready at its first status read. -/
theorem readsReady_of_all {c : Config} {es : List Coarse} {q : List Byte} (hl : sentBytes es ≤ q.length)
    (hr : ∀ r ∈ q, pumpReady c r = true) : readsReady c [] es q := by
  induction es generalizing q with
  | nil => trivial
  | cons x es ih =>
    have hd : ∀ k, ∀ r ∈ q.drop k, pumpReady c r = true := fun k r h => hr r (List.mem_of_mem_drop h)
    have go : ∀ k, k + sentBytes es ≤ q.length → readsReady c [] es (q.drop k) := fun k hk =>
      ih (by rw [List.length_drop]; omega) (hd k)
    cases x <;> simp only [sentBytes] at hl
    case wr a ops => exact go _ hl
    case rd a r =>
      have h1 : 1 < q.length := by omega
      exact ⟨fun k hk => absurd hk (Nat.not_lt_zero k),
        ⟨q[1], by rw [List.headD_nil, List.getElem?_eq_getElem h1], hr _ (List.getElem_mem h1)⟩, go _ hl⟩
    case stream data => exact go _ hl
    all_goals exact ih hl hr

/-- Enough clear samples let any number of waits clear, under any bound of at least 1. -/
theorem busyClears_replicate {bound : Option Nat} (h : ∀ b, bound = some b → 1 ≤ b) (n m : Nat) (q : List Bool) :
    n ≤ m → busyClears bound n (List.replicate m false ++ q) := by
  induction n generalizing m with
  | zero => exact fun _ => trivial
  | succ n ih =>
    intro hm
    obtain ⟨m, rfl⟩ : ∃ m', m = m' + 1 := ⟨m - 1, by omega⟩
    exact ⟨0, List.replicate m false ++ q, by simp [List.replicate_succ], fun b hb => h b hb, ih m (by omega)⟩

end Sys2Proof.Machine
end

