-- ==== Sys2Proof/Laws/Recipes.lean ====
section
/-! SUPPORT. Sys2Proof/Laws/Recipes.lean: the coarse trace of every procedure of 41 to 43 under a well-formed
configuration is the one the spec's vectors print, and what each leaves in the block's state. -/

namespace Sys2Proof.Machine

/-! ## What a well-formed configuration gives -/

/-- The geometry part of a well-formed configuration. -/
theorem wf_geometry {c : Config} (h : wellFormedConfig c = true) : geometryOk c = true := by
  simp only [wellFormedConfig, Bool.and_eq_true] at h
  exact h.1.1.1

theorem wf_registers {c : Config} (h : wellFormedConfig c = true) : registersOk c = true := by
  simp only [wellFormedConfig, Bool.and_eq_true] at h
  exact h.1.1.2

theorem wf_operands {c : Config} (h : wellFormedConfig c = true) : operandsOk c = true := by
  simp only [wellFormedConfig, Bool.and_eq_true] at h
  exact h.1.2

theorem wf_polls {c : Config} (h : wellFormedConfig c = true) : pollsOk c = true := by
  simp only [wellFormedConfig, Bool.and_eq_true] at h
  exact h.2

/-- D4. -/
theorem wf_size {c : Config} (h : wellFormedConfig c = true) : c.fbSize = c.nStream := by
  have := wf_geometry h
  simp only [geometryOk, Bool.and_eq_true, beq_iff_eq] at this
  exact this.1.1

/-- D7, first constraint. -/
theorem wf_segByte {c : Config} (h : wellFormedConfig c = true) {i : Nat} (hi : i < nSeg) :
    ∀ a ∈ segBytes c i, a < c.fbSize := by
  have := wf_geometry h
  simp only [geometryOk, Bool.and_eq_true, List.all_eq_true, List.mem_range, decide_eq_true_eq] at this
  exact this.2 i hi

/-- D8: a register the block writes can be written by a register-write frame. -/
theorem wf_written {c : Config} (h : wellFormedConfig c = true) {a : Byte} (ha : a ∈ writtenRegs c) :
    a.toNat < 0x80 ∧ a ≠ 0x10#8 := by
  have := wf_registers h
  simp only [registersOk, Bool.and_eq_true, List.all_eq_true, decide_eq_true_eq, bne_iff_ne] at this
  exact this.1.1.1.1 a ha

/-- D9: an operand list has at most 4 bytes. -/
theorem wf_operandList {c : Config} (h : wellFormedConfig c = true) {l : List Byte} (hl : l ∈ operandLists c) :
    l.length ≤ 4 := by
  have := wf_operands h
  simp only [operandsOk, Bool.and_eq_true, List.all_eq_true, decide_eq_true_eq] at this
  exact this.1.1.1.1 l hl

/-- D12: a bound is at least 1. -/
theorem wf_bound {c : Config} (h : wellFormedConfig c = true) : ∀ b, c.waitBound = some b → 1 ≤ b := by
  intro b hb
  have := wf_polls h
  simp only [pollsOk, hb, Bool.and_eq_true, decide_eq_true_eq] at this
  exact this.1

/-! ## Complements -/

@[simp] theorem flipped_flipped (data : List Byte) : flipped (flipped data) = data := by
  simp [flipped, Function.comp_def]

@[simp] theorem length_flipped (data : List Byte) : (flipped data).length = data.length := by simp [flipped]

theorem bytes_invert (c : Config) (fb : Memory) :
    (opFb c fb .invert).bytes c.fbSize = flipped (fb.bytes c.fbSize) := by
  rw [opFb, fbInverted, Memory.bytes_tabulate, flipped, Memory.bytes, List.map_map]
  rfl

theorem bytes_clear (c : Config) (fb : Memory) (l : Level) :
    (opFb c fb (.clear l)).bytes c.fbSize = List.replicate c.fbSize (pattern l) := by
  simp only [opFb, fbCleared, Memory.bytes_tabulate]
  induction c.fbSize with
  | zero => rfl
  | succ n ih => rw [List.range_succ, List.map_append, ih, List.replicate_succ']; rfl

/-! ## Register writes -/

/-- A list of statements that does not touch the FrameBuffer. -/
def quiet : Op → Bool
  | .clear _ => false
  | .invert => false
  | .setSeg _ _ => false
  | _ => true

theorem opsFb_quiet {c : Config} {fb : Memory} {ops : List Op} (h : ∀ op ∈ ops, quiet op = true) :
    opsFb c fb ops = fb := by
  induction ops generalizing fb with
  | nil => rfl
  | cons op ops ih =>
    have h₁ : opFb c fb op = fb := by
      have := h op (by simp)
      cases op <;> first | rfl | simp [quiet] at this
    simp only [opsFb, List.foldl_cons, h₁]
    exact ih fun o ho => h o (by simp [ho])

theorem trace_writeReg {c : Config} (h : wellFormedConfig c = true) (fb : Memory) {a : Byte} {ops : List Byte}
    (ha : a ∈ writtenRegs c) : opsTrace c fb (writeReg a ops) = wrT a ops := by
  obtain ⟨h7, h10⟩ := wf_written h ha
  simp [writeReg, opsTrace, opTrace, frameCoarse_write h7 h10, wrT]

theorem opsFb_writeReg (c : Config) (fb : Memory) (a : Byte) (ops : List Byte) :
    opsFb c fb (writeReg a ops) = fb := rfl

theorem trace_streamLive {c : Config} (fb : Memory) :
    opsTrace c fb (streamOps c .live) = [.stream (fb.bytes c.nStream), .waitBusy] := by
  simp [streamOps, opsTrace, opTrace, frameCoarse_stream]

theorem trace_streamFill {c : Config} (fb : Memory) (b : Byte) :
    opsTrace c fb (streamOps c (.fill b)) = [.stream (List.replicate c.nStream b), .waitBusy] := by
  simp [streamOps, opsTrace, opTrace, frameCoarse_stream]

/-- What a buffer write streams. -/
def srcBytes (c : Config) (fb : Memory) : StreamSrc → List Byte
  | .live => fb.bytes c.nStream
  | .fill b => List.replicate c.nStream b

/-- The pointer operands of a target. -/
def pointerOps (c : Config) : BufferSel → List Byte
  | .current => c.opsWpCurrent
  | .previous => c.opsWpPrevious

theorem trace_writeBuf {c : Config} (h : wellFormedConfig c = true) (fb : Memory) (target : BufferSel)
    (src : StreamSrc) :
    opsTrace c fb (writeBuf c target src) = bufT c.regWritePointer (pointerOps c target) (srcBytes c fb src) := by
  have hw : writeBuf c target src = writeReg c.regWritePointer (pointerOps c target) ++ streamOps c src := by
    cases target <;> rfl
  rw [hw, opsTrace_append, trace_writeReg h fb (by simp [writtenRegs]), opsFb_writeReg, bufT]
  cases src
  · rw [trace_streamLive]; rfl
  · rw [trace_streamFill]; rfl

theorem opsFb_writeBuf (c : Config) (fb : Memory) (target : BufferSel) (src : StreamSrc) :
    opsFb c fb (writeBuf c target src) = fb := by
  cases target <;> cases src <;> rfl

/-! ## Power -/

theorem trace_powerOn {c : Config} (h : wellFormedConfig c = true) (fb : Memory) :
    opsTrace c fb (powerOn c) = onT c := by
  have w : ∀ {a ops}, a ∈ writtenRegs c → opsTrace c fb (writeReg a ops) = wrT a ops := trace_writeReg h fb
  simp only [powerOn, opsTrace_append, opsFb_append, opsFb_writeReg]
  simp only [opsTrace, opTrace, opsFb, opFb, List.foldl_cons, List.foldl_nil, frameCoarse_read,
    List.append_nil, List.nil_append]
  rw [w (by simp [writtenRegs]), w (by simp [writtenRegs]),
    w (by simp [writtenRegs]), w (by simp [writtenRegs])]
  rfl

theorem opsFb_powerOn (c : Config) (fb : Memory) : opsFb c fb (powerOn c) = fb := rfl

theorem trace_powerOff {c : Config} (h : wellFormedConfig c = true) (fb : Memory) :
    opsTrace c fb (powerOff c) = offT c := by
  have w : ∀ {a ops}, a ∈ writtenRegs c → opsTrace c fb (writeReg a ops) = wrT a ops := trace_writeReg h fb
  simp only [powerOff, opsTrace_append, opsFb_append, opsFb_writeReg]
  simp only [opsTrace, opTrace, opsFb, opFb, List.foldl_cons, List.foldl_nil, List.append_nil, List.nil_append]
  rw [w (by simp [writtenRegs]), w (by simp [writtenRegs])]
  simp [offT]

theorem opsFb_powerOff (c : Config) (fb : Memory) : opsFb c fb (powerOff c) = fb := rfl

/-! ## Voltages and updates -/

theorem trace_setCV {c : Config} (h : wellFormedConfig c = true) (fb : Memory) (v : Int) :
    opsTrace c fb (setCV c v) = wrT c.regCommonVoltage (encodeCV v) :=
  trace_writeReg h fb (by simp [writtenRegs])

theorem opsFb_setCV (c : Config) (fb : Memory) (v : Int) : opsFb c fb (setCV c v) = fb := rfl

theorem trace_setSV {c : Config} (h : wellFormedConfig c = true) (fb : Memory) (sv : Nat) :
    opsTrace c fb (setSV c sv) = wrT c.regDriverVoltage [0x25#8, encodeSV sv] :=
  trace_writeReg h fb (by simp [writtenRegs])

theorem opsFb_setSV (c : Config) (fb : Memory) (sv : Nat) : opsFb c fb (setSV c sv) = fb := rfl

theorem trace_update {c : Config} (h : wellFormedConfig c = true) (fb : Memory) (mode : UpdateMode) (manual : Bool) :
    opsTrace c fb (update c mode manual) =
      updateT c (fb.bytes c.nStream) (progSel c mode) (trig mode) manual := by
  have hp := trace_writeReg h fb (a := c.regProgrammedWaveform) (ops := [progSel c mode]) (by simp [writtenRegs])
  have ht := trace_writeReg h fb (a := c.regEngineTrigger) (ops := [trig mode]) (by simp [writtenRegs])
  have hwait : opsTrace c fb [.wait 0] = [.waitBusy] := rfl
  have hwaitFb : opsFb c fb [.wait 0] = fb := rfl
  cases manual
  · simp only [update, updateT, opsTrace_append, opsFb_append, opsFb_writeReg, opsFb_writeBuf, opsFb_powerOn,
      trace_writeBuf h, trace_powerOn h, trace_powerOff h, Bool.false_eq_true, if_false, hp, ht, hwait, hwaitFb]
    rfl
  · have hnil : opsTrace c fb [] = [] := rfl
    have hnilFb : opsFb c fb [] = fb := rfl
    simp only [update, updateT, opsTrace_append, opsFb_append, opsFb_writeReg, opsFb_writeBuf,
      trace_writeBuf h, if_true, hp, ht, hwait, hwaitFb, hnil, hnilFb]
    rfl

theorem opsFb_update (c : Config) (fb : Memory) (mode : UpdateMode) (manual : Bool) :
    opsFb c fb (update c mode manual) = fb := by cases manual <;> rfl

theorem trace_writePrev {c : Config} (h : wellFormedConfig c = true) (fb : Memory) (l : Level) :
    opsTrace c fb (writePrev c l) = prevT c (pattern l) := by
  rw [writePrev, trace_writeBuf h]
  rfl

theorem opsFb_writePrev (c : Config) (fb : Memory) (l : Level) : opsFb c fb (writePrev c l) = fb := rfl

/-! ## Repeats -/

theorem repeatOps_succ (n : Nat) (ops : List Op) : repeatOps (n + 1) ops = ops ++ repeatOps n ops := by
  simp [repeatOps, List.replicate_succ]

theorem timesT_succ (n : Nat) (xs : List Coarse) : timesT (n + 1) xs = xs ++ timesT n xs := by
  simp [timesT, List.replicate_succ]

/-- A body that depends on the FrameBuffer's bytes only, and gives them back, repeats as its trace repeats. -/
theorem trace_repeat {c : Config} {ops : List Op} {B : List Byte} {xs : List Coarse}
    (h : ∀ fb : Memory, fb.bytes c.fbSize = B → opsTrace c fb ops = xs ∧ (opsFb c fb ops).bytes c.fbSize = B)
    (n : Nat) {fb : Memory} (hb : fb.bytes c.fbSize = B) :
    opsTrace c fb (repeatOps n ops) = timesT n xs ∧ (opsFb c fb (repeatOps n ops)).bytes c.fbSize = B := by
  induction n generalizing fb with
  | zero => exact ⟨rfl, hb⟩
  | succ n ih =>
    obtain ⟨h₁, h₂⟩ := h fb hb
    obtain ⟨i₁, i₂⟩ := ih h₂
    rw [repeatOps_succ, timesT_succ, opsTrace_append, opsFb_append, h₁, i₁]
    exact ⟨rfl, i₂⟩

theorem trace_pass {c : Config} (h : wellFormedConfig c = true) (l : Level) (mode : UpdateMode) {B : List Byte}
    (fb : Memory) (hb : fb.bytes c.fbSize = B) :
    opsTrace c fb (pass c l mode) = prevT c (pattern l) ++ updateT c B (progSel c mode) (trig mode) false ∧
      (opsFb c fb (pass c l mode)).bytes c.fbSize = B := by
  rw [pass, opsTrace_append, opsFb_append, opsFb_writePrev, opsFb_update, trace_writePrev h, trace_update h,
    ← wf_size h, hb]
  exact ⟨rfl, rfl⟩

/-! ## Voltages of the recipes -/

theorem encodeCV_zero : encodeCV 0 = [0x00#8, 0x00#8] := by decide
theorem encodeCV_pos15000 : encodeCV 15000 = [0xF4#8, 0x01#8] := by decide
theorem encodeCV_neg15000 : encodeCV (-15000) = [0xF4#8, 0x05#8] := by decide
theorem encodeCV_pos10000 : encodeCV 10000 = [0x4D#8, 0x01#8] := by decide
theorem encodeCV_neg10000 : encodeCV (-10000) = [0x4D#8, 0x05#8] := by decide
theorem encodeSV_13000 : encodeSV 13000 = 0xAA#8 := by decide
theorem encodeSV_15000 : encodeSV 15000 = 0xEE#8 := by decide
theorem encodeSV_10000 : encodeSV 10000 = 0x44#8 := by decide
theorem pattern_eq (l : Level) : pattern l = levelByte l := by cases l <;> decide

/-! ## The recipes -/

theorem trace_renderBW {c : Config} (h : wellFormedConfig c = true) {B : List Byte} {fb : Memory}
    (hb : fb.bytes c.fbSize = B) :
    opsTrace c fb (renderBW c) = whiteT c B ∧ (opsFb c fb (renderBW c)).bytes c.fbSize = B := by
  have hi : (opsFb c fb [.invert]).bytes c.fbSize = flipped B := by rw [← hb]; exact bytes_invert c fb
  have hr := trace_repeat (c := c) (ops := pass c .lightGray .full ++ pass c .lightGray .full) (B := flipped B)
    (xs := passFullT c 0xAA#8 (flipped B) ++ passFullT c 0xAA#8 (flipped B)) (fun fb' hb' => by
      obtain ⟨p₁, p₂⟩ := trace_pass h .lightGray .full fb' hb'
      obtain ⟨q₁, q₂⟩ := trace_pass h .lightGray .full _ p₂
      rw [opsTrace_append, opsFb_append, p₁, q₁]
      exact ⟨rfl, q₂⟩) 5 hi
  constructor
  · rw [renderBW]
    simp only [opsTrace_append, opsFb_append, opsFb_setCV, opsFb_setSV, trace_setCV h, trace_setSV h, hr.1,
      encodeCV_zero, encodeSV_13000]
    simp [opsTrace, opTrace, whiteT, timesT, List.replicate_succ]
  · rw [renderBW]
    simp only [opsFb_append, opsFb_setCV, opsFb_setSV]
    have := bytes_invert c (opsFb c (opsFb c fb [.invert])
      (repeatOps 5 (pass c .lightGray .full ++ pass c .lightGray .full)))
    rw [hr.2, flipped_flipped] at this
    exact this

theorem trace_renderYellow {c : Config} (h : wellFormedConfig c = true) {B : List Byte} {fb : Memory}
    (hb : fb.bytes c.fbSize = B) :
    opsTrace c fb (renderYellow c) = yellowT c B ∧ (opsFb c fb (renderYellow c)).bytes c.fbSize = B := by
  have hr := trace_repeat (c := c) (fun fb' hb' => trace_pass h .lightGray .full (B := B) fb' hb') 3 hb
  rw [renderYellow]
  simp only [opsTrace_append, opsFb_append, opsFb_setCV, opsFb_setSV, trace_setCV h, trace_setSV h, hr.1,
    encodeCV_pos15000, encodeSV_15000]
  exact ⟨rfl, hr.2⟩

theorem trace_renderGreen {c : Config} (h : wellFormedConfig c = true) {B : List Byte} {fb : Memory}
    (hb : fb.bytes c.fbSize = B) :
    opsTrace c fb (renderGreen c) = greenT c B ∧ (opsFb c fb (renderGreen c)).bytes c.fbSize = B := by
  have hr := trace_repeat (c := c) (fun fb' hb' => trace_pass h .white .mono (B := B) fb' hb') 3 hb
  rw [renderGreen]
  simp only [opsTrace_append, opsFb_append, opsFb_setCV, opsFb_setSV, trace_setCV h, trace_setSV h, hr.1,
    encodeCV_zero, encodeSV_13000]
  exact ⟨rfl, hr.2⟩

theorem trace_redBlock {c : Config} (h : wellFormedConfig c = true) {B : List Byte} {fb : Memory}
    (hb : fb.bytes c.fbSize = B) :
    opsTrace c fb (redBlock c) = redBlockT c B ∧ (opsFb c fb (redBlock c)).bytes c.fbSize = B := by
  refine trace_repeat (c := c) (fun fb' hb' => ?_) 2 hb
  have hi : (opsFb c fb' [.invert, .delay 10]).bytes c.fbSize = flipped B := by
    rw [← hb']; exact bytes_invert c fb'
  have hi' : (opsFb c (opsFb c fb' [.invert, .delay 10]) [.invert, .delay 10]).bytes c.fbSize = B := by
    have := bytes_invert c (opsFb c fb' [.invert, .delay 10])
    rw [hi, flipped_flipped] at this
    exact this
  constructor
  · simp only [opsTrace_append, opsFb_append, opsFb_setCV, opsFb_writePrev, opsFb_update, trace_setCV h,
      trace_writePrev h, trace_update h, encodeCV_pos10000, encodeCV_neg10000, ← wf_size h, hb', hi]
    rfl
  · simp only [opsFb_append, opsFb_setCV, opsFb_writePrev, opsFb_update]
    exact hi'

theorem trace_renderRed {c : Config} (h : wellFormedConfig c = true) {B : List Byte} {fb : Memory}
    (hb : fb.bytes c.fbSize = B) :
    opsTrace c fb (renderRed c) = redT c B ∧ (opsFb c fb (renderRed c)).bytes c.fbSize = B := by
  have hr := trace_redBlock h hb
  rw [renderRed]
  simp only [opsTrace_append, opsFb_append, opsFb_setSV, trace_setSV h, hr.1, encodeSV_10000]
  exact ⟨rfl, hr.2⟩

theorem trace_renderBlue {c : Config} (h : wellFormedConfig c = true) {B : List Byte} {fb : Memory}
    (hb : fb.bytes c.fbSize = B) :
    opsTrace c fb (renderBlue c) = blueT c B ∧ (opsFb c fb (renderBlue c)).bytes c.fbSize = flipped B := by
  have hr := trace_redBlock h hb
  have hi : (opsFb c (opsFb c fb (redBlock c)) [.invert]).bytes c.fbSize = flipped B := by
    rw [← hr.2]; exact bytes_invert c _
  have ht := trace_repeat (c := c) (ops := pass c .lightGray .mono ++ [.delay 1]) (B := flipped B)
    (xs := passMonoT c 0xAA#8 (flipped B) ++ [.delay 1]) (fun fb' hb' => by
      obtain ⟨p₁, p₂⟩ := trace_pass h .lightGray .mono fb' hb'
      rw [opsTrace_append, opsFb_append, p₁]
      exact ⟨rfl, p₂⟩) 2 hi
  have hlead : opsFb c fb (if c.blueLeadingSv then setSV c 10000 else []) = fb := by
    cases c.blueLeadingSv <;> rfl
  have hleadT : opsTrace c fb (if c.blueLeadingSv then setSV c 10000 else []) =
      (if c.blueLeadingSv then wrT c.regDriverVoltage [0x25#8, 0x44#8] else []) := by
    cases c.blueLeadingSv
    · rfl
    · simp only [if_true, trace_setSV h, encodeSV_10000]
  rw [renderBlue]
  simp only [opsTrace_append, opsFb_append, opsFb_setSV, opsFb_setCV, trace_setSV h, trace_setCV h, hlead, hleadT,
    hr.1, ht.1, encodeSV_10000, encodeCV_neg10000]
  refine ⟨?_, ht.2⟩
  simp only [opsTrace, opTrace, List.append_nil, blueT]

theorem trace_recipe {c : Config} (h : wellFormedConfig c = true) (col : Colour) {B : List Byte} {fb : Memory}
    (hb : fb.bytes c.fbSize = B) :
    opsTrace c fb (recipe c col) = renderT c B col ∧
      (opsFb c fb (recipe c col)).bytes c.fbSize = (if col = .blue then flipped B else B) := by
  cases col
  · exact trace_renderBW h hb
  · exact trace_renderBW h hb
  · exact trace_renderYellow h hb
  · exact trace_renderGreen h hb
  · exact trace_renderRed h hb
  · exact trace_renderBlue h hb

/-! ## Initialisation -/

theorem modeBytes_eq (c : Config) (m : UpdateMode) : modeBytes c m = (progSel c m, trig m) := by cases m <;> rfl

theorem trace_erasePasses {c : Config} (h : wellFormedConfig c = true) {B : List Byte} {fb : Memory}
    (hb : fb.bytes c.fbSize = B) :
    opsTrace c fb (erasePasses c) = timesT 3 (erasePassT c B) ∧ (opsFb c fb (erasePasses c)).bytes c.fbSize = B := by
  refine trace_repeat (c := c) (fun fb' hb' => ?_) 3 hb
  rw [erasePassT, modeBytes_eq]
  exact trace_pass h .lightGray c.eraseMode fb' hb'

theorem bytes_opsClear {c : Config} (h : wellFormedConfig c = true) (fb : Memory) (l : Level) :
    (opsFb c fb [.clear l]).bytes c.fbSize = plainT c (levelByte l) := by
  have := bytes_clear c fb l
  rw [pattern_eq] at this
  rw [plainT, ← wf_size h]
  exact this

theorem trace_screenErase {c : Config} (h : wellFormedConfig c = true) (fb : Memory) :
    opsTrace c fb (screenErase c) = eraseT c ∧
      (opsFb c fb (screenErase c)).bytes c.fbSize = plainT c (levelByte c.eraseFinalLevel) := by
  have half : ∀ (fb : Memory) (l : Level),
      opsTrace c (opsFb c fb [.clear l]) (erasePasses c) = timesT 3 (erasePassT c (plainT c (levelByte l))) :=
    fun fb l => (trace_erasePasses h (bytes_opsClear h fb l)).1
  have once : ∀ fb : Memory, opsTrace c fb
      (setCV c 15000 ++ [.clear .black] ++ erasePasses c ++ [.delay c.eraseDelayMs]
        ++ setCV c (-15000) ++ [.clear c.eraseNegLevel] ++ erasePasses c ++ [.delay c.eraseDelayMs]) =
      wrT c.regCommonVoltage [0xF4#8, 0x01#8] ++ timesT 3 (erasePassT c (plainT c 0x00#8))
        ++ [.delay c.eraseDelayMs]
        ++ wrT c.regCommonVoltage [0xF4#8, 0x05#8] ++ timesT 3 (erasePassT c (plainT c (levelByte c.eraseNegLevel)))
        ++ [.delay c.eraseDelayMs] := by
    intro fb
    simp only [opsTrace_append, opsFb_append, opsFb_setCV, trace_setCV h, encodeCV_pos15000, encodeCV_neg15000,
      half]
    simp only [opsTrace, opTrace, List.append_nil]
    rfl
  have rep : ∀ (n : Nat) (fb : Memory) (ops : List Op) (xs : List Coarse), (∀ fb, opsTrace c fb ops = xs) →
      opsTrace c fb (repeatOps n ops) = timesT n xs := by
    intro n fb ops xs hx
    induction n generalizing fb with
    | zero => rfl
    | succ n ih => rw [repeatOps_succ, timesT_succ, opsTrace_append, hx, ih]
  rw [screenErase]
  constructor
  · simp only [opsTrace_append, opsFb_append, trace_setCV h, encodeCV_zero, rep 2 fb _ _ once]
    simp only [opsTrace, opTrace, List.append_nil, eraseT]
  · simp only [opsFb_append, opsFb_setCV]
    exact bytes_opsClear h _ _

theorem trace_begin {c : Config} (h : wellFormedConfig c = true) (fb : Memory) :
    opsTrace c fb (beginOps c) = beginT c ∧
      (opsFb c fb (beginOps c)).bytes c.fbSize = plainT c (levelByte c.eraseFinalLevel) := by
  have w : ∀ {a ops}, a ∈ writtenRegs c → opsTrace c fb (writeReg a ops) = wrT a ops := trace_writeReg h fb
  have hreset : opsFb c fb (if c.hasResetLine then hardwareReset else softwareReset c) = fb := by
    cases c.hasResetLine <;> rfl
  have hinit : opsFb c fb (initRegisters c) = fb := by
    simp only [initRegisters, opsFb_append, opsFb_writeReg]
  have hconf : ∀ fb', opsFb c fb' [.setConfigured] = fb' := fun _ => rfl
  have hconfT : ∀ fb', opsTrace c fb' [.setConfigured] = [] := fun _ => rfl
  have hresetT : opsTrace c fb (if c.hasResetLine then hardwareReset else softwareReset c) =
      (if c.hasResetLine then
        [.rst .high, .delay 5, .rst .low, .delay 5, .rst .high, .delay 5, .waitBusy]
      else wrT c.regSoftwareReset c.opsSoftwareReset) := by
    cases c.hasResetLine
    · exact w (by simp [writtenRegs])
    · rfl
  have hinitT : opsTrace c fb (initRegisters c) =
      wrT c.regPanelGeometry c.opsPanelGeometry ++ wrT c.regPixelRect c.opsPixelRect
        ++ wrT c.regCvInit c.opsCvInit ++ wrT c.regIntervalSync c.opsIntervalSync
        ++ wrT c.regDriverVoltage c.opsDriverVoltageInit ++ wrT c.regBorder c.opsBorder
        ++ wrT c.regMonoWaveform c.opsMonoWaveform ++ wrT c.regBoost c.opsBoost := by
    simp only [initRegisters, opsTrace_append, opsFb_append, opsFb_writeReg]
    rw [w (by simp [writtenRegs]), w (by simp [writtenRegs]),
      w (by simp [writtenRegs]), w (by simp [writtenRegs]),
      w (by simp [writtenRegs]), w (by simp [writtenRegs]),
      w (by simp [writtenRegs]), w (by simp [writtenRegs])]
  obtain ⟨e₁, e₂⟩ := trace_screenErase h fb
  rw [beginOps]
  constructor
  · rw [opsTrace_append, opsTrace_append, opsTrace_append, opsFb_append, hreset, hresetT, hinit, hinitT, e₁, hconfT,
      List.append_nil, beginT]
    simp only [List.append_assoc]
  · rw [opsFb_append, opsFb_append, opsFb_append, hreset, hinit, hconf]
    exact e₂

/-! ## No procedure holds a half-done wait or a read but the ready poll's -/

theorem fresh_writeReg {c : Config} (h : wellFormedConfig c = true) {a : Byte} (ha : a ∈ writtenRegs c)
    (ops : List Byte) : ∀ op ∈ writeReg a ops, fresh op = true := by
  obtain ⟨h7, h10⟩ := wf_written h ha
  simp [writeReg, fresh, plainFrame, frameKind_write h7 h10]

theorem fresh_writeBuf {c : Config} (h : wellFormedConfig c = true) (target : BufferSel) (src : StreamSrc) :
    ∀ op ∈ writeBuf c target src, fresh op = true := by
  simp only [writeBuf, List.forall_mem_append]
  refine ⟨fresh_writeReg h (by simp [writtenRegs]) _, ?_⟩
  cases src <;> simp [streamOps, fresh, plainFrame, frameKind, opcBufWrite]

theorem fresh_powerOn {c : Config} (h : wellFormedConfig c = true) : ∀ op ∈ powerOn c, fresh op = true := by
  simp only [powerOn, List.forall_mem_append]
  and_intros <;> first
    | exact fresh_writeReg h (by simp [writtenRegs]) _
    | simp [fresh]

theorem fresh_powerOff {c : Config} (h : wellFormedConfig c = true) : ∀ op ∈ powerOff c, fresh op = true := by
  simp only [powerOff, List.forall_mem_append]
  and_intros <;> first
    | exact fresh_writeReg h (by simp [writtenRegs]) _
    | simp [fresh]

theorem fresh_setCV {c : Config} (h : wellFormedConfig c = true) (v : Int) : ∀ op ∈ setCV c v, fresh op = true :=
  fresh_writeReg h (by simp [writtenRegs]) _

theorem fresh_setSV {c : Config} (h : wellFormedConfig c = true) (sv : Nat) : ∀ op ∈ setSV c sv, fresh op = true :=
  fresh_writeReg h (by simp [writtenRegs]) _

theorem fresh_update {c : Config} (h : wellFormedConfig c = true) (mode : UpdateMode) (manual : Bool) :
    ∀ op ∈ update c mode manual, fresh op = true := by
  simp only [update, List.forall_mem_append]
  cases manual <;> and_intros <;> first
    | exact fresh_writeBuf h _ _
    | exact fresh_writeReg h (by simp [writtenRegs]) _
    | exact fresh_powerOn h
    | exact fresh_powerOff h
    | simp [fresh]

theorem fresh_repeat {ops : List Op} (h : ∀ op ∈ ops, fresh op = true) (n : Nat) :
    ∀ op ∈ repeatOps n ops, fresh op = true := by
  induction n with
  | zero => simp [repeatOps]
  | succ n ih =>
    rw [repeatOps_succ, List.forall_mem_append]
    exact ⟨h, ih⟩

theorem fresh_pass {c : Config} (h : wellFormedConfig c = true) (l : Level) (mode : UpdateMode) :
    ∀ op ∈ pass c l mode, fresh op = true :=
  List.forall_mem_append.2 ⟨fresh_writeBuf h _ _, fresh_update h mode false⟩

theorem fresh_redBlock {c : Config} (h : wellFormedConfig c = true) : ∀ op ∈ redBlock c, fresh op = true := by
  refine fresh_repeat ?_ 2
  simp only [List.forall_mem_append]
  and_intros <;> first
    | exact fresh_writeBuf h _ _
    | exact fresh_setCV h _
    | exact fresh_update h _ _
    | simp [fresh]

theorem fresh_recipe {c : Config} (h : wellFormedConfig c = true) (col : Colour) :
    ∀ op ∈ recipe c col, fresh op = true := by
  have bw : ∀ op ∈ renderBW c, fresh op = true := by
    simp only [renderBW, List.forall_mem_append]
    exact ⟨⟨⟨⟨fresh_setCV h _, fresh_setSV h _⟩, by simp [fresh]⟩,
      fresh_repeat (List.forall_mem_append.2 ⟨fresh_pass h _ _, fresh_pass h _ _⟩) _⟩, by simp [fresh]⟩
  cases col
  · exact bw
  · exact bw
  · simp only [recipe, renderYellow, List.forall_mem_append]
    exact ⟨⟨fresh_setCV h _, fresh_setSV h _⟩, fresh_repeat (fresh_pass h _ _) _⟩
  · simp only [recipe, renderGreen, List.forall_mem_append]
    exact ⟨⟨fresh_setCV h _, fresh_setSV h _⟩, fresh_repeat (fresh_pass h _ _) _⟩
  · simp only [recipe, renderRed, List.forall_mem_append]
    exact ⟨fresh_setSV h _, fresh_redBlock h⟩
  · simp only [recipe, renderBlue, List.forall_mem_append]
    refine ⟨⟨⟨⟨⟨?_, fresh_redBlock h⟩, fresh_setSV h _⟩, fresh_setCV h _⟩, by simp [fresh]⟩,
      fresh_repeat (List.forall_mem_append.2 ⟨fresh_pass h _ _, by simp [fresh]⟩) _⟩
    cases c.blueLeadingSv
    · simp
    · exact fresh_setSV h _

theorem fresh_begin {c : Config} (h : wellFormedConfig c = true) : ∀ op ∈ beginOps c, fresh op = true := by
  have passes : ∀ op ∈ erasePasses c, fresh op = true := fresh_repeat (fresh_pass h _ _) _
  have screen : ∀ op ∈ screenErase c, fresh op = true := by
    simp only [screenErase, List.forall_mem_append]
    refine ⟨⟨fresh_repeat ?_ 2, by simp [fresh]⟩, fresh_setCV h _⟩
    simp only [List.forall_mem_append]
    and_intros <;> first
      | exact fresh_setCV h _
      | exact passes
      | simp [fresh]
  simp only [beginOps, initRegisters, List.forall_mem_append]
  and_intros <;> first
    | exact fresh_writeReg h (by simp [writtenRegs]) _
    | exact screen
    | (cases c.hasResetLine
       · exact fresh_writeReg h (by simp [writtenRegs]) _
       · simp [hardwareReset, fresh])
    | simp [fresh]

end Sys2Proof.Machine
end

