-- ==== Sys2Proof/Tests/Slice0.lean ====
section
/-! SUPPORT. Sys2Proof/Tests/Slice0.lean: the model's own tests. Expected values come from 95_test_vectors.md (the
vector's name stands before the test) or are written out from the encoding tables of 30_encoding.md. The last part
gives, for each statement with hypotheses, states and operands that meet them. -/

namespace Sys2Proof.Machine

/-! ## Helpers -/

/-- Configured, idle, every byte of `FB` 0x00, with the given configuration and answers. -/
def readyWith (c : Config) (xfer : List Byte) (busy : List Bool) : State :=
  { State.resetWith c [] with
    configured := true
    env := { xfer := xfer, busy := busy, xferCount := 0, busyCount := 0 } }

/-- The prompt environment of 95_test_vectors.md section 0, for `n` answers of each kind, every byte 0x01. -/
def promptly (c : Config) (n : Nat) : State := readyWith c (List.replicate n 0x01#8) (List.replicate n false)

/-- `EX` with a bound of 2 polls. -/
def boundTwo : Config := { Config.ex with waitBound := some 2 }

/-- `EX` with a bound of 1 poll. -/
def boundOne : Config := { Config.ex with waitBound := some 1 }

/-- `EX` with `STRICT = false`. -/
def lax : Config := { Config.ex with strict := false }

/-- `EX` with a stream of 66 bytes: a panel whose five tiles are counted in pixels. -/
def tiny : Config :=
  { Config.ex with fbSize := 66, panelWidth := 66, bufferRows := 4, segUnit := .pixel, segTable := List.range 22 }

/-- What a test looks at in the next state; nothing where there is none. -/
def peek {α : Type} (f : State → α) : Host.Outcome State Fault Refusal → Option α
  | .next s => some (f s)
  | .fault _ => none
  | .refused _ => none

/-- The refusal, where there is one. -/
def refusalOf : Host.Outcome State Fault Refusal → Option Refusal
  | .next _ => none
  | .fault _ => none
  | .refused r => some r

/-- A next state that passes a check. -/
theorem exists_next {o : Host.Outcome State Fault Refusal} {P : State → Prop} [DecidablePred P]
    (h : peek (fun t => decide (P t)) o = some true) : ∃ t, o = .next t ∧ P t := by
  cases o with
  | next t => exact ⟨t, rfl, by simpa [peek] using h⟩
  | fault r => cases h
  | refused r => cases h

set_option maxRecDepth 100000

/-! ## Well-formedness: a term that each check refuses -/

theorem test_wellFormed_refuses_write_to_0x10 : (Instr.wWrreg 0x10#7 []).wellFormed 300 = false := by decide
theorem test_wellFormed_refuses_five_operands :
    (Instr.wWrreg 0x0C#7 [1#8, 2#8, 3#8, 4#8, 5#8]).wellFormed 300 = false := by decide
theorem test_wellFormed_refuses_short_stream : (Instr.wWrbuf [0#8]).wellFormed 300 = false := by decide
theorem test_named_refuses_index_22 : (Instr.fbSetseg 22#5 .black).named = false := by decide
theorem test_named_refuses_mode_3 : (Instr.wsUpdate 3#2 false).named = false := by decide
theorem test_named_refuses_colour_6 : (Instr.wsRender 6#3).named = false := by decide
theorem test_config_ex_admitted : wellFormedConfig Config.ex = true := by decide
theorem test_config_refuses_wrong_size : wellFormedConfig { Config.ex with fbSize := 299 } = false := by decide
theorem test_config_refuses_shared_address :
    wellFormedConfig { Config.ex with regTiming := 0x0C#8 } = false := by decide
theorem test_config_refuses_equal_rails :
    wellFormedConfig { Config.ex with opsRailsUp := [0xD0#8] } = false := by decide
theorem test_config_refuses_bound_zero :
    wellFormedConfig { Config.ex with waitBound := some 0 } = false := by decide

/-! ## Decoding: every constructor from a word written out by R73 or from section 2's vectors -/

theorem test_decode_fbClear : decode 0x01000000000002#56 = .ok (.fbClear .lightGray) := by rfl
theorem test_decode_fbInvert : decode 0x02000000000000#56 = .ok .fbInvert := by rfl
theorem test_decode_fbSetseg : decode 0x03000000001503#56 = .ok (.fbSetseg 21#5 .white) := by rfl
theorem test_decode_fbDrawsegs : decode 0x0400003FFFFF00#56 = .ok (.fbDrawsegs 0x3FFFFF#32 .black) := by rfl
/-- P4: all four operands present. -/
theorem test_decode_rpWrreg :
    decode 0x100C0F00EF0093#56 = .ok (.rpWrreg 0x0C#8 0b1111#4 0x00#8 0xEF#8 0x00#8 0x93#8) := by rfl
theorem test_decode_rpRdreg : decode 0x11150000000000#56 = .ok (.rpRdreg 0x15#8) := by rfl
/-- P9: target bit 0, fillsel bit 1, fill bits 15 to 8. -/
theorem test_decode_rpWrbuf : decode 0x1200000000AA03#56 = .ok (.rpWrbuf .previous .fill 0xAA#8) := by rfl
theorem test_decode_psOn : decode 0x20000000000000#56 = .ok .psOn := by rfl
theorem test_decode_psOff : decode 0x21000000000000#56 = .ok .psOff := by rfl
theorem test_decode_wsBegin : decode 0x30000000000000#56 = .ok .wsBegin := by rfl
theorem test_decode_wsUpdate : decode 0x31000000000006#56 = .ok (.wsUpdate 2#2 true) := by rfl
theorem test_decode_wsRender : decode 0x32000000000005#56 = .ok (.wsRender 5#3) := by rfl
theorem test_decode_wsSetcv : decode 0x3300000000D8F0#56 = .ok (.wsSetcv (BitVec.ofInt 16 (-10000))) := by rfl
theorem test_decode_wsSetsv : decode 0x340000000032C8#56 = .ok (.wsSetsv 13000#16) := by rfl
theorem test_decode_wWrreg : decodeFrame 300 [0x14#8, 0x03#8] = .ok (.wWrreg 0x14#7 [0x03#8]) := by rfl
theorem test_decode_wRdreg : decodeFrame 300 [0x95#8, 0x00#8] = .ok (.wRdreg 0x15#7 0x00#8) := by rfl
theorem test_decode_wWrbuf :
    decodeFrame 2 [0x10#8, 0xFF#8, 0xFC#8] = .ok (.wWrbuf [0xFF#8, 0xFC#8]) := by rfl
/-- Section 2.2, frame classification by the first byte: 0x10, 0x95, 0x0F and 0x90. -/
theorem test_frameKind : [frameKind 0x10#8, frameKind 0x95#8, frameKind 0x0F#8, frameKind 0x90#8]
    = [.bufWrite, .regRead 0x15#7, .regWrite 0x0F#7, .regRead 0x10#7] := by decide
/-- Section 2.2, frame classification: 0x90 is a read of register 0x10. -/
theorem test_decode_read_of_0x10 : decodeFrame 300 [0x90#8, 0x00#8] = .ok (.wRdreg 0x10#7 0x00#8) := by rfl
/-- P12. -/
theorem test_decode_unknown_opcode : decode 0x05000000000000#56 = .error (.unknownOpcode 0x05#8) := by rfl
/-- Bits no field uses are ignored (R73). -/
theorem test_decode_ignores_unused : decode 0x01FFFFFFFFFFFE#56 = .ok (.fbClear .lightGray) := by rfl
theorem test_table_word_frame : decodeTableWord 8 0x14 = some (.wWrreg 0x14#7 []) := by rfl

/-! ## Operands: the tables of sections 2.1 and 2.4 -/

theorem test_setField_msb :
    [setField true 0xFF#8 1 .black, setField true 0x00#8 1 .lightGray, setField true 0x1B#8 1 .lightGray,
      setField true 0x00#8 0 .white] = [0xCF#8, 0x20#8, 0x2B#8, 0xC0#8] := by decide
theorem test_setField_lsb :
    [setField false 0xFF#8 1 .black, setField false 0x00#8 1 .lightGray, setField false 0x1B#8 0 .black,
      setField false 0x00#8 3 .white] = [0xF3#8, 0x08#8, 0x18#8, 0xC0#8] := by decide
theorem test_encodeCV_in_range :
    [encodeCV 0, encodeCV (-1), encodeCV 10000, encodeCV (-10000), encodeCV 30719, encodeCV (-30719)]
      = [[0x00#8, 0x00#8], [0x00#8, 0x04#8], [0x4D#8, 0x01#8], [0x4D#8, 0x05#8], [0xFF#8, 0x03#8],
         [0xFF#8, 0x07#8]] := by decide
theorem test_encodeCV_out_of_range :
    [encodeCV 30720, encodeCV (-30720), encodeCV 32767, encodeCV (-32768)]
      = [[0x00#8, 0x04#8], [0x00#8, 0x04#8], [0x44#8, 0x04#8], [0x44#8, 0x04#8]] := by decide
theorem test_encodeSV :
    [encodeSV 8999, encodeSV 13000, encodeSV 15999, encodeSV 16000, encodeSV 20000, encodeSV 7999, encodeSV 0,
      encodeSV 65535] = [0x00#8, 0xAA#8, 0xEE#8, 0x10#8, 0x98#8, 0xFE#8, 0xF0#8, 0x72#8] := by decide

/-! ## One step of each instruction -/

/-- F2. -/
theorem test_fbClear : peek (fun t => (t.fb.read 0, t.fb.read 299, t.result))
    (exec (.fbClear .lightGray) State.reset) = some (0xAA#8, 0xAA#8, .ok) := by decide +kernel
/-- F5. -/
theorem test_fbInvert : peek (fun t => (t.fb.read 5, t.fb.read 6, t.fb.read 7))
    (exec .fbInvert { State.reset with fb := [(5, 0xFC#8), (6, 0x1B#8), (7, 0xFF#8)] })
      = some (0x03#8, 0xE4#8, 0x00#8) := by decide +kernel
/-- F7. -/
theorem test_fbSetseg : peek (fun t => t.fb) (exec (.fbSetseg 1#5 .lightGray) State.reset)
    = some [(5, 0x20#8), (65, 0x20#8), (125, 0x20#8), (185, 0x20#8), (245, 0x20#8)] := by decide +kernel
/-- F10's addresses: offsets in pixels, from all 0x00. -/
theorem test_fbSetseg_pixels : peek (fun t => t.fb)
    (exec (.fbSetseg 3#5 .white) { State.reset with cfg := { Config.ex with segUnit := .pixel } })
    = some [(1, 0x03#8), (16, 0x03#8), (31, 0x03#8), (46, 0x03#8), (61, 0x03#8)] := by decide +kernel
/-- F11's segments, from all 0x00: segment 0 at sub-field 0, segment 3 at sub-field 3. -/
theorem test_fbDrawsegs : peek (fun t => (t.fb.length, t.fb.read 64, t.fb.read 247))
    (exec (.fbDrawsegs 0b1001#32 .darkGray) State.reset) = some (10, 0x40#8, 0x01#8) := by decide +kernel
/-- F13. -/
theorem test_fbDrawsegs_high_bits : peek (fun t => t.fb) (exec (.fbDrawsegs 0xFFC00000#32 .white) State.reset)
    = some [] := by decide +kernel
/-- P1, its fine trace. -/
theorem test_rpWrreg : peek (fun t => (t.trace, t.result))
    (exec (.rpWrreg 0x14#8 0b0001#4 0x03#8 0#8 0#8 0#8) (readyWith Config.ex [0x0A#8, 0x0B#8] [false]))
    = some ([.cs .low, .xfer 0x14#8 0x0A#8, .xfer 0x03#8 0x0B#8, .cs .high, .busy false], .ok) := by decide +kernel
/-- Section 2.2, busy handshake with `some(2)`: the timeout after two busy samples. -/
theorem test_rpWrreg_timeout : peek (fun t => (t.trace.drop 4, t.result, t.cs))
    (exec (.rpWrreg 0x14#8 0b0001#4 0x03#8 0#8 0#8 0#8) (readyWith boundTwo [0#8, 0#8] [true, true, false]))
    = some ([.busy true, .busy true], .deviceTimeout, .high) := by decide +kernel
/-- P7 and P8 with `STRICT = false`: `10 00`, which a device takes for a buffer write, and `80`, for a read of register 0. -/
theorem test_rpWrreg_lax :
    peek (fun t => coarse t.trace) (exec (.rpWrreg 0x10#8 1#4 0#8 0#8 0#8 0#8) (promptly lax 2))
        = some [.stream [0x00#8], .waitBusy] ∧
      peek (fun t => coarse t.trace) (exec (.rpWrreg 0x80#8 0#4 0#8 0#8 0#8 0#8) (promptly lax 2))
        = some [.rd 0x00#7 none, .waitBusy] := by decide +kernel
/-- P5, its fine trace. -/
theorem test_rpRdreg : peek (fun t => (t.trace, t.result))
    (exec (.rpRdreg 0x15#8) (readyWith Config.ex [0x00#8, 0x5A#8] [false]))
    = some ([.cs .low, .xfer 0x95#8 0x00#8, .xfer 0x00#8 0x5A#8, .cs .high, .busy false], .okValue 0x5A#8) := by decide +kernel
/-- P9: 2 and 301 bytes on the bus. -/
theorem test_rpWrbuf : peek (fun t => (t.trace.length, t.dev.prev.map List.length, t.dev.prev.map List.getLast?))
    (exec (.rpWrbuf .previous .fill 0xAA#8) (promptly Config.ex 303))
    = some (309, some 300, some (some 0xAA#8)) := by decide +kernel
/-- Q2: two status reads that are not ready, 0x00 and 0xFE, then 0x01. -/
theorem test_psOn : peek (fun t => (t.ps, t.result, (Coarse.tally (coarse t.trace)).2.2.1, t.env.xfer))
    (exec .psOn (readyWith Config.ex
      (List.replicate 14 0x00#8 ++ [0#8, 0x00#8, 0#8, 0xFE#8, 0#8, 0x01#8]) (List.replicate 8 false)))
    = some (.up, .ok, 3, []) := by decide +kernel
/-- Q6. -/
theorem test_psOn_timeout : peek (fun t => (t.ps, t.result))
    (exec .psOn (readyWith boundTwo (List.replicate 18 0x00#8) (List.replicate 7 false)))
    = some (.poweringUp, .deviceTimeout) := by decide +kernel
/-- The fine trace of Q3. -/
theorem test_psOff : peek (fun t => (t.trace, t.ps))
    (exec .psOff (readyWith Config.ex (List.replicate 4 0x00#8) (List.replicate 4 false)))
    = some ([.cs .low, .xfer 0x03#8 0#8, .xfer 0xD0#8 0#8, .cs .high, .busy false, .busy false,
        .cs .low, .xfer 0x03#8 0#8, .xfer 0xC0#8 0#8, .cs .high, .busy false, .busy false], .down) := by decide +kernel
/-- W10: the last values, and 218 busy samples used. -/
theorem test_wsBegin : peek (fun t => (t.fb.read 299, t.ps, t.configured, t.env.busy, t.result))
    (exec .wsBegin { readyWith Config.ex (List.replicate 8000 0x01#8) (List.replicate 218 false) with configured := false })
    = some (0xFF#8, .down, true, [], .ok) := by decide +kernel
/-- W2: the flush, the mono program-select and trigger, no power call. -/
theorem test_wsUpdate : peek (fun t => (t.dev.triggers.map (fun g => (g.progsel, g.trigger)), t.env.busy, t.ps))
    (exec (.wsUpdate 2#2 true) (readyWith Config.ex (List.replicate 307 0x01#8) (List.replicate 5 false)))
    = some ([(some [0x02#8], [0x07#8])], [], .down) := by decide +kernel
/-- W15: a timeout in the explicit wait after the trigger leaves the rails up. -/
theorem test_wsUpdate_timeout : peek (fun t => (t.ps, t.result))
    (exec (.wsUpdate 0#2 false) (readyWith boundOne (List.replicate 400 0x01#8) (List.replicate 10 false ++ [true])))
    = some (.up, .deviceTimeout) := by decide +kernel
/-- W8 on the small panel: blue leaves `FB` complemented, after 108 busy samples. -/
theorem test_wsRender_blue : peek (fun t => (t.fb.read 65, t.env.busy, t.result))
    (exec (.wsRender 5#3) (readyWith tiny (List.replicate 4000 0x01#8) (List.replicate 108 false)))
    = some (0xFF#8, [], .ok) := by decide +kernel
/-- W14: a timeout after the first inversion leaves `FB` complemented. -/
theorem test_wsRender_timeout : peek (fun t => (t.fb.read 299, t.ps, t.result))
    (exec (.wsRender 1#3) (readyWith boundOne (List.replicate 20 0x01#8) [false, false, true]))
    = some (0xFF#8, .down, .deviceTimeout) := by decide +kernel
/-- -15000 mV: the frame `1B F4 05`. -/
theorem test_wsSetcv : peek (fun t => (t.dev.cv, t.result))
    (exec (.wsSetcv 0xC568#16) (promptly Config.ex 3)) = some (some [0xF4#8, 0x05#8], .ok) := by decide +kernel
/-- 30720 mV is out of range, and is sent with `STRICT = false`. -/
theorem test_wsSetcv_range :
    peek (fun t => (t.result, t.trace)) (exec (.wsSetcv 0x7800#16) (promptly Config.ex 3))
        = some (.invalidConfiguration, []) ∧
      peek (fun t => t.dev.cv) (exec (.wsSetcv 0x7800#16) (promptly lax 3)) = some (some [0x00#8, 0x04#8]) := by
  decide +kernel
/-- 13000 mV: the frame `02 25 AA`. -/
theorem test_wsSetsv : peek (fun t => (t.dev.sv, t.result))
    (exec (.wsSetsv 13000#16) (promptly Config.ex 3)) = some (some [0x25#8, 0xAA#8], .ok) := by decide +kernel
theorem test_wsSetsv_range : peek (fun t => t.result) (exec (.wsSetsv 16000#16) (promptly Config.ex 3))
    = some .invalidConfiguration := by decide +kernel
theorem test_wWrreg : peek (fun t => t.trace)
    (exec (.wWrreg 0x20#7 []) (promptly Config.ex 1))
    = some [.cs .low, .xfer 0x20#8 0x01#8, .cs .high, .busy false] := by decide +kernel
theorem test_wRdreg : peek (fun t => t.result)
    (exec (.wRdreg 0x15#7 0x00#8) (readyWith Config.ex [0x00#8, 0x5A#8] [false])) = some (.okValue 0x5A#8) := by decide +kernel
theorem test_wWrbuf : peek (fun t => (t.dev.cur.map List.length, t.trace.length))
    (exec (.wWrbuf (List.replicate 300 0xFC#8))
      { promptly Config.ex 301 with dev := { Device.unknown with wp := some .current } })
    = some (some 300, 304) := by decide +kernel
/-- The command word at the head of the host's list is taken and run. -/
theorem test_step_fetches : peek (fun t => (t.fb, t.hostIn))
    (step ((promptly Config.ex 0).withFetchWord 56 0x03000000000102))
    = some ([(5, 0x20#8), (65, 0x20#8), (125, 0x20#8), (185, 0x20#8), (245, 0x20#8)], []) := by decide +kernel
/-- U2, U3, U4: with `STRICT = false` codes that name nothing are refused. -/
theorem test_lax_refusals :
    [refusalOf (exec (.fbSetseg 22#5 .black) (promptly lax 0)), refusalOf (exec (.wsUpdate 3#2 false) (promptly lax 0)),
      refusalOf (exec (.wsRender 6#3) (promptly lax 0)),
      refusalOf (step ((promptly lax 0).withFetchWord 56 0x05000000000000))]
      = [some .segmentIndex, some .updateMode, some .colourCode, some .unknownOpcode] := by decide +kernel

/-! ## What the statements assume can be met: a state and operands for the hypotheses of each, and for each clause -/

theorem ready_of (s : State) (h : wellFormedConfig s.cfg = true ∧ s.seq = .idle) : Ready s := h

/-- `EX`, configured and idle. -/
def exState : State := promptly Config.ex 0

/-- The same, not configured. -/
def freshState : State := State.reset

/-- `STRICT = false`, not configured. -/
def laxState : State := State.resetWith lax []

/-- A tile-consistent FrameBuffer with segment 1 set. -/
def segState : State :=
  { exState with fb := [(5, 0x20#8), (65, 0x20#8), (125, 0x20#8), (185, 0x20#8), (245, 0x20#8)] }

theorem exState_ready : Ready exState := ⟨by decide, rfl⟩
theorem exState_open : Open exState := ⟨exState_ready, fun _ => rfl⟩
theorem segState_ready : Ready segState := ⟨by decide, rfl⟩
theorem segState_fbOk : FbOk segState := ⟨by decide, by decide⟩
theorem segState_tiles : TileConsistent segState.cfg segState.fb := by
  unfold TileConsistent
  decide
theorem ex_segBytes : ∀ i < nSeg, segBytes Config.ex i = [i + 4, i + 64, i + 124, i + 184, i + 244] := by decide
theorem ex_tilesSeparate : TilesSeparate Config.ex := by
  intro i hi j hj
  rw [ex_segBytes i hi, ex_segBytes j hj]
  simp only [nSeg] at hi hj
  by_cases h : i = j
  · exact .inl (by simp [h])
  · refine .inr fun a ha hb => ?_
    simp only [List.mem_cons, List.not_mem_nil, or_false] at ha hb
    omega

theorem bound_pos (c : Config) (hc : wellFormedConfig c = true) : ∀ b, c.waitBound = some b → 1 ≤ b := by
  intro b hb
  simp only [wellFormedConfig, pollsOk, hb, Bool.and_eq_true] at hc
  simpa using hc.2.1

/-- As many clear samples as there are waits let any coarse trace without a ready poll run. -/
theorem clear_responsive (c : Config) (xfer : List Byte) (n : Nat) (es : List Coarse) (hc : wellFormedConfig c = true)
    (hw : es.count .waitBusy ≤ n) : Responsive (readyWith c xfer (List.replicate n false)) es := by
  have := busyClears_replicate (bound_pos c hc) (es.count .waitBusy) n [] hw
  simpa [Responsive, readyWith, State.resetWith] using this

theorem promptly_responsive (c : Config) (n : Nat) (es : List Coarse) (hc : wellFormedConfig c = true)
    (hw : es.count .waitBusy ≤ n) : Responsive (promptly c n) es := clear_responsive c _ n es hc hw

/-- The prompt environment of a ready pump lets any coarse trace run that sends no more than it answers. -/
theorem promptly_responsiveAfter (c : Config) (n : Nat) (es : List Coarse) (hc : wellFormedConfig c = true)
    (hp : pumpReady c 0x01#8 = true) (hw : es.count .waitBusy ≤ n) (hx : sentBytes es ≤ n) :
    ResponsiveAfter (promptly c n) [] es := by
  refine ⟨?_, readsReady_of_all (by simpa [promptly, readyWith] using hx) ?_, by simp⟩
  · rw [withUnready_nil]
    exact promptly_responsive c n es hc hw
  · intro r hr
    rw [(List.mem_replicate.1 hr).2]
    exact hp

/-- `readsReady` as a check that can be run. -/
def answersReady (c : Config) : List Nat → List Coarse → List Byte → Bool
  | _, [], _ => true
  | us, .rd _ _ :: es, q =>
    (List.range (us.headD 0)).all (fun k => (q[2 * k + 1]?).any (fun r => !pumpReady c r)) &&
      (q[2 * us.headD 0 + 1]?).any (pumpReady c) && answersReady c us.tail es (q.drop (2 * us.headD 0 + 2))
  | us, .wr _ ops :: es, q => answersReady c us es (q.drop (ops.length + 1))
  | us, .stream data :: es, q => answersReady c us es (q.drop (data.length + 1))
  | us, .waitBusy :: es, q => answersReady c us es q
  | us, .rst _ :: es, q => answersReady c us es q
  | us, .delay _ :: es, q => answersReady c us es q
  | us, .unframed :: es, q => answersReady c us es q

theorem readsReady_of_answersReady (c : Config) (us : List Nat) (es : List Coarse) (q : List Byte)
    (h : answersReady c us es q = true) : readsReady c us es q := by
  induction es generalizing us q with
  | nil => trivial
  | cons e es ih =>
    cases e with
    | rd a r =>
      simp only [answersReady, Bool.and_eq_true, List.all_eq_true, List.mem_range, Option.any_eq_true,
        Bool.not_eq_true'] at h
      exact ⟨h.1.1, h.1.2, ih _ _ h.2⟩
    | _ => exact ih _ _ h

theorem witness_DecodeEncodeAgree :
    (Instr.wWrreg 0x7F#7 [1#8, 2#8, 3#8, 4#8]).wellFormed 300 = true ∧ (Instr.fbSetseg 31#5 .white).wellFormed 300 = true ∧
      (Instr.wWrbuf (List.replicate 300 0xFF#8)).wellFormed 300 = true := by decide
theorem witness_EncodeDecodeAgree :
    (∃ i, decode 0x31FFFFFFFFFFFF#56 = .ok i) ∧ ∃ i, decodeFrame 300 [0x7F#8, 1#8, 2#8, 3#8, 4#8] = .ok i :=
  ⟨⟨_, rfl⟩, ⟨_, rfl⟩⟩
theorem witness_FourteenOpcodes :
    (0x34FFFFFFFFFFFF#56).extractLsb' 48 8 ∈ commandOpcodes ∧ (0x35000000000000#56).extractLsb' 48 8 ∉ commandOpcodes := by
  decide
/-- One first byte for each clause; the lengths at their limits, and one beyond. -/
theorem witness_FirstByteClassifiesFrame :
    ((0x10#8 : Byte) = 0x10#8 ∧ [1#8, 2#8].length = 2) ∧ ((0x90#8 : Byte) ≠ 0x10#8 ∧ (0x90#8).getLsbD 7 = true ∧ [0#8] = [0#8]) ∧
    ((0x7F#8 : Byte) ≠ 0x10#8 ∧ (0x7F#8).getLsbD 7 = false ∧ [1#8, 2#8, 3#8, 4#8].length ≤ 4) ∧
    ((0x10#8 : Byte) = 0x10#8 ∧ [1#8].length ≠ 2) ∧ ((0xFF#8).getLsbD 7 = true ∧ ([] : List Byte).length ≠ 1) ∧
    ((0x00#8 : Byte) ≠ 0x10#8 ∧ (0x00#8).getLsbD 7 = false ∧ 4 < [1#8, 2#8, 3#8, 4#8, 5#8].length) := by decide
theorem witness_PatternCopiesLevel : ∃ k, k = 3 ∧ k < 4 := ⟨3, rfl, by decide⟩
theorem witness_SetFieldReplacesOne : ∃ k k', k < 4 ∧ k' < 4 ∧ k' ≠ k := ⟨3, 0, by decide⟩
theorem witness_CommonVoltageBytes :
    (0 : Int) ≤ 0 ∧ (-1 : Int) < 0 ∧ (-30719 : Int).natAbs ≤ 30719 ∧ (30719 : Int).natAbs ≤ 30719 := by decide
theorem witness_SourceVoltageByte : ∃ lo hi : Nat, 8000 ≤ lo ∧ lo ≤ 15999 ∧ 8000 ≤ hi ∧ hi ≤ 15999 ∧ lo = 8000 ∧ hi = 15999 :=
  ⟨8000, 15999, by decide⟩
theorem witness_StepRunsTheCommand :
    ∃ (s : State) (i : Instr), Ready s ∧ s.frameIn = [] ∧ s.hostIn = 0x20000000000000#56 :: [] ∧
      decode 0x20000000000000#56 = .ok i :=
  ⟨{ exState with hostIn := [0x20000000000000#56] }, _, ⟨by decide, rfl⟩, rfl, rfl, rfl⟩
theorem witness_StepRunsTheFrame :
    ∃ (s : State) (i : Instr), Ready s ∧ s.frameIn = [0x14#8, 0x03#8] :: [] ∧
      decodeFrame s.cfg.nStream [0x14#8, 0x03#8] = .ok i :=
  ⟨{ exState with frameIn := [[0x14#8, 0x03#8]] }, _, ⟨by decide, rfl⟩, rfl, rfl⟩
theorem witness_FetchWordRunsNext :
    wellFormedConfig exState.cfg = true ∧ (∃ i, decode (BitVec.ofNat 56 0x30000000000000) = .ok i) ∧
      ∃ i, decodeFrame exState.cfg.nStream (frameOfFirstByte exState.cfg.nStream (BitVec.ofNat 8 0x10)) = .ok i :=
  ⟨by decide, ⟨_, rfl⟩, ⟨.wWrbuf (List.replicate 300 0#8), by decide⟩⟩
theorem witness_IdleBlockDoesNothing : Ready exState ∧ exState.frameIn = [] ∧ exState.hostIn = [] :=
  ⟨exState_ready, rfl, rfl⟩

/-- A command that stands in its first wait. -/
def waitingState (todo : List Op) (xfer : List Byte) (busy : List Bool) : State :=
  { readyWith Config.ex xfer busy with seq := .running .psOn 0 todo }

theorem witness_RunningBlockAcceptsNothing :
    wellFormedConfig (waitingState [.wait 0] [] []).cfg = true ∧ (waitingState [.wait 0] [] []).seq ≠ .idle := by decide
theorem witness_BrokenGeometryRefused :
    ({ Config.ex with fbSize := 301 }).fbSize ≠ ({ Config.ex with fbSize := 301 }).nStream ∧
      ∃ i k, i < nSeg ∧ k < nTiles ∧
        ({ Config.ex with segTable := List.replicate 22 60 }).fbSize ≤ segByte { Config.ex with segTable := List.replicate 22 60 } i k :=
  ⟨by decide, 0, 4, by decide⟩
theorem witness_NotConfiguredExactly :
    (Ready freshState ∧ freshState.cfg.strict = true ∧ freshState.configured = false ∧ gated .psOn = true) ∧
      ∃ t, exec .psOn freshState = .next t ∧ t.returned = freshState.returned ++ [.notConfigured] :=
  ⟨⟨⟨by decide, rfl⟩, rfl, rfl, rfl⟩, exists_next (by decide +kernel)⟩
/-- Each row of the table of R192, at the first value outside its range. -/
theorem witness_InvalidConfigurationExactly :
    (Ready exState ∧ exState.cfg.strict = true ∧ exState.configured = true) ∧
    (badArgument (.fbSetseg 22#5 .black) ∧ badArgument (.rpWrreg 0x80#8 0#4 0#8 0#8 0#8 0#8) ∧
      badArgument (.rpWrreg 0x10#8 0#4 0#8 0#8 0#8 0#8) ∧ badArgument (.rpRdreg 0x80#8) ∧
      badArgument (.wsUpdate 3#2 true) ∧ badArgument (.wsRender 6#3) ∧ badArgument (.wsSetcv 30720#16) ∧
      badArgument (.wsSetcv (BitVec.ofInt 16 (-30720))) ∧ badArgument (.wsSetsv 7999#16) ∧
      badArgument (.wsSetsv 16000#16)) ∧
    (∃ t, exec (.wsRender 6#3) exState = .next t ∧ t.returned = exState.returned ++ [.invalidConfiguration]) ∧
    ({ exState with hostIn := [0x05000000000000#56] }).hostIn = 0x05000000000000#56 :: [] ∧
    (0x05000000000000#56).extractLsb' 48 8 ∉ commandOpcodes := by
  refine ⟨⟨exState_ready, rfl, rfl⟩, ?_, exists_next (by decide +kernel), rfl, by decide⟩
  simp only [badArgument]
  decide
theorem witness_UncheckedSetting :
    Ready laxState ∧ laxState.cfg.strict = false ∧ (Instr.wsRender 5#3).named = true ∧ 21 < (22#5).toNat ∧
      (3#2).toNat = 3 ∧ 6 ≤ (6#3).toNat ∧ (0xFF000000000000#56).extractLsb' 48 8 ∉ commandOpcodes :=
  ⟨⟨by decide, rfl⟩, by decide⟩
theorem witness_StrictBlockAlwaysAnswers : Ready exState ∧ exState.cfg.strict = true := ⟨exState_ready, rfl⟩
theorem witness_ClearSetsEveryByte : Ready freshState ∧ (0x01FFFFFFFFFFFF#56).extractLsb' 48 8 = 0x01#8 :=
  ⟨⟨by decide, rfl⟩, by decide⟩
theorem witness_InvertComplementsEveryByte :
    Ready segState ∧ FbOk segState ∧ TileConsistent segState.cfg segState.fb ∧ 299 < segState.cfg.fbSize :=
  ⟨segState_ready, segState_fbOk, segState_tiles, by decide⟩
theorem witness_InvertAfterClear : Ready exState ∧ Level.lightGray.code.toNat + Level.darkGray.code.toNat = 3 :=
  ⟨exState_ready, by decide⟩
/-- The last index, the first that names nothing with and without `STRICT`, and a segment that has its level already. -/
theorem witness_SetSegmentCopiesByte :
    (Ready segState ∧ FbOk segState ∧ (21#5).toNat ≤ 21) ∧
    (21 < (22#5).toNat ∧ segState.cfg.strict = true) ∧
    (Ready laxState ∧ FbOk laxState ∧ laxState.cfg.strict = false) ∧
    (TileConsistent segState.cfg segState.fb ∧
      getField segState.cfg.subfieldMsbFirst (segState.fb.read (segByte segState.cfg (1#5).toNat 0))
        (segSub segState.cfg (1#5).toNat) = Level.lightGray.code) :=
  ⟨⟨segState_ready, segState_fbOk, by decide⟩, by decide, ⟨⟨by decide, rfl⟩, ⟨by decide, by decide⟩, rfl⟩,
    segState_tiles, by decide⟩
theorem witness_SetThenGetSegment : Ready segState ∧ FbOk segState ∧ (21#5).toNat ≤ 21 :=
  ⟨segState_ready, segState_fbOk, by decide⟩
/-- A selected pixel of a tile byte, an address no segment has, and a pixel of another sub-field. -/
theorem witness_DrawSegmentsPixels :
    (Ready segState ∧ FbOk segState ∧ TileConsistent segState.cfg segState.fb ∧ TilesSeparate segState.cfg) ∧
    (∃ i, i < nSeg ∧ (0x200000#32).getLsbD i = true ∧ 25 ∈ segBytes segState.cfg i ∧ segSub segState.cfg i = 1) ∧
    (∀ i k, i < nSeg → (0x200000#32).getLsbD i = true → k < nTiles → 299 ≠ segByte segState.cfg i k) ∧
    (∀ i, i < nSeg → (0x200000#32).getLsbD i = true → 25 ∈ segBytes segState.cfg i → segSub segState.cfg i ≠ 2) := by
  refine ⟨⟨segState_ready, segState_fbOk, segState_tiles, ex_tilesSeparate⟩, ⟨21, by decide⟩, ?_, by decide⟩
  intro i k hi _ hk h
  have hm : segByte Config.ex i k ∈ segBytes Config.ex i := List.mem_map.2 ⟨k, by simpa using hk, rfl⟩
  rw [ex_segBytes i hi] at hm
  simp only [nSeg] at hi
  simp only [List.mem_cons, List.not_mem_nil, or_false] at hm
  have h' : 299 = segByte Config.ex i k := h
  omega
/-- The two sufficient conditions, each under a configuration that meets it at its last value. -/
theorem witness_TileConsistency :
    (Ready segState ∧ FbOk segState ∧ TileConsistent segState.cfg segState.fb ∧ TilesSeparate segState.cfg) ∧
    (∃ t, exec (.fbSetseg 21#5 .white) segState = .next t ∧ t.result = .ok) ∧
    (∃ t, exec (.fbDrawsegs 0x200000#32 .white) segState = .next t ∧ t.result = .ok) ∧
    (∃ t, exec (.fbClear .white) segState = .next t ∧ t.result = .ok) ∧
    (∃ t, exec .fbInvert segState = .next t ∧ t.result = .ok) ∧
    (∀ i, i < nSeg → segByte { Config.ex with segTable := List.replicate 22 59 } i 0 < 60) ∧
    (wellFormedConfig { Config.ex with segUnit := .pixel, segTable := List.replicate 22 59 } = true ∧
      ∀ i, i < nSeg → segByte { Config.ex with segUnit := .pixel, segTable := List.replicate 22 59 } i 0 < 15) :=
  ⟨⟨segState_ready, segState_fbOk, segState_tiles, ex_tilesSeparate⟩, exists_next (by decide +kernel), exists_next (by decide +kernel),
    exists_next (by decide +kernel), exists_next (by decide +kernel), by decide, by decide⟩
/-- The two checks; a wait under the bound; the timeout at the bound. -/
theorem witness_WriteRegisterCommand :
    (Ready freshState ∧ freshState.cfg.strict = true ∧ freshState.configured = false) ∧
    (exState.configured = true ∧ (0x10#8).toNat = 0x10 ∧ 0x80 ≤ (0x80#8).toNat) ∧
    ∃ s : State, Ready s ∧ (s.cfg.strict = true → s.configured = true ∧ (0x7F#8).toNat < 0x80 ∧ (0x7F#8).toNat ≠ 0x10) ∧
      s.env.xfer = [1#8, 2#8, 3#8] ++ [4#8] ∧ [1#8, 2#8, 3#8].length = (presentOps 0b1001#4 5#8 6#8 7#8 8#8).length + 1 ∧
      s.env.busy = List.replicate 1 true ++ false :: [true] ∧ s.cfg.waitBound = some 2 ∧ 1 < 2 :=
  ⟨⟨⟨by decide, rfl⟩, rfl, rfl⟩, by decide, readyWith boundTwo [1#8, 2#8, 3#8, 4#8] [true, false, true],
    ⟨by decide, rfl⟩, by decide, rfl, rfl, rfl, rfl, by decide⟩
theorem witness_transaction_timeout :
    ∃ s : State, Open s ∧ s.env.xfer = 1#8 :: 2#8 :: [] ∧ s.cfg.waitBound = some 2 ∧
      s.env.busy = List.replicate 2 true ++ [false] :=
  ⟨readyWith boundTwo [1#8, 2#8] [true, true, false], ⟨⟨by decide, rfl⟩, fun _ => rfl⟩, rfl, rfl, rfl⟩
theorem witness_ReadRegisterCommand :
    (Ready freshState ∧ freshState.cfg.strict = true ∧ freshState.configured = false ∧ 0x80 ≤ (0x80#8).toNat) ∧
    ∃ s : State, Ready s ∧ (s.cfg.strict = true → s.configured = true ∧ (0x7F#8).toNat < 0x80) ∧
      s.env.xfer = 1#8 :: 2#8 :: [] ∧ s.env.busy = List.replicate 1 true ++ false :: [] ∧ s.cfg.waitBound = some 2 ∧ 1 < 2 :=
  ⟨⟨⟨by decide, rfl⟩, rfl, rfl, by decide⟩, readyWith boundTwo [1#8, 2#8] [true, false], ⟨by decide, rfl⟩, by decide, rfl,
    rfl, rfl, by decide⟩
/-- Both waits clear; the first times out; the second times out. -/
theorem witness_WriteBufferCommand :
    (Ready (promptly Config.ex 303) ∧
      Responsive (promptly Config.ex 303) (bufT Config.ex.regWritePointer [0x30#8] (List.replicate 300 0xAA#8))) ∧
    (∃ s : State, Open s ∧ s.cfg.waitBound = some 2 ∧ s.env.busy = List.replicate 2 true ++ []) ∧
    ∃ s : State, Open s ∧ s.cfg.waitBound = some 2 ∧ 1 < 2 ∧
      s.env.busy = List.replicate 1 true ++ false :: (List.replicate 2 true ++ []) :=
  ⟨⟨⟨by decide, rfl⟩, promptly_responsive _ _ _ (by decide) (by decide)⟩,
    ⟨readyWith boundTwo [] [true, true], ⟨⟨by decide, rfl⟩, fun _ => rfl⟩, rfl, rfl⟩,
    ⟨readyWith boundTwo [] [true, false, true, true], ⟨⟨by decide, rfl⟩, fun _ => rfl⟩, rfl, by decide, rfl⟩⟩
theorem witness_RegisterWriteFrame :
    Ready (promptly Config.ex 5) ∧ (0x7F#7 : BitVec 7) ≠ 0x10#7 ∧ [1#8, 2#8, 3#8, 4#8].length ≤ 4 ∧
      Responsive (promptly Config.ex 5) [.wr 0x7F#7 [1#8, 2#8, 3#8, 4#8], .waitBusy] :=
  ⟨⟨by decide, rfl⟩, by decide, by decide, promptly_responsive _ _ _ (by decide) (by decide)⟩
theorem witness_RegisterReadFrame :
    ∃ s : State, Ready s ∧ s.env.xfer = 1#8 :: 2#8 :: [] ∧ s.env.busy = List.replicate 1 true ++ false :: [] ∧
      s.cfg.waitBound = some 2 ∧ 1 < 2 :=
  ⟨readyWith boundTwo [1#8, 2#8] [true, false], ⟨by decide, rfl⟩, rfl, rfl, rfl, by decide⟩
theorem witness_BufferWriteFrame :
    Ready (promptly Config.ex 301) ∧ (List.replicate 300 0xFC#8).length = Config.ex.nStream ∧
      Responsive (promptly Config.ex 301) [.stream (List.replicate 300 0xFC#8), .waitBusy] ∧
      ({ promptly Config.ex 301 with dev := { Device.unknown with wp := some .current } }).dev.wp = some .current ∧
      ({ promptly Config.ex 301 with dev := { Device.unknown with wp := some .previous } }).dev.wp = some .previous :=
  ⟨⟨by decide, rfl⟩, by decide, promptly_responsive _ _ _ (by decide) (by decide), rfl, rfl⟩
/-- No busy sample queued, and some; each of the three waits resumed. -/
theorem witness_HangKeepsWaiting :
    (Open exState ∧ exState.cfg.waitBound = none ∧ (30719#16).toInt.natAbs ≤ 30719 ∧
      exState.env.busy = List.replicate 0 true) ∧
    ({ exState with env := { exState.env with busy := [true, true] } }).env.busy = List.replicate 2 true ∧
    ∀ stands : Nat → Op,
      (stands = .wait ∨ (∃ r, stands = .readWait r) ∨ ∃ r reads, stands = fun polls => .pollWait r polls reads) →
      wellFormedConfig (waitingState [stands 3] [] [true]).cfg = true ∧
        (waitingState [stands 3] [] [true]).cfg.waitBound = none ∧
        (waitingState [stands 3] [] [true]).seq = .running .psOn 0 (stands 3 :: []) ∧
        (waitingState [stands 3] [] [true]).env.busy = List.replicate (0 + 1) true :=
  ⟨⟨exState_open, by decide⟩, rfl, fun _ _ => ⟨(by decide : wellFormedConfig Config.ex = true), rfl, rfl, rfl⟩⟩
/-- With no bound, with a bound of 1 and with one of 2; whether a free answer is busy is nobody's to say. -/
theorem witness_FreeAnswersDecide :
    (Open exState ∧ (0x7F#8).toNat < 0x80 ∧ exState.env.xfer = [] ∧ exState.env.busy = [] ∧ exState.cfg.waitBound = none) ∧
    (Open (promptly boundOne 0) ∧ (promptly boundOne 0).cfg.waitBound = some 1) ∧
    (Open (promptly boundTwo 0) ∧ ∀ n, (promptly boundTwo 0).cfg.waitBound = some n → 2 ≤ n) ∧
    (Config.busyAnswer 0 = false ∨ Config.busyAnswer 0 = true) :=
  ⟨⟨exState_open, by decide⟩, ⟨⟨⟨by decide, rfl⟩, fun _ => rfl⟩, rfl⟩,
    ⟨⟨⟨by decide, rfl⟩, fun _ => rfl⟩, fun n h => by cases h; decide⟩, by cases Config.busyAnswer 0 <;> simp⟩
/-- One status read that is not ready under a bound of 2, then a ready one: the most the bound allows. -/
theorem witness_PowerOnCompletes :
    ∃ (s : State) (pre : List Byte), Open s ∧
      s.env.xfer = pre ++ (([(0#8, 0xFE#8)] ++ [(0#8, 0x01#8)]).flatMap (fun p => [p.1, p.2]) ++ []) ∧
      pre.length = s.cfg.opsResolution.length + s.cfg.opsTiming.length + s.cfg.opsPowerSequence.length
        + s.cfg.opsRailsUp.length + 4 ∧
      ((0xFE#8 : Byte) &&& s.cfg.cpReadyMask) = 0#8 ∧ ((0x01#8 : Byte) &&& s.cfg.cpReadyMask) ≠ 0#8 ∧
      s.cfg.waitBound = some 2 ∧ 1 < 2 ∧ busyClears s.cfg.waitBound (6 + 1) s.env.busy :=
  ⟨readyWith boundTwo (List.replicate 14 0#8 ++ [0#8, 0xFE#8, 0#8, 0x01#8]) (List.replicate 7 false ++ []),
    List.replicate 14 0#8, ⟨⟨by decide, rfl⟩, fun _ => rfl⟩, rfl, by decide, by decide, by decide, rfl, by decide,
    busyClears_replicate (fun b hb => by cases hb; decide) 7 7 [] (by decide)⟩
/-- The state of vector Q6. -/
def unreadyState : State :=
  readyWith boundTwo (List.replicate 14 0#8 ++ [0#8, 0xFE#8, 0#8, 0x00#8]) (List.replicate 7 false ++ [])

theorem witness_PowerOnTimesOut :
    (∃ s : State, Open s ∧ s.cfg.waitBound = some 1 ∧ s.env.busy = List.replicate 1 true ++ []) ∧
    (Open unreadyState ∧ unreadyState.cfg.waitBound = some 2 ∧
      unreadyState.env.xfer = List.replicate 14 0#8 ++ ([((0#8 : Byte), (0xFE#8 : Byte)), (0#8, 0x00#8)].flatMap (fun p => [p.1, p.2]) ++ []) ∧
      (List.replicate 14 (0#8 : Byte)).length = unreadyState.cfg.opsResolution.length + unreadyState.cfg.opsTiming.length
        + unreadyState.cfg.opsPowerSequence.length + unreadyState.cfg.opsRailsUp.length + 4 ∧
      ((0xFE#8 : Byte) &&& unreadyState.cfg.cpReadyMask) = 0#8 ∧ ((0x00#8 : Byte) &&& unreadyState.cfg.cpReadyMask) = 0#8) ∧
    busyClears (some 2) (5 + 2) unreadyState.env.busy :=
  ⟨⟨readyWith boundOne [] [true], ⟨⟨by decide, rfl⟩, fun _ => rfl⟩, rfl, rfl⟩,
    ⟨⟨⟨by decide, rfl⟩, fun _ => rfl⟩, rfl, rfl, rfl, by decide, by decide⟩,
    busyClears_replicate (fun b hb => by cases hb; decide) 7 7 [] (by decide)⟩
theorem witness_UnreadyPumpReadAgain :
    ∃ s : State, wellFormedConfig s.cfg = true ∧ s.cfg.waitBound = none ∧
      s.seq = .running .psOn 0 (.pollWait 0xFE#8 2 3 :: [.setPower .up]) ∧ ((0xFE#8 : Byte) &&& s.cfg.cpReadyMask) = 0#8 ∧
      s.env.busy = [false] ∧ s.env.xfer = 1#8 :: 2#8 :: [] :=
  ⟨waitingState [.pollWait 0xFE#8 2 3, .setPower .up] [1#8, 2#8] [false], by decide, rfl, rfl, by decide, rfl, rfl⟩
/-- No wait has cleared, one, two, three, after busy samples under the bound or none. -/
theorem witness_PowerOffCommand :
    (Ready freshState ∧ freshState.cfg.strict = true ∧ freshState.configured = false) ∧
    (Open (promptly Config.ex 4) ∧ Responsive (promptly Config.ex 4) (offT Config.ex)) ∧
    ∀ js ∈ ([[], [1], [0, 1], [1, 0, 1]] : List (List Nat)), ∃ s : State, Open s ∧ s.cfg.waitBound = some 2 ∧ js.length < 4 ∧
      (∀ j ∈ js, j < 2) ∧
      s.env.busy = js.flatMap (fun j => List.replicate j true ++ [false]) ++ (List.replicate 2 true ++ []) := by
  refine ⟨⟨⟨by decide, rfl⟩, rfl, rfl⟩, ⟨⟨⟨by decide, rfl⟩, fun _ => rfl⟩, promptly_responsive _ _ _ (by decide) (by decide)⟩,
    fun js hjs => ⟨readyWith boundTwo [] (js.flatMap (fun j => List.replicate j true ++ [false]) ++ (List.replicate 2 true ++ [])),
      ⟨⟨(by decide : wellFormedConfig boundTwo = true), rfl⟩, fun _ => rfl⟩, rfl, ?_, ?_, rfl⟩⟩
  · revert js; decide
  · revert js; decide
/-- The timeout clauses of `SetCommonVoltageCommand` and `SetSourceVoltageCommand`, at the ends of the ranges. -/
theorem witness_voltage_timeout :
    ∃ s : State, Ready s ∧ (s.cfg.strict = true → s.configured = true ∧ (30719#16).toInt.natAbs ≤ 30719) ∧
      (s.cfg.strict = true → s.configured = true ∧ 8000 ≤ (8000#16).toNat ∧ (8000#16).toNat ≤ 15999) ∧
      s.cfg.waitBound = some 2 ∧ s.env.busy = List.replicate 2 true ++ [] :=
  ⟨readyWith boundTwo [] [true, true], ⟨by decide, rfl⟩, by decide, by decide, rfl, rfl⟩
/-- The clauses about encodings: for each opcode a word with every other bit set. -/
theorem witness_encoding_clauses :
    [0x02FFFFFFFFFFFF#56, 0x03FFFFFFFFFFFF#56, 0x04FFFFFFFFFFFF#56, 0x10FFFFFFFFFFFF#56, 0x11FFFFFFFFFFFF#56,
        0x12FFFFFFFFFFFF#56, 0x21FFFFFFFFFFFF#56, 0x33FFFFFFFFFFFF#56, 0x34FFFFFFFFFFFF#56].map
        (fun w => w.extractLsb' 48 8)
      = [0x02#8, 0x03#8, 0x04#8, 0x10#8, 0x11#8, 0x12#8, 0x21#8, 0x33#8, 0x34#8] := by decide
/-- A command that writes no `PS`; timeouts of `PS_ON`, `PS_OFF`, of an automatic update in each of its four places, of a
render and of a begin. -/
theorem witness_TimeoutLeavesPowerState :
    (Ready exState ∧ writesPs (.wsUpdate 0#2 true) = false ∧ ∃ t, exec (.wsUpdate 0#2 true) exState = .next t ∧ t.ps = .down) ∧
    (∃ t, exec .psOn (readyWith boundOne [] [true]) = .next t ∧ t.returned = [] ++ [.deviceTimeout]) ∧
    (∃ t, exec .psOff (readyWith boundOne [] [true]) = .next t ∧ t.returned = [] ++ [.deviceTimeout]) ∧
    (∀ x ∈ ([(1, .down), (2, .poweringUp), (8, .up), (12, .poweringDown)] : List (Nat × PowerState)),
      ∃ t, exec (.wsUpdate 0#2 false) (readyWith { tiny with waitBound := some 1 } (List.replicate 400 0x01#8)
        (List.replicate x.1 false ++ [true])) = .next t ∧
          (t.returned = [] ++ [.deviceTimeout] ∧ t.ps = x.2)) ∧
    (∃ t, exec (.wsRender 0#3) (readyWith { tiny with waitBound := some 1 } (List.replicate 400 0x01#8)
      (List.replicate 6 false ++ [true])) = .next t ∧ (t.returned = [] ++ [.deviceTimeout] ∧ t.ps = .poweringUp)) ∧
    (∃ t, exec .wsBegin (readyWith { tiny with waitBound := some 1 } (List.replicate 400 0x01#8)
      (List.replicate 14 false ++ [true])) = .next t ∧ (t.returned = [] ++ [.deviceTimeout] ∧ t.ps = .poweringUp)) := by
  refine ⟨⟨exState_ready, rfl, exists_next (by decide +kernel)⟩, exists_next (by decide +kernel),
    exists_next (by decide +kernel), fun x hx => ?_, exists_next (by decide +kernel), exists_next (by decide +kernel)⟩
  simp only [List.mem_cons, List.not_mem_nil, or_false] at hx
  rcases hx with rfl | rfl | rfl | rfl <;> exact exists_next (by decide +kernel)
theorem witness_SetCommonVoltageCommand :
    (Ready freshState ∧ freshState.cfg.strict = true ∧ freshState.configured = false) ∧
    (exState.configured = true ∧ 30719 < (30720#16).toInt.natAbs) ∧
    (Open (promptly Config.ex 3) ∧ (BitVec.ofInt 16 (-30719)).toInt.natAbs ≤ 30719 ∧
      Responsive (promptly Config.ex 3) (wrT Config.ex.regCommonVoltage (encodeCV (BitVec.ofInt 16 (-30719)).toInt))) :=
  ⟨⟨⟨by decide, rfl⟩, rfl, rfl⟩, by decide, ⟨⟨by decide, rfl⟩, fun _ => rfl⟩, by decide,
    promptly_responsive _ _ _ (by decide) (by decide)⟩
theorem witness_SetSourceVoltageCommand :
    (Ready freshState ∧ freshState.cfg.strict = true ∧ freshState.configured = false) ∧
    (exState.configured = true ∧ (7999#16).toNat < 8000 ∧ 15999 < (16000#16).toNat) ∧
    (Open (promptly Config.ex 3) ∧ 8000 ≤ (15999#16).toNat ∧ (15999#16).toNat ≤ 15999 ∧
      Responsive (promptly Config.ex 3) (wrT Config.ex.regDriverVoltage [0x25#8, encodeSV (15999#16).toNat])) :=
  ⟨⟨⟨by decide, rfl⟩, rfl, rfl⟩, by decide, ⟨⟨by decide, rfl⟩, fun _ => rfl⟩, by decide, by decide,
    promptly_responsive _ _ _ (by decide) (by decide)⟩
/-- An environment for each mode: full and partial automatic, mono manual; and, under a bound of 2, one for partial whose
pump is not ready at the first status read. -/
theorem witness_UpdateCompletes :
    Open (promptly Config.ex 400) ∧
    ((0#2 : BitVec 2) = 0#2 ∧ Config.ex.progselFull = Config.ex.progselFull ∧ (0x03#8 : Byte) = 0x03#8) ∧
    ((1#2 : BitVec 2) = 1#2 ∧ Config.ex.progselPartial = Config.ex.progselPartial ∧ (0x03#8 : Byte) = 0x03#8) ∧
    ((2#2 : BitVec 2) = 2#2 ∧ (0x02#8 : Byte) = 0x02#8 ∧ (0x07#8 : Byte) = 0x07#8) ∧
    ResponsiveAfter (promptly Config.ex 400) [] (updateT Config.ex
      ((List.range Config.ex.nStream).map (promptly Config.ex 400).fb.read) Config.ex.progselFull 0x03#8 false) ∧
    ResponsiveAfter (promptly Config.ex 400) [] (updateT Config.ex
      ((List.range Config.ex.nStream).map (promptly Config.ex 400).fb.read) Config.ex.progselPartial 0x03#8 false) ∧
    ResponsiveAfter (promptly Config.ex 400) [] (updateT Config.ex
      ((List.range Config.ex.nStream).map (promptly Config.ex 400).fb.read) 0x02#8 0x07#8 true) ∧
    ∃ s : State, Open s ∧ s.cfg.waitBound = some 2 ∧
      ResponsiveAfter s [1] (updateT s.cfg ((List.range s.cfg.nStream).map s.fb.read) s.cfg.progselPartial 0x03#8 false) :=
  ⟨⟨⟨by decide +kernel, rfl⟩, fun _ => rfl⟩, by decide, by decide, by decide,
    promptly_responsiveAfter _ _ _ (by decide +kernel) (by decide +kernel) (by decide +kernel) (by decide +kernel),
    promptly_responsiveAfter _ _ _ (by decide +kernel) (by decide +kernel) (by decide +kernel) (by decide +kernel),
    promptly_responsiveAfter _ _ _ (by decide +kernel) (by decide +kernel) (by decide +kernel) (by decide +kernel),
    readyWith boundTwo (List.replicate 317 0x01#8 ++ [0#8, 0xFE#8, 0#8, 0x01#8] ++ List.replicate 8 0x01#8)
      (List.replicate 20 false), ⟨⟨by decide +kernel, rfl⟩, fun _ => rfl⟩, rfl,
    clear_responsive _ _ _ _ (by decide +kernel) (by decide +kernel),
    readsReady_of_answersReady _ _ _ _ (by decide +kernel), fun u hu n hn => by cases hn; simp_all⟩
/-- For each colour: an environment that answers as much as its recipe asks. -/
theorem witness_RenderCompletes (col : Colour) :
    Open (promptly Config.ex 8000) ∧ FbOk (promptly Config.ex 8000) ∧
    ResponsiveAfter (promptly Config.ex 8000) [] (renderT Config.ex
      ((List.range Config.ex.nStream).map (promptly Config.ex 8000).fb.read) col) :=
  ⟨⟨⟨by decide, rfl⟩, fun _ => rfl⟩, ⟨by decide, by decide⟩,
    promptly_responsiveAfter _ _ _ (by decide) (by decide) (by cases col <;> decide +kernel) (by cases col <;> decide +kernel)⟩
/-- With a reset line and without. -/
theorem witness_BeginCompletes :
    (Ready (promptly Config.ex 8000) ∧ ResponsiveAfter (promptly Config.ex 8000) [] (beginT Config.ex)) ∧
    (Ready (promptly { Config.ex with hasResetLine := false } 8000) ∧
      ResponsiveAfter (promptly { Config.ex with hasResetLine := false } 8000) [] (beginT { Config.ex with hasResetLine := false })) :=
  ⟨⟨⟨by decide +kernel, rfl⟩, promptly_responsiveAfter _ _ _ (by decide +kernel) (by decide +kernel) (by decide +kernel) (by decide +kernel)⟩,
    ⟨by decide +kernel, rfl⟩, promptly_responsiveAfter _ _ _ (by decide +kernel) (by decide +kernel) (by decide +kernel) (by decide +kernel)⟩
theorem witness_RenderKeepsFbUpToComplement :
    Ready segState ∧ FbOk segState ∧ ∃ t, exec (.wsRender 0#3) segState = .next t ∧ t.cs = .high :=
  ⟨segState_ready, segState_fbOk, exists_next (by decide +kernel)⟩
theorem witness_OnlyDrawingWritesFb :
    writesFb .psOff = false ∧ ∃ t, exec .psOff segState = .next t ∧ t.cs = .high := ⟨rfl, exists_next (by decide +kernel)⟩
/-- A begin that ends well, one that times out, one that stands in a wait, and another command. -/
theorem witness_OnlyBeginConfigures :
    (Ready freshState ∧ ∃ t, exec .wsBegin freshState = .next t ∧ (t.returned = freshState.returned ∧ t.seq ≠ .idle)) ∧
    (∃ t, exec .psOff exState = .next t ∧ t.configured = true) ∧
    (∃ t, exec .wsBegin (readyWith boundOne [] [true]) = .next t ∧ t.returned = [] ++ [.deviceTimeout]) ∧
    (∃ t, exec .wsBegin (promptly tiny 8000) = .next t ∧ t.returned = [] ++ [.ok]) :=
  ⟨⟨⟨by decide, rfl⟩, exists_next (by decide +kernel)⟩, exists_next (by decide +kernel), exists_next (by decide +kernel),
    exists_next (by decide +kernel)⟩
theorem witness_TimeoutIsLeftIdle :
    Ready (readyWith boundOne [] [true]) ∧ Framed (readyWith boundOne [] [true]) ∧
      ∃ t, exec (.rpRdreg 0x15#8) (readyWith boundOne [1#8, 2#8] [true]) = .next t ∧ t.returned = [] ++ [.deviceTimeout] :=
  ⟨⟨by decide, rfl⟩, ⟨rfl, rfl⟩, exists_next (by decide +kernel)⟩
theorem witness_NoBoundNoTimeout :
    exState.cfg.waitBound = none ∧ (∃ t, exec .psOff exState = .next t ∧ t.cs = .high) ∧
      ∃ t, step (exState.withFetchWord 56 0x21000000000000) = .next t ∧ t.cs = .high :=
  ⟨rfl, exists_next (by decide +kernel), exists_next (by decide +kernel)⟩
theorem witness_SeqCountsPrimitives :
    (exState.seq = .idle ∧ ∃ t, exec .psOff exState = .next t ∧ t.seq ≠ .idle) ∧
    ((waitingState [.wait 0] [] [true]).seq = .running .psOn 0 [.wait 0] ∧
      ∃ t, step (waitingState [.wait 0] [] [true]) = .next t ∧ t.seq = .running .psOn 1 [.wait 1]) :=
  ⟨⟨rfl, exists_next (by decide +kernel)⟩, rfl, exists_next (by decide +kernel)⟩
theorem witness_StepOnlyAppends :
    ∃ t, step ((promptly Config.ex 4).withFetchWord 56 0x21000000000000) = .next t ∧
      (t.returned = [] ++ [.ok] ∧ (promptly Config.ex 4).configured = true) := exists_next (by decide +kernel)
theorem witness_ResetState : wellFormedConfig Config.ex = true := by decide
theorem witness_StepKeepsFrameBufferForm :
    FbOk segState ∧ ∃ t, step (segState.withFetchWord 56 0x03000000001503) = .next t ∧ t.fb ≠ segState.fb :=
  ⟨segState_fbOk, exists_next (by decide +kernel)⟩
/-- An idle block, and one whose frame is closed and its wait and another frame still to come. -/
theorem witness_StepKeepsFraming :
    (Framed exState ∧ Classified exState ∧ exState.cfg.strict = true ∧
      ∃ t, step (exState.withFetchWord 56 0x21000000000000) = .next t ∧ t.seq ≠ .idle) ∧
    ∃ s : State, Framed s ∧ Classified s ∧ s.cfg.strict = true ∧ framesFrom none s.trace = [[0x20#8]] ∧
      ∃ t, step s = .next t ∧ t.seq ≠ .idle := by
  refine ⟨⟨⟨rfl, rfl⟩, fun _ => ⟨by simp [exState, promptly, readyWith, State.resetWith, framesFrom], fun c k todo h => by cases h⟩, rfl,
      exists_next (by decide +kernel)⟩,
    { waitingState [.wait 0, .frame [0x01#8, 0x12#8], .wait 0] [] [false] with
      trace := [.cs .low, .xfer 0x20#8 2#8, .cs .high] },
    ⟨rfl, .closed, rfl, rfl⟩, fun _ => ⟨?_, ?_⟩, rfl, rfl, exists_next (by decide +kernel)⟩
  · intro f hf
    have hf : f ∈ [[0x20#8]] := hf
    rw [List.mem_singleton.1 hf]
    exact ⟨_, rfl⟩
  · rintro c k todo h op hop f hf
    cases h
    simp only [List.mem_cons, List.not_mem_nil, or_false] at hop
    rcases hop with rfl | rfl | rfl
    · simp [opSends] at hf
    · rw [List.mem_singleton.1 hf]
      exact ⟨_, rfl⟩
    · simp [opSends] at hf
theorem witness_StepKeepsShadow :
    ShadowOk exState ∧ ∃ t, step ((promptly Config.ex 3).withFetchWord 56 0x340000000032C8) = .next t ∧ t.dev ≠ exState.dev :=
  ⟨⟨⟨rfl, rfl⟩, rfl⟩, exists_next (by decide +kernel)⟩
theorem witness_StepKeepsTiles :
    TilesOk segState ∧ ∃ t, step (segState.withFetchWord 56 0x03000000001503) = .next t ∧ t.fb ≠ segState.fb :=
  ⟨⟨segState_fbOk, ex_tilesSeparate, segState_tiles, fun _ _ _ h => by cases h⟩, exists_next (by decide +kernel)⟩

end Sys2Proof.Machine
end

section
/-! A configuration that is not well-formed: the three places that accept an instruction or go on with one each
refuse it (00_scope.md R9). -/

namespace Sys2Proof.Machine

/-! ## What the check of the configuration refuses -/

theorem runCommand_illFormed {c : Instr} {g a : Bool} {lax : Option Refusal} {body : List Op} {s : State}
    (hw : wellFormedConfig s.cfg = false) :
    runCommand c g a lax body s = .refused .illFormedConfiguration := by
  simp [runCommand, hw]

theorem exec_illFormed (i : Instr) {s : State} (hw : wellFormedConfig s.cfg = false) :
    exec i s = .refused .illFormedConfiguration := by
  rw [exec_eq]
  exact runCommand_illFormed hw

/-- The check comes before the fetch: the block may be running, and nothing need wait to be accepted. -/
theorem step_illFormed {s : State} (hw : wellFormedConfig s.cfg = false) :
    step s = .refused .illFormedConfiguration := by
  simp [step, hw]

/-! ## The two ways to break the geometry of R9 -/

/-- D4. -/
theorem illFormed_of_fbSize_ne {c : Config} (h : c.fbSize ≠ c.nStream) : wellFormedConfig c = false :=
  Bool.eq_false_iff.2 fun hw => h (wf_size hw)

/-- D7, first constraint. -/
theorem illFormed_of_fbSize_le_segByte {c : Config} {i k : Nat} (hi : i < nSeg) (hk : k < nTiles)
    (h : c.fbSize ≤ segByte c i k) : wellFormedConfig c = false :=
  Bool.eq_false_iff.2 fun hw =>
    have hlt : segByte c i k < c.fbSize := wf_segByte hw hi _ (mem_segBytes.2 ⟨k, hk, rfl⟩)
    absurd hlt (Nat.not_lt.2 h)

/-- Settles O17: either break of the geometry makes the configuration ill-formed, and `step` and every `exec`
check that first. -/
theorem brokenGeometryRefused : Obligations.BrokenGeometryRefused := by
  intro s hbroken
  have hw : wellFormedConfig s.cfg = false := by
    rcases hbroken with hsize | ⟨i, k, hi, hk, hbyte⟩
    · exact illFormed_of_fbSize_ne hsize
    · exact illFormed_of_fbSize_le_segByte hi hk hbyte
  exact ⟨step_illFormed hw, fun i => exec_illFormed i hw⟩

end Sys2Proof.Machine
end

section
/-! What running a body leaves as it was, field by field (10_state.md): each fact is a relation that the elementary
operations respect (`Keeps`), carried to the run of a body and to the meaning of an instruction. -/

namespace Sys2Proof.Machine

/-! ## How a command accepted by an idle block comes out -/

/-- The ready poll ends a command with a timeout only (R141). -/
theorem pollFrom_finish {fuel reads : Nat} {r : Result} {s t : State} (h : pollFrom fuel reads s = .finish r t) :
    r = .deviceTimeout := by
  induction fuel generalizing reads s with
  | zero => cases h
  | succ fuel ih =>
    simp only [pollFrom] at h
    split at h
    · split at h
      · cases h
      · split at h
        · cases h; rfl
        · exact ih h
    · cases h; rfl
    · cases h

/-- A statement that ends the command early ends it with a failure or with the byte of a read. -/
theorem doOp_finish_ne_ok {op : Op} {r : Result} {s t : State} (h : doOp op s = .finish r t) : r ≠ .ok := by
  cases op with
  | wait polls =>
    simp only [doOp] at h
    split at h <;> cases h
    exact Result.noConfusion
  | readResult head filler =>
    simp only [doOp] at h
    split at h <;> cases h <;> exact Result.noConfusion
  | readWait byte polls =>
    simp only [doOp] at h
    split at h <;> cases h <;> exact Result.noConfusion
  | pollReady reads =>
    rw [pollFrom_finish h]
    exact Result.noConfusion
  | pollWait byte polls reads =>
    simp only [doOp] at h
    split at h
    · split at h
      · cases h
      · split at h
        · cases h; exact Result.noConfusion
        · rw [pollFrom_finish h]
          exact Result.noConfusion
    · cases h; exact Result.noConfusion
    · cases h
  | _ => cases h

/-- A body run before another: it comes to the other, or ends the command early and not with `Ok`, or stands. -/
theorem Keeps.runOps_append {ops : List Op} {R : State → State → Prop} (h : Keeps ops R) (rest : List Op) (s : State) :
    (∃ s', Machine.runOps (ops ++ rest) s = Machine.runOps rest s' ∧ R s s') ∨
      (∃ r s', Machine.runOps (ops ++ rest) s = s'.complete r ∧ r ≠ .ok ∧ R s s') ∨
      (∃ todo s', Machine.runOps (ops ++ rest) s = { s' with seq := s'.seq.withTodo todo } ∧ R s s') := by
  induction ops generalizing s with
  | nil => exact .inl ⟨s, rfl, h.refl s⟩
  | cons op ops ih =>
    have hop : R s (Machine.doOp op s).state := h.doOp (by simp) s
    have hops : Keeps ops R := h.mono fun _ ho => by simp [ho]
    simp only [List.cons_append, Machine.runOps]
    cases hdo : Machine.doOp op s with
    | done s' =>
      rw [hdo] at hop
      rcases ih hops s' with ⟨u, e, hr⟩ | ⟨r, u, e, hne, hr⟩ | ⟨todo, u, e, hr⟩
      · exact .inl ⟨u, e, h.trans hop hr⟩
      · exact .inr (.inl ⟨r, u, e, hne, h.trans hop hr⟩)
      · exact .inr (.inr ⟨todo, u, e, h.trans hop hr⟩)
    | finish r s' =>
      rw [hdo] at hop
      exact .inr (.inl ⟨r, s', rfl, doOp_finish_ne_ok hdo, hop⟩)
    | pend op' s' =>
      rw [hdo] at hop
      exact .inr (.inr ⟨op' :: (ops ++ rest), s', rfl, hop⟩)

/-- A field that the body's statements keep, and that neither the acceptance of a command nor its end writes, is kept
by the command. -/
theorem exec_keeps_field {α : Type} {f : State → α} {i : Instr} {s t : State}
    (h : Keeps (bodyOf s.cfg i) fun s t => f t = f s) (hseq : ∀ (q : Seq) (s : State), f { s with seq := q } = f s)
    (hend : ∀ (r : Result) (s : State), f (s.complete r) = f s) (he : exec i s = .next t) : f t = f s := by
  obtain ⟨-, ⟨-, rfl⟩ | ⟨-, rfl | rfl | rfl⟩⟩ := exec_next he
  · rfl
  · exact hend _ s
  · exact hend _ s
  · rw [State.start]
    rcases h.runOps { s with seq := .running i 0 (bodyOf s.cfg i) } with ⟨r, s', e, hr⟩ | ⟨todo, s', e, hr⟩
    · rw [e, hend, hr, hseq]
    · rw [e, hseq, hr, hseq]

/-! ## The relations -/

/-- Two relations at once. -/
theorem Keeps.and {ops : List Op} {R Q : State → State → Prop} (h : Keeps ops R) (k : Keeps ops Q) :
    Keeps ops fun s t => R s t ∧ Q s t where
  refl s := ⟨h.refl s, k.refl s⟩
  trans a b := ⟨h.trans a.1 b.1, k.trans a.2 b.2⟩
  frame bytes s := ⟨h.frame bytes s, k.frame bytes s⟩
  busy bs rest s := ⟨h.busy bs rest s, k.busy bs rest s⟩
  power p hp s := ⟨h.power p hp s, k.power p hp s⟩
  reset l hl s := ⟨h.reset l hl s, k.reset l hl s⟩
  delay n hn s := ⟨h.delay n hn s, k.delay n hn s⟩
  clear l hl s := ⟨h.clear l hl s, k.clear l hl s⟩
  invert hi s := ⟨h.invert hi s, k.invert hi s⟩
  seg i l hi s := ⟨h.seg i l hi s, k.seg i l hi s⟩
  configured hc s := ⟨h.configured hc s, k.configured hc s⟩

/-- R8, R27: no statement writes the configuration, `RESULT` or the record of results. -/
theorem keeps_record (ops : List Op) :
    Keeps ops fun s t => t.cfg = s.cfg ∧ t.returned = s.returned ∧ t.result = s.result where
  refl _ := ⟨rfl, rfl, rfl⟩
  trans a b := ⟨b.1.trans a.1, b.2.1.trans a.2.1, b.2.2.trans a.2.2⟩
  frame _ _ := by simp
  busy _ _ _ := ⟨rfl, rfl, rfl⟩
  power _ _ _ := ⟨rfl, rfl, rfl⟩
  reset _ _ _ := ⟨rfl, rfl, rfl⟩
  delay _ _ _ := ⟨rfl, rfl, rfl⟩
  clear _ _ _ := ⟨rfl, rfl, rfl⟩
  invert _ _ := ⟨rfl, rfl, rfl⟩
  seg _ _ _ _ := ⟨rfl, rfl, rfl⟩
  configured _ _ := ⟨rfl, rfl, rfl⟩

/-- R22: `FB` is written by the statements that are not `quiet`. -/
theorem keeps_fb {ops : List Op} (h : ∀ op ∈ ops, quiet op = true) : Keeps ops fun s t => t.fb = s.fb where
  refl _ := rfl
  trans a b := b.trans a
  frame := State.sendFrame_fb
  busy _ _ _ := rfl
  power _ _ _ := rfl
  reset _ _ _ := rfl
  delay _ _ _ := rfl
  clear _ hc := absurd (h _ hc) Bool.false_ne_true
  invert hi := absurd (h _ hi) Bool.false_ne_true
  seg _ _ hs := absurd (h _ hs) Bool.false_ne_true
  configured _ _ := rfl

/-- R140: `PS` is written by `setPower` only. -/
theorem keeps_ps {ops : List Op} (h : ∀ p, .setPower p ∉ ops) : Keeps ops fun s t => t.ps = s.ps where
  refl _ := rfl
  trans a b := b.trans a
  frame := State.sendFrame_ps
  busy _ _ _ := rfl
  power p hp := absurd hp (h p)
  reset _ _ _ := rfl
  delay _ _ _ := rfl
  clear _ _ _ := rfl
  invert _ _ := rfl
  seg _ _ _ _ := rfl
  configured _ _ := rfl

/-- R25: `CONFIGURED` is written by `setConfigured` only. -/
theorem keeps_configured {ops : List Op} (h : .setConfigured ∉ ops) :
    Keeps ops fun s t => t.configured = s.configured where
  refl _ := rfl
  trans a b := b.trans a
  frame := State.sendFrame_configured
  busy _ _ _ := rfl
  power _ _ _ := rfl
  reset _ _ _ := rfl
  delay _ _ _ := rfl
  clear _ _ _ := rfl
  invert _ _ := rfl
  seg _ _ _ _ := rfl
  configured hc := absurd hc h

/-- R25: no statement clears `CONFIGURED`. -/
theorem keeps_configured_set (ops : List Op) :
    Keeps ops fun s t => s.configured = true → t.configured = true where
  refl _ := id
  trans a b := b ∘ a
  frame bytes s := by simp
  busy _ _ _ := id
  power _ _ _ := id
  reset _ _ _ := id
  delay _ _ _ := id
  clear _ _ _ := id
  invert _ _ := id
  seg _ _ _ _ := id
  configured _ _ _ := rfl

/-- From `s` to `t` the trace grew, and `SEQ` counted one primitive call an event (R15, R26). -/
def Grew (s t : State) : Prop := ∃ new, t.trace = s.trace ++ new ∧ t.seq = s.seq.ticks new.length

theorem Grew.refl (s : State) : Grew s s := ⟨[], by simp, by simp⟩

theorem Grew.trans {s t u : State} : Grew s t → Grew t u → Grew s u := by
  rintro ⟨a, ha, ka⟩ ⟨b, hb, kb⟩
  exact ⟨a ++ b, by rw [hb, ha, List.append_assoc], by rw [kb, ka, Seq.ticks_ticks, List.length_append]⟩

/-- R15: every statement appends its primitive calls to the trace and counts them. -/
theorem keeps_grew (ops : List Op) : Keeps ops Grew where
  refl := Grew.refl
  trans := Grew.trans
  frame bytes s := ⟨_, State.sendFrame_trace bytes s, by simp [length_frameEvents]⟩
  busy bs rest s := ⟨_, State.afterBusy_trace bs rest s, by simp⟩
  power _ _ := Grew.refl
  reset l _ s := ⟨_, State.setRST_trace l s, by simp [Seq.tick_eq]⟩
  delay n _ s := ⟨_, State.delayMs_trace n s, by simp [Seq.tick_eq]⟩
  clear _ _ := Grew.refl
  invert _ := Grew.refl
  seg _ _ _ := Grew.refl
  configured _ := Grew.refl

/-! ## Which bodies hold which statements -/

theorem mem_repeatOps {n : Nat} {ops : List Op} {op : Op} (h : op ∈ repeatOps n ops) : op ∈ ops := by
  obtain ⟨l, hl, ho⟩ := List.mem_flatten.1 h
  rwa [List.eq_of_mem_replicate hl] at ho

/-- R22: a command that does not write `FB` has none of the statements that do. -/
theorem quiet_bodyOf {i : Instr} (h : writesFb i = false) (c : Config) : ∀ op ∈ bodyOf c i, quiet op = true := by
  have buf : ∀ target src, ∀ op ∈ writeBuf c target src, quiet op = true := by
    intro target src
    cases src <;> simp [writeBuf, writeReg, streamOps, quiet]
  have on : ∀ op ∈ powerOn c, quiet op = true := by simp [powerOn, writeReg, quiet]
  have off : ∀ op ∈ powerOff c, quiet op = true := by simp [powerOff, writeReg, quiet]
  cases i with
  | rpWrbuf target fillsel fill => exact buf _ _
  | psOn => exact on
  | psOff => exact off
  | wsUpdate mode manual =>
    cases hm : UpdateMode.ofCode mode with
    | none => simp [bodyOf, updateOps, hm]
    | some m =>
      simp only [bodyOf, updateOps, hm, update, List.forall_mem_append]
      cases manual
      · exact ⟨⟨⟨⟨⟨buf _ _, on⟩, by simp [writeReg, quiet]⟩, by simp [writeReg, quiet]⟩, by simp [quiet]⟩, off⟩
      · exact ⟨⟨⟨⟨⟨buf _ _, by simp⟩, by simp [writeReg, quiet]⟩, by simp [writeReg, quiet]⟩, by simp [quiet]⟩, by simp⟩
  | rpWrreg => simp [bodyOf, writeReg, quiet]
  | rpRdreg => simp [bodyOf, quiet]
  | wsSetcv => simp [bodyOf, setCV, writeReg, quiet]
  | wsSetsv => simp [bodyOf, setSV, writeReg, quiet]
  | wWrreg => simp [bodyOf, writeReg, quiet]
  | wRdreg => simp [bodyOf, quiet]
  | wWrbuf => simp [bodyOf, quiet]
  | _ => cases h

/-! ## `CONFIGURED` stands at the end of `WS_BEGIN` only (R159) -/

theorem setConfigured_not_mem_update (c : Config) (mode : UpdateMode) (manual : Bool) :
    .setConfigured ∉ update c mode manual := by
  cases manual <;> simp [update, writeBuf, writeReg, streamOps, powerOn, powerOff]

theorem setConfigured_not_mem_writePrev (c : Config) (level : Level) : .setConfigured ∉ writePrev c level := by
  simp [writePrev, writeBuf, writeReg, streamOps]

theorem setConfigured_not_mem_pass (c : Config) (level : Level) (mode : UpdateMode) :
    .setConfigured ∉ pass c level mode := by
  simp [pass, setConfigured_not_mem_writePrev, setConfigured_not_mem_update]

theorem setConfigured_not_mem_repeatOps {n : Nat} {ops : List Op} (h : .setConfigured ∉ ops) :
    .setConfigured ∉ repeatOps n ops := fun hm => h (mem_repeatOps hm)

theorem setConfigured_not_mem_setCV (c : Config) (v : Int) : .setConfigured ∉ setCV c v := by simp [setCV, writeReg]

theorem setConfigured_not_mem_setSV (c : Config) (sv : Nat) : .setConfigured ∉ setSV c sv := by simp [setSV, writeReg]

theorem setConfigured_not_mem_recipe (c : Config) (col : Colour) : .setConfigured ∉ recipe c col := by
  have red : .setConfigured ∉ redBlock c := setConfigured_not_mem_repeatOps (by
    simp [setConfigured_not_mem_writePrev, setConfigured_not_mem_update, setConfigured_not_mem_setCV])
  have bw : .setConfigured ∉ renderBW c := by
    simp [renderBW, setConfigured_not_mem_setCV, setConfigured_not_mem_setSV, setConfigured_not_mem_repeatOps,
      setConfigured_not_mem_pass]
  cases col with
  | black => exact bw
  | white => exact bw
  | yellow =>
    simp [recipe, renderYellow, setConfigured_not_mem_setCV, setConfigured_not_mem_setSV,
      setConfigured_not_mem_repeatOps, setConfigured_not_mem_pass]
  | green =>
    simp [recipe, renderGreen, setConfigured_not_mem_setCV, setConfigured_not_mem_setSV,
      setConfigured_not_mem_repeatOps, setConfigured_not_mem_pass]
  | red => simp [recipe, renderRed, red, setConfigured_not_mem_setSV]
  | blue =>
    have lead : .setConfigured ∉ (if c.blueLeadingSv then setSV c 10000 else []) := by
      split
      · exact setConfigured_not_mem_setSV c _
      · simp
    simp [recipe, renderBlue, lead, red, setConfigured_not_mem_setCV, setConfigured_not_mem_setSV,
      setConfigured_not_mem_repeatOps, setConfigured_not_mem_pass]

theorem setConfigured_not_mem_screenErase (c : Config) : .setConfigured ∉ screenErase c := by
  have passes : .setConfigured ∉ erasePasses c := setConfigured_not_mem_repeatOps (setConfigured_not_mem_pass c _ _)
  simp [screenErase, passes, setConfigured_not_mem_repeatOps, setConfigured_not_mem_setCV]

/-- `WS_BEGIN` up to its last statement. -/
def beginPrefix (c : Config) : List Op :=
  (if c.hasResetLine then hardwareReset else softwareReset c) ++ initRegisters c ++ screenErase c

theorem beginOps_eq (c : Config) : beginOps c = beginPrefix c ++ [.setConfigured] := rfl

theorem setConfigured_not_mem_beginPrefix (c : Config) : .setConfigured ∉ beginPrefix c := by
  have reset : .setConfigured ∉ (if c.hasResetLine then hardwareReset else softwareReset c) := by
    split <;> simp [hardwareReset, softwareReset, writeReg]
  simp [beginPrefix, reset, initRegisters, writeReg, setConfigured_not_mem_screenErase]

theorem setConfigured_not_mem_bodyOf {i : Instr} (h : i ≠ .wsBegin) (c : Config) : .setConfigured ∉ bodyOf c i := by
  have src : ∀ src, .setConfigured ∉ streamOps c src := by intro src; cases src <;> simp [streamOps]
  cases i with
  | wsBegin => exact absurd rfl h
  | wsUpdate mode manual =>
    simp only [bodyOf, updateOps]
    split
    · exact setConfigured_not_mem_update c _ _
    · simp
  | wsRender colour =>
    simp only [bodyOf, renderOps]
    split
    · exact setConfigured_not_mem_recipe c _
    · simp
  | wsSetcv v => exact setConfigured_not_mem_setCV c _
  | wsSetsv sv => exact setConfigured_not_mem_setSV c _
  | rpWrbuf target fillsel fill => simp [bodyOf, writeBuf, writeReg, src]
  | psOn => simp [bodyOf, powerOn, writeReg]
  | psOff => simp [bodyOf, powerOff, writeReg]
  | fbDrawsegs mask level => simp [bodyOf, drawSegsOps]
  | _ => simp [bodyOf, writeReg]

/-! ## The statements of 10_state.md about one command -/

/-- Settles O49: what does not write `FB` has only quiet statements. -/
theorem onlyDrawingWritesFb : Obligations.OnlyDrawingWritesFb := by
  intro i s t hi he
  exact exec_keeps_field (f := State.fb) (keeps_fb (quiet_bodyOf hi s.cfg)) (fun _ _ => rfl) (fun _ _ => rfl) he

/-- How `WS_BEGIN` comes out of an idle block: with `CONFIGURED` set and `Ok`; or ended early; or standing. -/
theorem begin_cases {s t : State} (hs : s.seq = .idle) (he : exec .wsBegin s = .next t) :
    (t.configured = true ∧ t.returned = s.returned ++ [.ok]) ∨
      (t.configured = s.configured ∧ (t.returned = s.returned ∨ ∃ r, r ≠ .ok ∧ t.returned = s.returned ++ [r])) := by
  obtain ⟨-, ⟨hn, -⟩ | ⟨-, rfl | rfl | rfl⟩⟩ := exec_next he
  · exact absurd hs hn
  · exact .inr ⟨rfl, .inr ⟨.notConfigured, Result.noConfusion, rfl⟩⟩
  · exact .inr ⟨rfl, .inr ⟨.invalidConfiguration, Result.noConfusion, rfl⟩⟩
  · have keeps := (keeps_configured (setConfigured_not_mem_beginPrefix s.cfg)).and (keeps_record (beginPrefix s.cfg))
    have body : bodyOf s.cfg .wsBegin = beginPrefix s.cfg ++ [.setConfigured] := beginOps_eq s.cfg
    rw [State.start, body]
    rcases keeps.runOps_append [.setConfigured]
        { s with seq := .running .wsBegin 0 (beginPrefix s.cfg ++ [.setConfigured]) } with
      ⟨u, e, hc, -, hret, -⟩ | ⟨r, u, e, hr, hc, -, hret, -⟩ | ⟨todo, u, e, hc, -, hret, -⟩ <;> rw [e]
    · exact .inl ⟨rfl, congrArg (· ++ [Result.ok]) hret⟩
    · exact .inr ⟨hc, .inr ⟨r, hr, congrArg (· ++ [r]) hret⟩⟩
    · exact .inr ⟨hc, .inl hret⟩

/-- Settles O50: only `WS_BEGIN` has a statement that writes `CONFIGURED`, and it is its last one. -/
theorem onlyBeginConfigures : Obligations.OnlyBeginConfigures := by
  rintro i s t ⟨-, hs⟩ he
  by_cases hi : i = .wsBegin
  · subst hi
    rcases begin_cases hs he with ⟨hc, hret⟩ | ⟨hc, hret⟩
    · simp [hc, hret]
    · refine ⟨.inl hc, fun _ => hc, fun _ _ => hc, fun _ hok => ?_⟩
      rcases hret with e | ⟨r, hr, e⟩
      · simp [e] at hok
      · simp [e, hr] at hok
  · have hc : t.configured = s.configured :=
      exec_keeps_field (f := State.configured) (keeps_configured (setConfigured_not_mem_bodyOf hi s.cfg))
        (fun _ _ => rfl) (fun _ _ => rfl) he
    exact ⟨.inl hc, fun _ => hc, fun h => absurd h hi, fun h => absurd h hi⟩

/-- A body that runs and does not end the command keeps the command, and counts one call an event. -/
theorem runOps_running {ops todo todo' : List Op} {c c' : Instr} {k k' : Nat} {s : State}
    (hs : s.seq = .running c k todo) (ht : (runOps ops s).seq = .running c' k' todo') :
    c' = c ∧ ∃ new, (runOps ops s).trace = s.trace ++ new ∧ k' = k + new.length := by
  rcases (keeps_grew ops).runOps s with ⟨r, u, e, -⟩ | ⟨rest, u, e, new, htr, hq⟩ <;> rw [e] at ht ⊢
  · cases ht
  · simp only [hq, hs, Seq.ticks_running, Seq.withTodo_running, Seq.running.injEq] at ht
    exact ⟨ht.1.symm, new, htr, ht.2.1.symm⟩

/-- What a step of a running command does. -/
theorem resume_of_running {c : Instr} {k : Nat} {todo : List Op} {s : State} (h : s.seq = .running c k todo) :
    s.resume = runOps todo (if s.env.busy = [] then s.nextBusy else s) := by
  rw [State.resume, h]

/-- Settles O53: a run that does not end the command counts its events in `SEQ`. -/
theorem seqCountsPrimitives : Obligations.SeqCountsPrimitives := by
  constructor
  · intro i s t c k todo hs he ht
    obtain ⟨-, ⟨hn, -⟩ | ⟨-, rfl | rfl | rfl⟩⟩ := exec_next he
    · exact absurd hs hn
    · cases ht
    · cases ht
    · obtain ⟨hc, new, htr, hk⟩ := runOps_running (s := { s with seq := .running i 0 (bodyOf s.cfg i) }) rfl ht
      exact ⟨hc, new, htr, by rw [hk, Nat.zero_add]⟩
  · intro s t c c' k k' todo todo' hs he ht
    have hres : step s = .next s.resume := by
      obtain ⟨hw, -⟩ := step_next he
      simp [step, hw, hs]
    obtain rfl : s.resume = t := by simpa [hres] using he
    rw [resume_of_running hs] at ht ⊢
    split at ht
    · next hb =>
      rw [if_pos hb]
      exact runOps_running (s := s.nextBusy) hs ht
    · next hb =>
      rw [if_neg hb]
      exact runOps_running hs ht

end Sys2Proof.Machine
end

section
/-! What every step keeps (10_state.md): a step runs statements from a state that differs from the old one in the inputs
and in `SEQ`, or ends a command there, or does nothing else. -/

namespace Sys2Proof.Machine

/-! ## What a step is made of -/

/-- The state once a step has taken its inputs and `SEQ` holds the command: nothing else is written. -/
def State.fetched (q : Seq) (e : Env) (words : List CmdWord) (frames : List (List Byte)) (s : State) : State :=
  { s with seq := q, env := e, hostIn := words, frameIn := frames }

/-- `t` is what becomes of `s` by taking inputs, and then running statements, or ending a command at once, or nothing. -/
def Advances (s t : State) : Prop :=
  ∃ q e words frames, t = s.fetched q e words frames ∨ (∃ r, t = (s.fetched q e words frames).complete r) ∨
    ∃ ops, t = runOps ops (s.fetched q e words frames)

theorem Advances.refl (s : State) : Advances s s := ⟨s.seq, s.env, s.hostIn, s.frameIn, .inl rfl⟩

/-- A command advances the state it is given, whatever inputs were taken before. -/
theorem exec_advances {i : Instr} {s t : State} (words : List CmdWord) (frames : List (List Byte))
    (h : exec i { s with hostIn := words, frameIn := frames } = .next t) : Advances s t := by
  obtain ⟨-, ⟨-, rfl⟩ | ⟨-, rfl | rfl | rfl⟩⟩ := exec_next h
  · exact ⟨s.seq, s.env, words, frames, .inl rfl⟩
  · exact ⟨s.seq, s.env, words, frames, .inr (.inl ⟨.notConfigured, rfl⟩)⟩
  · exact ⟨s.seq, s.env, words, frames, .inr (.inl ⟨.invalidConfiguration, rfl⟩)⟩
  · exact ⟨_, s.env, words, frames, .inr (.inr ⟨bodyOf s.cfg i, rfl⟩)⟩

theorem resume_advances (s : State) : Advances s s.resume := by
  unfold State.resume
  split
  · exact .refl _
  · next c k todo _ =>
    split
    · exact ⟨s.seq, s.nextBusy.env, s.hostIn, s.frameIn, .inr (.inr ⟨todo, rfl⟩)⟩
    · exact ⟨s.seq, s.env, s.hostIn, s.frameIn, .inr (.inr ⟨todo, rfl⟩)⟩

theorem step_advances {s t : State} (h : step s = .next t) : Advances s t := by
  obtain ⟨-, ⟨_, _, _, -, rfl⟩ | ⟨-, f, rest, i, -, -, he⟩ | ⟨-, -, w, rest, i, -, -, he⟩ |
    ⟨-, -, w, rest, e, -, -, -, rfl⟩ | ⟨-, -, -, rfl⟩⟩ := step_next h
  · exact resume_advances s
  · exact exec_advances s.hostIn rest he
  · exact exec_advances rest s.frameIn he
  · exact ⟨s.seq, s.env, rest, s.frameIn, .inr (.inl ⟨.invalidConfiguration, rfl⟩)⟩
  · exact .refl _

/-- What every statement keeps, and what the inputs and the end of a command do not touch, every step keeps. -/
theorem Advances.keeps {R : State → State → Prop} {s t : State} (h : Advances s t) (k : ∀ ops, Keeps ops R)
    (hfetch : ∀ q e words frames, R s (s.fetched q e words frames)) (hend : ∀ r u, R u (u.complete r))
    (hstand : ∀ q u, R u { u with seq := q }) : R s t := by
  obtain ⟨q, e, words, frames, rfl | ⟨r, rfl⟩ | ⟨ops, rfl⟩⟩ := h
  · exact hfetch ..
  · exact (k []).trans (hfetch q e words frames) (hend _ _)
  · refine (k ops).trans (hfetch q e words frames) ?_
    rcases (k ops).runOps (s.fetched q e words frames) with ⟨r, u, e', hu⟩ | ⟨todo, u, e', hu⟩ <;> rw [e']
    · exact (k ops).trans hu (hend _ _)
    · exact (k ops).trans hu (hstand _ _)

/-! ## The form of the FrameBuffer (R21) -/

/-- D7: also an index that names no segment addresses bytes of the FrameBuffer, since `segEntry` gives it the entry 0,
which is no greater than the entry of segment 0. -/
theorem segByte_lt {c : Config} (h : wellFormedConfig c = true) (i : Nat) : ∀ a ∈ segBytes c i, a < c.fbSize := by
  by_cases hi : i < nSeg
  · exact wf_segByte h hi
  · have hlen : c.segTable.length = nSeg := by
      have := wf_geometry h
      simp only [geometryOk, Bool.and_eq_true, beq_iff_eq] at this
      exact this.1.2
    have hentry : segEntry c i = 0 := by
      rw [segEntry, List.getD_eq_getElem?_getD, List.getElem?_eq_none (by omega)]
      rfl
    intro a ha
    obtain ⟨k, hk, rfl⟩ := mem_segBytes.1 ha
    have hzero : segByte c 0 k < c.fbSize := wf_segByte h (by decide) _ (mem_segBytes.2 ⟨k, hk, rfl⟩)
    refine Nat.lt_of_le_of_lt ?_ hzero
    unfold segByte
    rw [hentry]
    cases c.segUnit <;> dsimp only <;> omega

/-- R21: under a well-formed configuration, which no statement writes, every statement keeps the FrameBuffer's form. -/
theorem keeps_fbOk (ops : List Op) :
    Keeps ops fun s t => wellFormedConfig s.cfg = true ∧ FbOk s → wellFormedConfig t.cfg = true ∧ FbOk t where
  refl _ := id
  trans a b := b ∘ a
  frame bytes s := by simp [FbOk]
  busy _ _ _ := id
  power _ _ _ := id
  reset _ _ _ := id
  delay _ _ _ := id
  clear l _ s h := ⟨h.1, fbCleared_wf s.cfg l, fbCleared_inRange s.cfg l⟩
  invert _ s h := ⟨h.1, fbInverted_wf s.cfg s.fb, fbInverted_inRange s.cfg s.fb⟩
  seg i l _ s := fun ⟨hw, hwf, hrange⟩ => ⟨hw, fbSegmentSet_wf hwf i l, fbSegmentSet_inRange hrange (segByte_lt hw i) l⟩
  configured _ _ := id

/-- Settles O57: every statement keeps the form, and nothing else of a step writes `FB` or the configuration. -/
theorem stepKeepsFrameBufferForm : Obligations.StepKeepsFrameBufferForm := by
  intro s t hfb hstep
  have hw : wellFormedConfig s.cfg = true := (step_next hstep).1
  exact ((step_advances hstep).keeps keeps_fbOk (fun _ _ _ _ => id) (fun _ _ => id) (fun _ _ => id) ⟨hw, hfb⟩).2

/-! ## The configuration, `CONFIGURED`, the trace and `RESULT` -/

/-- Every statement appends to the trace. -/
theorem keeps_trace (ops : List Op) : Keeps ops fun s t => s.trace <+: t.trace where
  refl s := List.prefix_refl s.trace
  trans := List.IsPrefix.trans
  frame bytes s := by simp
  busy bs rest s := by simp
  power _ _ _ := List.prefix_refl _
  reset _ _ _ := List.prefix_append _ _
  delay _ _ _ := List.prefix_append _ _
  clear _ _ _ := List.prefix_refl _
  invert _ _ := List.prefix_refl _
  seg _ _ _ _ := List.prefix_refl _
  configured _ _ := List.prefix_refl _

/-- R71: what advances the block records no result and leaves `RESULT`, or records one, which is `RESULT`, and leaves the
block idle. -/
theorem Advances.result {s t : State} (h : Advances s t) :
    (t.returned = s.returned ∧ t.result = s.result) ∨
      ∃ r, t.returned = s.returned ++ [r] ∧ t.result = r ∧ t.seq = .idle := by
  obtain ⟨q, e, words, frames, rfl | ⟨r, rfl⟩ | ⟨ops, rfl⟩⟩ := h
  · exact .inl ⟨rfl, rfl⟩
  · exact .inr ⟨r, rfl, rfl, rfl⟩
  · rcases (keeps_record ops).runOps (s.fetched q e words frames) with
      ⟨r, u, e', -, hret, hres⟩ | ⟨todo, u, e', -, hret, hres⟩ <;> rw [e']
    · exact .inr ⟨r, congrArg (· ++ [r]) hret, rfl, rfl⟩
    · exact .inl ⟨hret, hres⟩

/-- R8: no step writes the configuration. -/
theorem Advances.cfg {s t : State} (h : Advances s t) : t.cfg = s.cfg := by
  obtain ⟨q, e, words, frames, rfl | ⟨r, rfl⟩ | ⟨ops, rfl⟩⟩ := h
  · rfl
  · rfl
  · rcases (keeps_record ops).runOps (s.fetched q e words frames) with
      ⟨r, u, e', hcfg, -, -⟩ | ⟨todo, u, e', hcfg, -, -⟩ <;> rw [e'] <;> exact hcfg

/-- Settles O54. -/
theorem stepOnlyAppends : Obligations.StepOnlyAppends := by
  intro s t hstep
  have h : Advances s t := step_advances hstep
  have hconf : s.configured = true → t.configured = true :=
    h.keeps keeps_configured_set (fun _ _ _ _ => id) (fun _ _ => id) (fun _ _ => id)
  obtain ⟨new, htrace⟩ : s.trace <+: t.trace :=
    h.keeps keeps_trace (fun _ _ _ _ => List.prefix_refl _) (fun _ _ => List.prefix_refl _)
      (fun _ _ => List.prefix_refl _)
  exact ⟨h.cfg, hconf, ⟨new, htrace.symm⟩, h.result⟩

end Sys2Proof.Machine
end

section
/-! `PS` and the coarse trace (42_power_sequencer.md R140 to R144). A watcher reads the coarse events one by one and says
what `PS` may be when a body stops in a wait and when it ends; that a watcher accepts a body is read off the body's
statements, and is then true of every run of it, whatever the environment answers. -/

namespace Sys2Proof.Machine

/-! ## What one statement adds to the coarse trace -/

/-- From `s` to `t` the coarse trace grew by `cs`, responses left out, and `PS` is the same. -/
def Adds (s t : State) (cs : List Coarse) : Prop :=
  t.ps = s.ps ∧ ∃ new es, t.trace = s.trace ++ new ∧ Emits new es ∧ es.map Coarse.blank = cs

theorem Adds.refl (s : State) : Adds s s [] := ⟨rfl, [], [], by simp, Emits.nil, rfl⟩

theorem Adds.trans {s t u : State} {a b : List Coarse} : Adds s t a → Adds t u b → Adds s u (a ++ b) := by
  rintro ⟨hp, new, es, ht, he, rfl⟩ ⟨hp', new', es', ht', he', rfl⟩
  exact ⟨hp'.trans hp, new ++ new', es ++ es', by rw [ht', ht, List.append_assoc], he.append he', List.map_append⟩

theorem Adds.sendFrame (bytes : List Byte) (s : State) : Adds s (s.sendFrame bytes).2 [frameCoarse bytes] := by
  have hl : (s.env.answers bytes.length).1.length = bytes.length := Env.length_answers _ _
  exact ⟨State.sendFrame_ps bytes s, _, _, State.sendFrame_trace bytes s, Emits.frame hl,
    congrArg ([·]) (blank_coarseFrame hl)⟩

/-- The samples of a wait that has not cleared are no coarse event (R16). -/
theorem Emits.busy (j : Nat) : Emits ((List.replicate j true).map Event.busy) [] := by
  intro es
  induction j with
  | zero => rfl
  | succ j ih => simpa [List.replicate_succ, coarseFrom] using ih

theorem Adds.cleared (j : Nat) (rest : List Bool) (s : State) :
    Adds s (s.afterBusy (List.replicate j true ++ [false]) rest) [.waitBusy] :=
  ⟨rfl, _, _, State.afterBusy_trace _ _ s, Emits.wait j, rfl⟩

theorem Adds.busy (j : Nat) (rest : List Bool) (s : State) : Adds s (s.afterBusy (List.replicate j true) rest) [] :=
  ⟨rfl, _, _, State.afterBusy_trace _ _ s, Emits.busy j, rfl⟩

/-- A wait is one coarse event when it clears and none when it does not (R16, R121). -/
theorem waitBusyClear_adds (polls : Nat) (s : State) :
    (∃ t, s.waitBusyClear polls = .clear t ∧ Adds s t [.waitBusy]) ∨
      (∃ t, s.waitBusyClear polls = .timeout t ∧ Adds s t []) ∨
      (∃ n t, s.waitBusyClear polls = .pending n t ∧ Adds s t []) := by
  rcases State.waitBusyClear_cases polls s with ⟨j, rest, -, -, e⟩ | ⟨j, rest, -, -, -, e⟩ | ⟨j, -, -, e⟩
  · exact .inl ⟨_, e, .cleared j rest s⟩
  · exact .inr (.inl ⟨_, e, .busy (j + 1) rest s⟩)
  · exact .inr (.inr ⟨_, _, e, .busy j [] s⟩)

/-- Coarse events that the ready poll can add: status reads and waits. -/
def StatusOnly (cs : List Coarse) : Prop := ∀ e ∈ cs, e = .waitBusy ∨ ∃ addr, e = .rd addr none

theorem StatusOnly.nil : StatusOnly [] := fun _ h => absurd h List.not_mem_nil

/-- The ready poll adds status reads and waits, wherever it has come to (R141). -/
theorem pollFrom_adds (fuel reads : Nat) (s : State) :
    ∃ cs, StatusOnly cs ∧ Adds s (pollFrom fuel reads s).state cs := by
  induction fuel generalizing reads s with
  | zero => exact ⟨[], .nil, .refl s⟩
  | succ fuel ih =>
    have hread := Adds.sendFrame [s.cfg.regStatus ||| readFlag, s.cfg.filler] s
    rw [frameCoarse_read] at hread
    have one : StatusOnly [.rd (s.cfg.regStatus.setWidth 7) none] := by simp [StatusOnly]
    have turn : StatusOnly ([.rd (s.cfg.regStatus.setWidth 7) none] ++ [.waitBusy]) := by simp [StatusOnly]
    simp only [pollFrom, State.readFrame_state]
    rcases waitBusyClear_adds 0 (s.sendFrame [s.cfg.regStatus ||| readFlag, s.cfg.filler]).2 with
      ⟨t, e, h⟩ | ⟨t, e, h⟩ | ⟨n, t, e, h⟩ <;> rw [e]
    · dsimp only
      split
      · exact ⟨_, turn, hread.trans h⟩
      · split
        · exact ⟨_, turn, hread.trans h⟩
        · obtain ⟨cs, hcs, hadds⟩ := ih (reads + 1) t
          exact ⟨_, List.forall_mem_append.2 ⟨turn, hcs⟩, (hread.trans h).trans hadds⟩
    · exact ⟨_, by rwa [List.append_nil], hread.trans h⟩
    · exact ⟨_, by rwa [List.append_nil], hread.trans h⟩

/-! ## Watchers -/

/-- An automaton over the coarse trace that does not look at the responses, with what it says of `PS`. -/
structure Watcher (σ : Type) where
  /-- Reading a coarse event. -/
  see : σ → Coarse → σ
  /-- What is said of `PS` where a body stops before its end. -/
  stop : σ → PowerState → Prop
  /-- What is said of `PS` at the end of a body. -/
  done : σ → PowerState → Prop
  /-- Responses are not looked at. -/
  see_blank : ∀ x e, see x e.blank = see x e

theorem Watcher.foldl_blank {σ : Type} (W : Watcher σ) (x : σ) (es : List Coarse) :
    (es.map Coarse.blank).foldl W.see x = es.foldl W.see x := by
  induction es generalizing x with
  | nil => rfl
  | cons e es ih => simp only [List.map_cons, List.foldl_cons, W.see_blank, ih]

/-- The watcher is right about a body, from `x` and a value of `PS`: at every wait, at the ready poll whatever it reads,
and at the end. The statements that only `RP_RDREG` and a command standing in a wait have are left out. -/
def Watcher.Accepts {σ : Type} (W : Watcher σ) : σ → PowerState → List Op → Prop
  | x, p, [] => W.done x p
  | x, p, .frame bytes :: ops => W.Accepts (W.see x (frameCoarse bytes)) p ops
  | x, p, .stream :: ops => ∀ data, W.Accepts (W.see x (.stream data)) p ops
  | x, p, .wait _ :: ops => W.stop x p ∧ W.Accepts (W.see x .waitBusy) p ops
  | x, p, .pollReady _ :: ops =>
    ∀ cs, StatusOnly cs → W.stop (cs.foldl W.see x) p ∧ W.Accepts (cs.foldl W.see x) p ops
  | x, _, .setPower q :: ops => W.Accepts x q ops
  | x, p, .setReset l :: ops => W.Accepts (W.see x (.rst l)) p ops
  | x, p, .delay n :: ops => W.Accepts (W.see x (.delay n)) p ops
  | x, p, .clear _ :: ops => W.Accepts x p ops
  | x, p, .invert :: ops => W.Accepts x p ops
  | x, p, .setSeg _ _ :: ops => W.Accepts x p ops
  | x, p, .setConfigured :: ops => W.Accepts x p ops
  | _, _, .readResult _ _ :: _ => False
  | _, _, .readWait _ _ :: _ => False
  | _, _, .pollWait _ _ _ :: _ => False

/-- What running one statement of an accepted body comes to: it is done and the watcher accepts the rest, or the body
stops there and the watcher is right about `PS`. -/
def Watcher.Follows {σ : Type} (W : Watcher σ) (x : σ) (op : Op) (ops : List Op) (s : State) : Prop :=
  ∃ new es, (doOp op s).state.trace = s.trace ++ new ∧ Emits new es ∧
    ((∃ t, doOp op s = .done t ∧ W.Accepts (es.foldl W.see x) t.ps ops) ∨
      ((∀ t, doOp op s ≠ .done t) ∧ W.stop (es.foldl W.see x) (doOp op s).state.ps))

/-- A statement that is done and adds no event. -/
theorem Watcher.follows_of_silent {σ : Type} {W : Watcher σ} {x : σ} {op : Op} {ops : List Op} {s t : State}
    (ht : doOp op s = .done t) (htr : t.trace = s.trace) (ha : W.Accepts x t.ps ops) : W.Follows x op ops s :=
  ⟨[], [], by rw [ht, List.append_nil]; exact htr, Emits.nil, .inl ⟨t, ht, ha⟩⟩

/-- A statement that is done and adds events. -/
theorem Watcher.follows_of_done {σ : Type} {W : Watcher σ} {x : σ} {op : Op} {ops : List Op} {s t : State}
    {cs : List Coarse} (ht : doOp op s = .done t) (hadds : Adds s t cs)
    (ha : W.Accepts (cs.foldl W.see x) s.ps ops) : W.Follows x op ops s := by
  obtain ⟨hps, new, es, htr, hem, rfl⟩ := hadds
  rw [W.foldl_blank, ← hps] at ha
  exact ⟨new, es, by rw [ht]; exact htr, hem, .inl ⟨t, ht, ha⟩⟩

/-- A statement that stops after adding events. -/
theorem Watcher.follows_of_stop {σ : Type} {W : Watcher σ} {x : σ} {op : Op} {ops : List Op} {s : State}
    {cs : List Coarse} (hnot : ∀ t, doOp op s ≠ .done t) (hadds : Adds s (doOp op s).state cs)
    (hstop : W.stop (cs.foldl W.see x) s.ps) : W.Follows x op ops s := by
  obtain ⟨hps, new, es, htr, hem, rfl⟩ := hadds
  rw [W.foldl_blank, ← hps] at hstop
  exact ⟨new, es, htr, hem, .inr ⟨hnot, hstop⟩⟩

/-- One statement of an accepted body. -/
theorem Watcher.doOp {σ : Type} (W : Watcher σ) {op : Op} {ops : List Op} {x : σ} {s : State}
    (h : W.Accepts x s.ps (op :: ops)) : W.Follows x op ops s := by
  cases op with
  | frame bytes => exact follows_of_done rfl (.sendFrame bytes s) h
  | stream => exact follows_of_done rfl (.sendFrame _ s) (h _)
  | wait polls =>
    obtain ⟨hstop, hrest⟩ := h
    rcases waitBusyClear_adds polls s with ⟨t, e, ha⟩ | ⟨t, e, ha⟩ | ⟨n, t, e, ha⟩
    · exact follows_of_done (by simp only [Machine.doOp, e]) ha hrest
    · have hd : Machine.doOp (.wait polls) s = .finish .deviceTimeout t := by simp only [Machine.doOp, e]
      exact follows_of_stop (cs := []) (by simp [hd]) (by rw [hd]; exact ha) hstop
    · have hd : Machine.doOp (.wait polls) s = .pend (.wait n) t := by simp only [Machine.doOp, e]
      exact follows_of_stop (cs := []) (by simp [hd]) (by rw [hd]; exact ha) hstop
  | pollReady reads =>
    obtain ⟨cs, hcs, ha⟩ : ∃ cs, StatusOnly cs ∧ Adds s (Machine.doOp (.pollReady reads) s).state cs :=
      pollFrom_adds (s.env.busy.length + 1) reads s
    obtain ⟨hstop, hrest⟩ := h cs hcs
    by_cases hd : ∃ t, Machine.doOp (.pollReady reads) s = .done t
    · obtain ⟨t, ht⟩ := hd
      rw [ht] at ha
      exact follows_of_done ht ha hrest
    · exact follows_of_stop (not_exists.1 hd) ha hstop
  | setPower q => exact follows_of_silent rfl rfl h
  | setReset l => exact ⟨[.rst l], [.rst l], rfl, fun es => by simp [coarseFrom], .inl ⟨_, rfl, h⟩⟩
  | delay n => exact ⟨[.delay n], [.delay n], rfl, fun es => by simp [coarseFrom], .inl ⟨_, rfl, h⟩⟩
  | clear l => exact follows_of_silent rfl rfl h
  | invert => exact follows_of_silent rfl rfl h
  | setSeg i l => exact follows_of_silent rfl rfl h
  | setConfigured => exact follows_of_silent rfl rfl h
  | readResult head filler => exact h.elim
  | readWait r polls => exact h.elim
  | pollWait r polls reads => exact h.elim

/-- A body that stops in its first statement leaves the trace and `PS` there. -/
theorem runOps_cons_stop {op : Op} {ops : List Op} {s : State} (h : ∀ t, doOp op s ≠ .done t) :
    (runOps (op :: ops) s).trace = (doOp op s).state.trace ∧ (runOps (op :: ops) s).ps = (doOp op s).state.ps := by
  simp only [runOps]
  cases hd : doOp op s with
  | done t => exact absurd hd (h t)
  | finish r t => exact ⟨rfl, rfl⟩
  | pend op' t => exact ⟨rfl, rfl⟩

/-- What a watcher that accepts a body says is true of every run of it. -/
theorem Watcher.runOps {σ : Type} (W : Watcher σ) {ops : List Op} {x : σ} {s : State} (h : W.Accepts x s.ps ops) :
    ∃ new es, (Machine.runOps ops s).trace = s.trace ++ new ∧ Emits new es ∧
      (W.stop (es.foldl W.see x) (Machine.runOps ops s).ps ∨
        (W.done (es.foldl W.see x) (Machine.runOps ops s).ps ∧
          (Machine.runOps ops s).returned = s.returned ++ [.ok])) := by
  induction ops generalizing s x with
  | nil => exact ⟨[], [], (List.append_nil _).symm, Emits.nil, .inr ⟨h, rfl⟩⟩
  | cons op ops ih =>
    obtain ⟨new, es, htr, hem, ⟨t, ht, ha⟩ | ⟨hnot, hstop⟩⟩ := W.doOp h
    · have hret : t.returned = s.returned := by
        have := ((keeps_record (op :: ops)).doOp (op := op) (by simp) s).2.1
        rwa [ht] at this
      have hrun : Machine.runOps (op :: ops) s = Machine.runOps ops t := by simp only [Machine.runOps, ht]
      obtain ⟨new', es', htr', hem', hend⟩ := ih ha
      rw [ht] at htr
      refine ⟨new ++ new', es ++ es', ?_, hem.append hem', ?_⟩
      · rw [hrun, htr', show t.trace = s.trace ++ new from htr, List.append_assoc]
      · rw [hrun, List.foldl_append, ← hret]
        exact hend
    · obtain ⟨e₁, e₂⟩ := runOps_cons_stop (ops := ops) hnot
      exact ⟨new, es, by rw [e₁, htr], hem, .inl (by rw [e₂]; exact hstop)⟩

/-- What a watcher that accepts the body of an instruction says of it, when the command was not turned away. -/
theorem Watcher.exec {σ : Type} (W : Watcher σ) {i : Instr} {s t : State} (hs : s.seq = .idle)
    (he : Machine.exec i s = .next t) {x : σ} (h : W.Accepts x s.ps (bodyOf s.cfg i)) :
    (t = s.complete .notConfigured ∨ t = s.complete .invalidConfiguration) ∨
      ∃ new es, t.trace = s.trace ++ new ∧ Emits new es ∧
        (W.stop (es.foldl W.see x) t.ps ∨
          (W.done (es.foldl W.see x) t.ps ∧ t.returned = s.returned ++ [.ok])) := by
  obtain ⟨-, ⟨hn, -⟩ | ⟨-, rfl | rfl | rfl⟩⟩ := exec_next he
  · exact absurd hs hn
  · exact .inl (.inl rfl)
  · exact .inl (.inr rfl)
  · exact .inr (W.runOps (s := { s with seq := .running i 0 (bodyOf s.cfg i) }) h)

/-- The same for a command that timed out: it stopped before its end. -/
theorem Watcher.exec_timeout {σ : Type} (W : Watcher σ) {i : Instr} {s t : State} (hs : s.seq = .idle)
    (he : Machine.exec i s = .next t) (ht : t.returned = s.returned ++ [.deviceTimeout]) {x : σ}
    (h : W.Accepts x s.ps (bodyOf s.cfg i)) :
    ∃ new es, t.trace = s.trace ++ new ∧ Emits new es ∧ W.stop (es.foldl W.see x) t.ps := by
  rcases W.exec hs he h with (rfl | rfl) | ⟨new, es, htr, hem, hstop | ⟨-, hok⟩⟩
  · simp at ht
  · simp at ht
  · exact ⟨new, es, htr, hem, hstop⟩
  · simp [hok] at ht

/-! ## Watching a body piece by piece -/

/-- Wherever `P` holds, the watcher accepts the statements and comes to where `Q` holds. -/
def Watcher.Moves {σ : Type} (W : Watcher σ) (P : σ → PowerState → Prop) (ops : List Op) (Q : σ → PowerState → Prop) :
    Prop :=
  ∀ rest, (∀ x p, Q x p → W.Accepts x p rest) → ∀ x p, P x p → W.Accepts x p (ops ++ rest)

namespace Watcher.Moves

section rules
variable {σ : Type} {W : Watcher σ} {P Q R : σ → PowerState → Prop}

theorem accepts {ops : List Op} (h : W.Moves P ops Q) (hdone : ∀ x p, Q x p → W.done x p) {x : σ} {p : PowerState}
    (hP : P x p) : W.Accepts x p ops := by
  have := h [] hdone x p hP
  rwa [List.append_nil] at this

theorem nil : W.Moves P [] P := fun _ h => h

theorem append {a b : List Op} (ha : W.Moves P a Q) (hb : W.Moves Q b R) : W.Moves P (a ++ b) R := by
  intro rest h x p hP
  rw [List.append_assoc]
  exact ha _ (hb rest h) x p hP

theorem repeatOps {ops : List Op} (h : W.Moves P ops P) (n : Nat) : W.Moves P (repeatOps n ops) P := by
  induction n with
  | zero => exact nil
  | succ n ih =>
    rw [repeatOps_succ]
    exact h.append ih

theorem wait {n : Nat} (h : ∀ x p, P x p → W.stop x p ∧ Q (W.see x .waitBusy) p) : W.Moves P [.wait n] Q :=
  fun _ hrest x p hP => ⟨(h x p hP).1, hrest _ _ (h x p hP).2⟩

theorem stream (h : ∀ x p data, P x p → Q (W.see x (.stream data)) p) : W.Moves P [.stream] Q :=
  fun _ hrest x p hP data => hrest _ _ (h x p data hP)

theorem setPower {q : PowerState} (h : ∀ x p, P x p → Q x q) : W.Moves P [.setPower q] Q :=
  fun _ hrest x p hP => hrest _ _ (h x p hP)

theorem pollReady {n : Nat}
    (h : ∀ x p cs, P x p → StatusOnly cs → W.stop (cs.foldl W.see x) p ∧ Q (cs.foldl W.see x) p) :
    W.Moves P [.pollReady n] Q :=
  fun _ hrest x p hP cs hcs => ⟨(h x p cs hP hcs).1, hrest _ _ (h x p cs hP hcs).2⟩

/-- A register write: `PS` must be right while its wait stands. -/
theorem writeReg {c : Config} (hc : wellFormedConfig c = true) {a : Byte} (ha : a ∈ writtenRegs c) {ops : List Byte}
    (h : ∀ x p, P x p → W.stop (W.see x (.wr (a.setWidth 7) ops)) p ∧
      Q (W.see (W.see x (.wr (a.setWidth 7) ops)) .waitBusy) p) : W.Moves P (writeReg a ops) Q := by
  intro rest hrest x p hP
  obtain ⟨hstop, hQ⟩ := h x p hP
  simp only [Machine.writeReg, List.cons_append, List.nil_append, Accepts,
    frameCoarse_write (wf_written hc ha).1 (wf_written hc ha).2]
  exact ⟨hstop, hrest _ _ hQ⟩

end rules

end Watcher.Moves

/-! ## The registers and operands that tell `PS` -/

theorem setWidth7_inj {a b : Byte} (ha : a.toNat < 0x80) (hb : b.toNat < 0x80) (h : a.setWidth 7 = b.setWidth 7) :
    a = b := by
  bv_omega

/-- D8: written registers with different addresses have different numbers on the bus. -/
theorem setWidth7_ne {c : Config} (h : wellFormedConfig c = true) {a b : Byte} (ha : a ∈ writtenRegs c)
    (hb : b ∈ writtenRegs c) (hne : a ≠ b) : a.setWidth 7 ≠ b.setWidth 7 :=
  fun e => hne (setWidth7_inj (wf_written h ha).1 (wf_written h hb).1 e)

/-- The written registers whose writes say nothing of `PS`. -/
def untoldRegs (c : Config) : List Byte :=
  [c.regResolution, c.regTiming, c.regPowerSequence, c.regSoftwareReset, c.regPanelGeometry, c.regPixelRect,
   c.regCvInit, c.regIntervalSync, c.regDriverVoltage, c.regBorder, c.regMonoWaveform, c.regBoost,
   c.regCommonVoltage, c.regEngineTrigger]

theorem mem_writtenRegs_of_untold {c : Config} {a : Byte} (h : a ∈ untoldRegs c) : a ∈ writtenRegs c := by
  have hsub : untoldRegs c ⊆ writtenRegs c := by simp [untoldRegs, writtenRegs]
  exact hsub h

/-- D8: the three registers that tell `PS` are no others, and are three. -/
theorem wf_tellingRegs {c : Config} (h : wellFormedConfig c = true) :
    (∀ a ∈ untoldRegs c, a ≠ c.regWritePointer ∧ a ≠ c.regProgrammedWaveform ∧ a ≠ c.regPowerControl) ∧
      c.regProgrammedWaveform ≠ c.regWritePointer ∧ c.regPowerControl ≠ c.regWritePointer ∧
      c.regPowerControl ≠ c.regProgrammedWaveform := by
  have hr := wf_registers h
  simp only [registersOk, Bool.and_eq_true, decide_eq_true_eq, List.all_eq_true, Bool.or_eq_true, bne_iff_ne,
    beq_iff_eq] at hr
  obtain ⟨⟨⟨-, hdistinct⟩, hshared⟩, -⟩ := hr
  have hw := hshared c.regWritePointer (by simp [distinctRegs])
  have hp := hshared c.regProgrammedWaveform (by simp [distinctRegs])
  have hc := hshared c.regPowerControl (by simp [distinctRegs])
  simp only [distinctRegs, List.nodup_cons, List.mem_cons, not_or] at hdistinct
  simp only [untoldRegs, List.forall_mem_cons]
  grind

/-- D9: the operands that tell `PS` are told apart from the others of their registers. -/
theorem wf_tellingOperands {c : Config} (h : wellFormedConfig c = true) :
    c.opsWpPrevious ≠ c.opsWpCurrent ∧ c.opsRailsUp ≠ c.opsRailsDown1 ∧ c.opsRailsUp ≠ c.opsRailsDown2 ∧
      c.opsRailsDown2 ≠ c.opsRailsDown1 := by
  have ho := wf_operands h
  simp only [operandsOk, Bool.and_eq_true, bne_iff_ne] at ho
  obtain ⟨⟨⟨⟨-, hup1⟩, hup2⟩, hdown⟩, hwp⟩ := ho
  exact ⟨hwp.symm, hup1, hup2, hdown.symm⟩

end Sys2Proof.Machine
end

section
/-! `PS` as the coarse trace tells it (R24, R140 to R144, R162): the watchers that read it, and the bodies they accept. -/

namespace Sys2Proof.Machine

/-! ## `PS` at one value until the end -/

/-- The watcher that says that a body stops with `PS` at `p`, and nothing of its end. -/
def stopsAt (p : PowerState) : Watcher Unit where
  see _ _ := ()
  stop _ q := q = p
  done _ _ := True
  see_blank _ _ := rfl

theorem stopsAt_powerOn (c : Config) (p : PowerState) : (stopsAt .poweringUp).Accepts () p (powerOn c) := by
  simp [powerOn, writeReg, Watcher.Accepts, stopsAt]

theorem stopsAt_powerOff (c : Config) (p : PowerState) : (stopsAt .poweringDown).Accepts () p (powerOff c) := by
  simp [powerOff, writeReg, Watcher.Accepts, stopsAt]

/-- R140: a command that writes no `PS` has no statement that does. -/
theorem setPower_not_mem_bodyOf {i : Instr} (h : writesPs i = false) (c : Config) (p : PowerState) :
    .setPower p ∉ bodyOf c i := by
  have buf : ∀ target src, .setPower p ∉ writeBuf c target src := by
    intro target src
    cases src <;> simp [writeBuf, writeReg, streamOps]
  cases i with
  | rpWrbuf target fillsel fill => exact buf _ _
  | wsUpdate mode manual =>
    obtain rfl : manual = true := by simpa [writesPs] using h
    cases hm : UpdateMode.ofCode mode with
    | none => simp [bodyOf, updateOps, hm]
    | some m => simp [bodyOf, updateOps, hm, update, buf, writeReg]
  | fbDrawsegs mask level => simp [bodyOf, drawSegsOps]
  | wsSetcv v => simp [bodyOf, setCV, writeReg]
  | wsSetsv sv => simp [bodyOf, setSV, writeReg]
  | psOn => cases h
  | psOff => cases h
  | wsBegin => cases h
  | wsRender colour => cases h
  | _ => simp [bodyOf, writeReg]

/-! ## What the writes of the block tell -/

section writes
variable {c : Config} (h : wellFormedConfig c = true) (x : PowerState × PowerPhase)
include h

theorem powerSees_untold {a : Byte} (ha : a ∈ untoldRegs c) (ops : List Byte) :
    powerSees c x (.wr (a.setWidth 7) ops) = (x.1, .other) := by
  obtain ⟨hregs, -⟩ := wf_tellingRegs h
  obtain ⟨hwp, hprog, hpower⟩ := hregs a ha
  have hne : ∀ b ∈ writtenRegs c, a ≠ b → a.setWidth 7 ≠ b.setWidth 7 := fun b hb =>
    setWidth7_ne h (mem_writtenRegs_of_untold ha) hb
  simp [powerSees, hne _ (by simp [writtenRegs]) hwp, hne _ (by simp [writtenRegs]) hprog,
    hne _ (by simp [writtenRegs]) hpower]

theorem powerSees_previousPointer :
    powerSees c x (.wr (c.regWritePointer.setWidth 7) c.opsWpPrevious) = (x.1, .other) := by
  obtain ⟨-, hprog, hpower, -⟩ := wf_tellingRegs h
  obtain ⟨hops, -⟩ := wf_tellingOperands h
  have hprog' := setWidth7_ne h (by simp [writtenRegs]) (by simp [writtenRegs]) hprog.symm
  have hpower' := setWidth7_ne h (by simp [writtenRegs]) (by simp [writtenRegs]) hpower.symm
  simp [powerSees, hops, hprog', hpower']

theorem powerSees_progSelect (ops : List Byte) :
    powerSees c x (.wr (c.regProgrammedWaveform.setWidth 7) ops) = (.up, .other) := by
  obtain ⟨-, hprog, -, -⟩ := wf_tellingRegs h
  have hprog' := setWidth7_ne h (by simp [writtenRegs]) (by simp [writtenRegs]) hprog
  simp [powerSees, hprog']

/-- A write of the power-control register, by its operands. -/
theorem powerSees_powerControl (ops : List Byte) :
    powerSees c x (.wr (c.regPowerControl.setWidth 7) ops) =
      if ops = c.opsRailsDown1 then (.poweringDown, .other)
      else if ops = c.opsRailsDown2 then (x.1, .railsOff) else (x.1, .other) := by
  obtain ⟨-, -, hwp, hprog⟩ := wf_tellingRegs h
  have hwp' := setWidth7_ne h (by simp [writtenRegs]) (by simp [writtenRegs]) hwp
  have hprog' := setWidth7_ne h (by simp [writtenRegs]) (by simp [writtenRegs]) hprog
  simp [powerSees, hwp', hprog']

end writes

theorem powerSees_currentPointer (c : Config) (x : PowerState × PowerPhase) :
    powerSees c x (.wr (c.regWritePointer.setWidth 7) c.opsWpCurrent) = (x.1, .currentSelected) := by
  simp [powerSees]

theorem foldl_powerSees_statusOnly (c : Config) (p : PowerState) {cs : List Coarse} (h : StatusOnly cs) :
    cs.foldl (powerSees c) (p, .other) = (p, .other) := by
  induction cs with
  | nil => rfl
  | cons e cs ih =>
    obtain ⟨he, hcs⟩ := List.forall_mem_cons.1 h
    have he : powerSees c (p, .other) e = (p, .other) := by
      rcases he with rfl | ⟨addr, rfl⟩ <;> rfl
    rw [List.foldl_cons, he, ih hcs]

/-! ## The watcher that reads `PS` off the coarse trace -/

/-- The watcher that says that `PS` is what `powerSees` has come to, wherever a body stops or ends. -/
def tellsPower (c : Config) : Watcher (PowerState × PowerPhase) where
  see := powerSees c
  stop x p := p = x.1
  done x p := p = x.1
  see_blank _ e := by cases e <;> rfl

/-- The trace tells the present `PS`, and is in phase `ph`. -/
def TellsAt (ph : PowerPhase) (x : PowerState × PowerPhase) (p : PowerState) : Prop := x = (p, ph)

/-- The trace reads `y`. -/
def Reads (y x : PowerState × PowerPhase) (_ : PowerState) : Prop := x = y

/-- The trace reads `y` while `PS` is `q`. -/
def ReadsAs (y : PowerState × PowerPhase) (q : PowerState) (x : PowerState × PowerPhase) (p : PowerState) : Prop :=
  x = y ∧ p = q

/-- From wherever the trace tells `PS` and is in the middle of nothing, the statements lead to such a place. -/
def Told (c : Config) (ops : List Op) : Prop := (tellsPower c).Moves (TellsAt .other) ops (TellsAt .other)

theorem Told.append {c : Config} {a b : List Op} (ha : Told c a) (hb : Told c b) : Told c (a ++ b) :=
  Watcher.Moves.append ha hb

theorem Told.repeatOps {c : Config} {ops : List Op} (h : Told c ops) (n : Nat) : Told c (repeatOps n ops) :=
  Watcher.Moves.repeatOps h n

theorem told_delay (c : Config) (n : Nat) : Told c [.delay n] := by rintro rest h _ p rfl; exact h _ p rfl
theorem told_setReset (c : Config) (l : Line) : Told c [.setReset l] := by rintro rest h _ p rfl; exact h _ p rfl
theorem told_clear (c : Config) (l : Level) : Told c [.clear l] := fun _ h => h
theorem told_invert (c : Config) : Told c [.invert] := fun _ h => h
theorem told_setConfigured (c : Config) : Told c [.setConfigured] := fun _ h => h
theorem told_wait (c : Config) : Told c [.wait 0] := .wait (by rintro _ p rfl; exact ⟨rfl, rfl⟩)

/-! ## The bodies of the automatic procedures -/

section bodies
variable {c : Config} (h : wellFormedConfig c = true)
include h

theorem told_writeReg {a : Byte} (ha : a ∈ untoldRegs c) (ops : List Byte) : Told c (writeReg a ops) := by
  refine .writeReg h (mem_writtenRegs_of_untold ha) ?_
  rintro _ p rfl
  simp only [tellsPower, powerSees_untold h _ ha]
  exact ⟨trivial, rfl⟩

theorem told_setCV (v : Int) : Told c (setCV c v) := told_writeReg h (by simp [untoldRegs]) _

theorem told_setSV (sv : Nat) : Told c (setSV c sv) := told_writeReg h (by simp [untoldRegs]) _

theorem told_writePrev (l : Level) : Told c (writePrev c l) := by
  have pointer : Told c (writeReg c.regWritePointer c.opsWpPrevious) := by
    refine .writeReg h (by simp [writtenRegs]) ?_
    rintro _ p rfl
    simp only [tellsPower, powerSees_previousPointer h]
    exact ⟨trivial, rfl⟩
  have fill : Told c (streamOps c (.fill (pattern l))) := by
    rintro rest hrest _ p rfl
    exact ⟨rfl, hrest _ p rfl⟩
  exact pointer.append fill

/-- The current buffer is streamed: when the wait of the stream ends, the trace tells `poweringUp`. -/
theorem tells_writeCurrent : (tellsPower c).Moves (TellsAt .other) (writeBuf c .current .live)
    (Reads (.poweringUp, .other)) := by
  have pointer : (tellsPower c).Moves (TellsAt .other) (writeReg c.regWritePointer c.opsWpCurrent)
      (TellsAt .currentSelected) := by
    refine .writeReg h (by simp [writtenRegs]) ?_
    rintro _ p rfl
    simp only [tellsPower, powerSees_currentPointer]
    exact ⟨trivial, rfl⟩
  have stream : (tellsPower c).Moves (TellsAt .currentSelected) [.stream] (TellsAt .currentStreamed) :=
    .stream (by rintro _ p data rfl; rfl)
  have wait : (tellsPower c).Moves (TellsAt .currentStreamed) [.wait 0] (Reads (.poweringUp, .other)) :=
    .wait (by rintro _ p rfl; exact ⟨rfl, rfl⟩)
  exact pointer.append (stream.append wait)

/-- `PowerOn` writes `PS` when the stream's wait has ended, and ends with the pump ready and `PS` up (R141). -/
theorem tells_powerOn : (tellsPower c).Moves (Reads (.poweringUp, .other)) (powerOn c)
    (ReadsAs (.poweringUp, .other) .up) := by
  obtain ⟨-, hup1, hup2, -⟩ := wf_tellingOperands h
  have start : (tellsPower c).Moves (Reads (.poweringUp, .other)) [.setPower .poweringUp, .wait 0]
      (ReadsAs (.poweringUp, .other) .poweringUp) := by
    rintro rest hrest _ p rfl
    exact ⟨rfl, hrest _ _ ⟨rfl, rfl⟩⟩
  have write : ∀ a ∈ untoldRegs c, ∀ ops, (tellsPower c).Moves
      (ReadsAs (.poweringUp, .other) .poweringUp) (writeReg a ops)
      (ReadsAs (.poweringUp, .other) .poweringUp) := by
    intro a ha ops
    refine .writeReg h (mem_writtenRegs_of_untold ha) ?_
    rintro _ _ ⟨rfl, rfl⟩
    simp only [tellsPower, powerSees_untold h _ ha]
    exact ⟨trivial, rfl, rfl⟩
  have rails : (tellsPower c).Moves (ReadsAs (.poweringUp, .other) .poweringUp)
      (writeReg c.regPowerControl c.opsRailsUp) (ReadsAs (.poweringUp, .other) .poweringUp) := by
    refine .writeReg h (by simp [writtenRegs]) ?_
    rintro _ _ ⟨rfl, rfl⟩
    simp only [tellsPower, powerSees_powerControl h, hup1, hup2, if_false]
    exact ⟨trivial, rfl, rfl⟩
  have poll : (tellsPower c).Moves (ReadsAs (.poweringUp, .other) .poweringUp) [.pollReady 0]
      (ReadsAs (.poweringUp, .other) .poweringUp) := by
    refine .pollReady ?_
    rintro _ _ cs ⟨rfl, rfl⟩ hcs
    simp only [tellsPower, foldl_powerSees_statusOnly c _ hcs]
    exact ⟨trivial, rfl, rfl⟩
  have up : (tellsPower c).Moves (ReadsAs (.poweringUp, .other) .poweringUp) [.setPower .up]
      (ReadsAs (.poweringUp, .other) .up) := .setPower fun _ _ hx => ⟨hx.1, rfl⟩
  exact ((((start.append (write _ (by simp [untoldRegs]) _)).append (write _ (by simp [untoldRegs]) _)).append
    (write _ (by simp [untoldRegs]) _)).append rails).append (poll.append up)

/-- An automatic update keeps telling `PS`: up from program-select, poweringDown from the first rails-down write, down from
the second wait after the second one (R162, R143). -/
theorem told_update (mode : UpdateMode) : Told c (update c mode false) := by
  obtain ⟨-, -, -, hdown⟩ := wf_tellingOperands h
  have select : (tellsPower c).Moves (ReadsAs (.poweringUp, .other) .up)
      (writeReg c.regProgrammedWaveform [progSel c mode]) (TellsAt .other) := by
    refine .writeReg h (by simp [writtenRegs]) ?_
    rintro _ _ ⟨rfl, rfl⟩
    simp only [tellsPower, powerSees_progSelect h]
    exact ⟨trivial, rfl⟩
  have trigger : Told c (writeReg c.regEngineTrigger [trig mode]) := told_writeReg h (by simp [untoldRegs]) _
  have lower : (tellsPower c).Moves (TellsAt .other)
      ([.setPower .poweringDown] ++ writeReg c.regPowerControl c.opsRailsDown1) (TellsAt .other) := by
    have power : (tellsPower c).Moves (TellsAt .other) [.setPower .poweringDown]
        (fun x p => x.2 = .other ∧ p = .poweringDown) := .setPower (by rintro _ p rfl; exact ⟨rfl, rfl⟩)
    refine power.append (.writeReg h (by simp [writtenRegs]) ?_)
    rintro ⟨q, _⟩ _ ⟨rfl, rfl⟩
    simp only [tellsPower, powerSees_powerControl h, if_true]
    exact ⟨trivial, rfl⟩
  have lowered : (tellsPower c).Moves (TellsAt .other) (writeReg c.regPowerControl c.opsRailsDown2)
      (TellsAt .railsOffOnce) := by
    refine .writeReg h (by simp [writtenRegs]) ?_
    rintro _ p rfl
    simp only [tellsPower, powerSees_powerControl h, hdown, if_true, if_false]
    exact ⟨trivial, rfl⟩
  have down : (tellsPower c).Moves (TellsAt .railsOffOnce) [.wait 0] (Reads (.down, .other)) :=
    .wait (by rintro _ p rfl; exact ⟨rfl, rfl⟩)
  have power : (tellsPower c).Moves (Reads (.down, .other)) [.setPower .down] (TellsAt .other) :=
    .setPower (by rintro _ p rfl; rfl)
  have off : Told c (powerOff c) := ((lower.append (told_wait c)).append lowered).append (down.append power)
  exact (((((tells_writeCurrent h).append (tells_powerOn h)).append select).append trigger).append
    (told_wait c)).append off

theorem told_pass (l : Level) (mode : UpdateMode) : Told c (pass c l mode) :=
  (told_writePrev h l).append (told_update h mode)

theorem told_redBlock : Told c (redBlock c) := by
  have turn : Told c [.invert, .delay 10] := (told_invert c).append (told_delay c 10)
  have half : ∀ v, Told c (writePrev c .lightGray ++ setCV c v ++ update c .mono false ++ [.invert, .delay 10]) :=
    fun v => (((told_writePrev h _).append (told_setCV h v)).append (told_update h _)).append turn
  have both := (half 10000).append (half (-10000))
  refine Told.repeatOps ?_ 2
  simpa only [List.append_assoc] using both

theorem told_recipe (col : Colour) : Told c (recipe c col) := by
  have passes : ∀ n l mode, Told c (repeatOps n (pass c l mode)) := fun n l mode => (told_pass h l mode).repeatOps n
  have bw : Told c (renderBW c) :=
    ((((told_setCV h _).append (told_setSV h _)).append (told_invert c)).append
      (((told_pass h _ _).append (told_pass h _ _)).repeatOps 5)).append (told_invert c)
  cases col with
  | black => exact bw
  | white => exact bw
  | yellow => exact ((told_setCV h _).append (told_setSV h _)).append (passes _ _ _)
  | green => exact ((told_setCV h _).append (told_setSV h _)).append (passes _ _ _)
  | red => exact (told_setSV h _).append (told_redBlock h)
  | blue =>
    have lead : Told c (if c.blueLeadingSv then setSV c 10000 else []) := by
      split
      · exact told_setSV h _
      · exact .nil
    exact ((((lead.append (told_redBlock h)).append (told_setSV h _)).append (told_setCV h _)).append
      (told_invert c)).append (((told_pass h _ _).append (told_delay c 1)).repeatOps 2)

theorem told_screenErase : Told c (screenErase c) := by
  have half : ∀ v l, Told c (setCV c v ++ [.clear l] ++ erasePasses c ++ [.delay c.eraseDelayMs]) := fun v l =>
    (((told_setCV h v).append (told_clear c l)).append ((told_pass h _ _).repeatOps 3)).append (told_delay c _)
  have both : Told c (setCV c 15000 ++ [.clear .black] ++ erasePasses c ++ [.delay c.eraseDelayMs]
      ++ setCV c (-15000) ++ [.clear c.eraseNegLevel] ++ erasePasses c ++ [.delay c.eraseDelayMs]) := by
    have := (half 15000 .black).append (half (-15000) c.eraseNegLevel)
    simpa only [List.append_assoc] using this
  exact ((both.repeatOps 2).append (told_clear c _)).append (told_setCV h 0)

theorem told_begin : Told c (beginOps c) := by
  have write : ∀ a ∈ untoldRegs c, ∀ ops, Told c (writeReg a ops) := fun _ ha ops => told_writeReg h ha ops
  have hardware : Told c hardwareReset :=
    ((((((told_setReset c _).append (told_delay c _)).append (told_setReset c _)).append (told_delay c _)).append
      (told_setReset c _)).append (told_delay c _)).append (told_wait c)
  have reset : Told c (if c.hasResetLine then hardwareReset else softwareReset c) := by
    split
    · exact hardware
    · exact write _ (by simp [untoldRegs]) _
  have init : Told c (initRegisters c) := by
    unfold initRegisters
    refine Told.append (.append (.append (.append (.append (.append (.append ?_ ?_) ?_) ?_) ?_) ?_) ?_) ?_ <;>
      exact write _ (by simp [untoldRegs]) _
  exact ((reset.append init).append (told_screenErase h)).append (told_setConfigured c)

end bodies

/-! ## The places of an automatic update -/

/-- Whether the event writes program-select. -/
def selectsProgram (c : Config) : Coarse → Bool
  | .wr addr _ => addr == c.regProgrammedWaveform.setWidth 7
  | _ => false

/-- Whether the event is the first rails-down write. -/
def lowersRails (c : Config) : Coarse → Bool
  | .wr addr ops => addr == c.regPowerControl.setWidth 7 && ops == c.opsRailsDown1
  | _ => false

@[simp] theorem selectsProgram_waitBusy (c : Config) : selectsProgram c .waitBusy = false := rfl

@[simp] theorem lowersRails_waitBusy (c : Config) : lowersRails c .waitBusy = false := rfl

/-- How far a coarse trace has come in an update: how many events it has, and which of the two writes that tell its places
it has seen. -/
structure UpdatePlace where
  events : Nat
  selected : Bool
  lowered : Bool

/-- One more event. -/
def UpdatePlace.next (c : Config) (x : UpdatePlace) (e : Coarse) : UpdatePlace :=
  { events := x.events + 1, selected := x.selected || selectsProgram c e, lowered := x.lowered || lowersRails c e }

theorem foldl_updatePlace (c : Config) (x : UpdatePlace) (es : List Coarse) :
    es.foldl (UpdatePlace.next c) x =
      { events := x.events + es.length, selected := x.selected || es.any (selectsProgram c)
        lowered := x.lowered || es.any (lowersRails c) } := by
  induction es generalizing x with
  | nil => simp
  | cons e es ih =>
    rw [List.foldl_cons, ih]
    simp [UpdatePlace.next, Bool.or_assoc, Nat.add_assoc, Nat.add_comm 1]

theorem any_selectsProgram {c : Config} {es : List Coarse} :
    es.any (selectsProgram c) = true ↔ ∃ ops, .wr (c.regProgrammedWaveform.setWidth 7) ops ∈ es := by
  rw [List.any_eq_true]
  constructor
  · rintro ⟨e, he, hs⟩
    cases e with
    | wr addr ops =>
      obtain rfl : addr = c.regProgrammedWaveform.setWidth 7 := by simpa [selectsProgram] using hs
      exact ⟨ops, he⟩
    | _ => cases hs
  · rintro ⟨ops, he⟩
    exact ⟨_, he, by simp [selectsProgram]⟩

theorem any_lowersRails {c : Config} {es : List Coarse} :
    es.any (lowersRails c) = true ↔ .wr (c.regPowerControl.setWidth 7) c.opsRailsDown1 ∈ es := by
  rw [List.any_eq_true]
  constructor
  · rintro ⟨e, he, hs⟩
    cases e with
    | wr addr ops =>
      obtain ⟨rfl, rfl⟩ : addr = c.regPowerControl.setWidth 7 ∧ ops = c.opsRailsDown1 := by
        simpa [lowersRails] using hs
      exact he
    | _ => cases hs
  · intro he
    exact ⟨_, he, by simp [lowersRails]⟩

/-- What `PS` is where an update that began with `p₀` stops (R162, R196). -/
def UpdatePlace.Right (p₀ : PowerState) (x : UpdatePlace) (p : PowerState) : Prop :=
  (x.events < 4 → p = p₀) ∧ (4 ≤ x.events → x.selected = false → p = .poweringUp) ∧
    (x.selected = true → x.lowered = false → p = .up) ∧ (x.lowered = true → p = .poweringDown)

/-- The watcher that says where an update that began with `p₀` stops. -/
def tellsPlace (c : Config) (p₀ : PowerState) : Watcher UpdatePlace where
  see := UpdatePlace.next c
  stop := UpdatePlace.Right p₀
  done _ _ := True
  see_blank _ e := by cases e <;> rfl

/-- Before the end of the stream's wait: `n` events, none of them a write that tells a place. -/
def Streaming (p₀ : PowerState) (n : Nat) (x : UpdatePlace) (p : PowerState) : Prop := x = ⟨n, false, false⟩ ∧ p = p₀

/-- After it: whether program-select was written, whether the rails were lowered, and `PS`. -/
def Past (selected lowered : Bool) (q : PowerState) (x : UpdatePlace) (p : PowerState) : Prop :=
  4 ≤ x.events ∧ x.selected = selected ∧ x.lowered = lowered ∧ p = q

/-- The places an update can stop at after its stream, with the `PS` of each. -/
def Stands (b d : Bool) (q : PowerState) : Prop :=
  (b = false ∧ d = false ∧ q = .poweringUp) ∨ (b = true ∧ d = false ∧ q = .up) ∨ (b = true ∧ d = true ∧ q = .poweringDown)

theorem Past.right {b d : Bool} {q p₀ p : PowerState} {x : UpdatePlace} (hs : Stands b d q) (h : Past b d q x p) :
    x.Right p₀ p := by
  obtain ⟨hn, hb, hd, rfl⟩ := h
  rcases hs with ⟨rfl, rfl, rfl⟩ | ⟨rfl, rfl, rfl⟩ | ⟨rfl, rfl, rfl⟩ <;> simp [UpdatePlace.Right, hb, hd, hn]

theorem Past.next {c : Config} {b d : Bool} {q p : PowerState} {x : UpdatePlace} (h : Past b d q x p) (e : Coarse) :
    Past (b || selectsProgram c e) (d || lowersRails c e) q (x.next c e) p := by
  obtain ⟨hn, rfl, rfl, rfl⟩ := h
  exact ⟨Nat.le_succ_of_le hn, rfl, rfl, rfl⟩

theorem Past.wait {c : Config} {b d : Bool} {q p : PowerState} {x : UpdatePlace} (h : Past b d q x p) :
    Past b d q (x.next c .waitBusy) p := by
  simpa using h.next (c := c) .waitBusy

section places
variable {c : Config} (h : wellFormedConfig c = true) (p₀ : PowerState)

theorem place_wait {b d : Bool} {q : PowerState} (hs : Stands b d q) :
    (tellsPlace c p₀).Moves (Past b d q) [.wait 0] (Past b d q) :=
  .wait fun _ _ hx => ⟨hx.right hs, hx.wait⟩

theorem place_setPower {b d : Bool} {q : PowerState} (q' : PowerState) :
    (tellsPlace c p₀).Moves (Past b d q) [.setPower q'] (Past b d q') :=
  .setPower fun _ _ ⟨hn, hb, hd, _⟩ => ⟨hn, hb, hd, rfl⟩

theorem place_pollReady {b d : Bool} {q : PowerState} (hs : Stands b d q) :
    (tellsPlace c p₀).Moves (Past b d q) [.pollReady 0] (Past b d q) := by
  refine .pollReady fun x p cs hx hcs => ?_
  have hpast : Past b d q (cs.foldl (UpdatePlace.next c) x) p := by
    induction cs generalizing x with
    | nil => exact hx
    | cons e cs ih =>
      obtain ⟨he, hcs⟩ := List.forall_mem_cons.1 hcs
      refine ih _ ?_ hcs
      have hnext := hx.next (c := c) e
      rcases he with rfl | ⟨addr, rfl⟩ <;> simpa [selectsProgram, lowersRails] using hnext
  exact ⟨hpast.right hs, hpast⟩

include h

/-- A register write after the stream: the place after it must be one the update can stop at. -/
theorem place_writeReg {b d b' d' : Bool} {q : PowerState} {a : Byte} {ops : List Byte} (ha : a ∈ writtenRegs c)
    (hs : Stands b' d' q) (hb : (b || selectsProgram c (.wr (a.setWidth 7) ops)) = b')
    (hd : (d || lowersRails c (.wr (a.setWidth 7) ops)) = d') :
    (tellsPlace c p₀).Moves (Past b d q) (writeReg a ops) (Past b' d' q) := by
  refine .writeReg h ha fun x p hx => ?_
  have hpast := hx.next (c := c) (.wr (a.setWidth 7) ops)
  rw [hb, hd] at hpast
  exact ⟨hpast.right hs, hpast.wait⟩

theorem not_selectsProgram {a : Byte} (ha : a ∈ writtenRegs c) (hne : a ≠ c.regProgrammedWaveform) (ops : List Byte) :
    selectsProgram c (.wr (a.setWidth 7) ops) = false := by
  simpa [selectsProgram] using setWidth7_ne h ha (by simp [writtenRegs]) hne

theorem not_lowersRails {a : Byte} (ha : a ∈ writtenRegs c) (hne : a ≠ c.regPowerControl) (ops : List Byte) :
    lowersRails c (.wr (a.setWidth 7) ops) = false := by
  simp [lowersRails, setWidth7_ne h ha (by simp [writtenRegs]) hne]

theorem place_untold {b d : Bool} {q : PowerState} (hs : Stands b d q) {a : Byte} (ha : a ∈ untoldRegs c)
    (ops : List Byte) : (tellsPlace c p₀).Moves (Past b d q) (writeReg a ops) (Past b d q) := by
  have hw := mem_writtenRegs_of_untold ha
  obtain ⟨hregs, -⟩ := wf_tellingRegs h
  obtain ⟨-, hprog, hpower⟩ := hregs a ha
  exact place_writeReg h p₀ hw hs (by rw [not_selectsProgram h hw hprog, Bool.or_false])
    (by rw [not_lowersRails h hw hpower, Bool.or_false])

/-- The stream and its two waits leave `PS` as it was (R162). -/
theorem place_writeCurrent :
    (tellsPlace c p₀).Moves (Streaming p₀ 0) (writeBuf c .current .live) (Streaming p₀ 4) := by
  obtain ⟨-, hprog, hpower, -⟩ := wf_tellingRegs h
  have hw : c.regWritePointer ∈ writtenRegs c := by simp [writtenRegs]
  have pointer : (tellsPlace c p₀).Moves (Streaming p₀ 0) (writeReg c.regWritePointer c.opsWpCurrent)
      (Streaming p₀ 2) := by
    refine .writeReg h hw ?_
    rintro _ _ ⟨rfl, rfl⟩
    simp [tellsPlace, UpdatePlace.next, UpdatePlace.Right, Streaming, not_selectsProgram h hw hprog.symm,
      not_lowersRails h hw hpower.symm]
  have stream : (tellsPlace c p₀).Moves (Streaming p₀ 2) [.stream] (Streaming p₀ 3) :=
    .stream (by rintro _ _ data ⟨rfl, rfl⟩; exact ⟨rfl, rfl⟩)
  have wait : (tellsPlace c p₀).Moves (Streaming p₀ 3) [.wait 0] (Streaming p₀ 4) :=
    .wait (by
      rintro _ _ ⟨rfl, rfl⟩
      simp [tellsPlace, UpdatePlace.next, UpdatePlace.Right, Streaming])
  exact pointer.append (stream.append wait)

/-- The four places of an automatic update (R162). -/
theorem place_update (mode : UpdateMode) :
    (tellsPlace c p₀).Moves (Streaming p₀ 0) (update c mode false) (Past true true .down) := by
  obtain ⟨-, -, hpw, hpp⟩ := wf_tellingRegs h
  obtain ⟨-, hup, -, hdown⟩ := wf_tellingOperands h
  have powering : Stands false false .poweringUp := .inl ⟨rfl, rfl, rfl⟩
  have driving : Stands true false .up := .inr (.inl ⟨rfl, rfl, rfl⟩)
  have lowering : Stands true true .poweringDown := .inr (.inr ⟨rfl, rfl, rfl⟩)
  have hpower : c.regPowerControl ∈ writtenRegs c := by simp [writtenRegs]
  have hprog : c.regProgrammedWaveform ∈ writtenRegs c := by simp [writtenRegs]
  have start : (tellsPlace c p₀).Moves (Streaming p₀ 4) [.setPower .poweringUp] (Past false false .poweringUp) :=
    .setPower (by rintro _ _ ⟨rfl, rfl⟩; exact ⟨Nat.le_refl 4, rfl, rfl, rfl⟩)
  have rails : (tellsPlace c p₀).Moves (Past false false .poweringUp) (writeReg c.regPowerControl c.opsRailsUp)
      (Past false false .poweringUp) :=
    place_writeReg h p₀ hpower powering (by rw [not_selectsProgram h hpower hpp]; rfl) (by simp [lowersRails, hup])
  have on : (tellsPlace c p₀).Moves (Streaming p₀ 4) (powerOn c) (Past false false .up) :=
    (((((start.append (place_wait p₀ powering)).append (place_untold h p₀ powering (by simp [untoldRegs]) _)).append
      (place_untold h p₀ powering (by simp [untoldRegs]) _)).append
      (place_untold h p₀ powering (by simp [untoldRegs]) _)).append rails).append
      ((place_pollReady p₀ powering).append (place_setPower p₀ .up))
  have select : (tellsPlace c p₀).Moves (Past false false .up) (writeReg c.regProgrammedWaveform [progSel c mode])
      (Past true false .up) :=
    place_writeReg h p₀ hprog driving (by simp [selectsProgram]) (by rw [not_lowersRails h hprog hpp.symm]; rfl)
  have lower : (tellsPlace c p₀).Moves (Past true false .poweringDown) (writeReg c.regPowerControl c.opsRailsDown1)
      (Past true true .poweringDown) :=
    place_writeReg h p₀ hpower lowering (by simp) (by simp [lowersRails])
  have lowered : (tellsPlace c p₀).Moves (Past true true .poweringDown) (writeReg c.regPowerControl c.opsRailsDown2)
      (Past true true .poweringDown) :=
    place_writeReg h p₀ hpower lowering (by simp) (by simp)
  have off : (tellsPlace c p₀).Moves (Past true false .up) (powerOff c) (Past true true .down) :=
    (((((place_setPower p₀ .poweringDown).append lower).append (place_wait p₀ lowering)).append lowered).append
      (place_wait p₀ lowering)).append (place_setPower p₀ .down)
  exact (((((place_writeCurrent h p₀).append on).append select).append
    (place_untold h p₀ driving (by simp [untoldRegs]) _)).append (place_wait p₀ driving)).append off

end places

/-! ## The statement -/

/-- The bodies of the commands that call both power procedures keep telling `PS`. -/
theorem told_bodyOf {c : Config} (h : wellFormedConfig c = true) {i : Instr}
    (hi : (∃ mode, i = .wsUpdate mode false) ∨ (∃ colour, i = .wsRender colour) ∨ i = .wsBegin) :
    Told c (bodyOf c i) := by
  rcases hi with ⟨mode, rfl⟩ | ⟨colour, rfl⟩ | rfl
  · simp only [bodyOf, updateOps]
    split
    · exact told_update h _
    · exact .nil
  · simp only [bodyOf, renderOps]
    split
    · exact told_recipe h _
    · exact .nil
  · exact told_begin h

/-- `PS` is what the coarse trace tells, wherever such a command has come to. -/
theorem ps_eq_powerAfter {i : Instr} {s t : State} (hr : Ready s)
    (hi : (∃ mode, i = .wsUpdate mode false) ∨ (∃ colour, i = .wsRender colour) ∨ i = .wsBegin)
    (he : exec i s = .next t) :
    ∃ new, t.trace = s.trace ++ new ∧ t.ps = powerAfter s.cfg s.ps (coarse new) := by
  obtain ⟨hw, hs⟩ := hr
  have accepts : (tellsPower s.cfg).Accepts (s.ps, .other) s.ps (bodyOf s.cfg i) :=
    (told_bodyOf hw hi).accepts (by rintro _ p rfl; rfl) rfl
  rcases (tellsPower s.cfg).exec hs he accepts with (rfl | rfl) | ⟨new, es, htr, hem, hps⟩
  · exact ⟨[], (List.append_nil _).symm, rfl⟩
  · exact ⟨[], (List.append_nil _).symm, rfl⟩
  · refine ⟨new, htr, ?_⟩
    rw [hem.coarse_eq]
    exact hps.elim id And.left

/-- Where an automatic update that timed out stands, by its coarse trace. -/
theorem update_timeout_place {mode : BitVec 2} {new : List Event} {s t : State} (hr : Ready s)
    (he : exec (.wsUpdate mode false) s = .next t) (ht : t.returned = s.returned ++ [.deviceTimeout])
    (htr : t.trace = s.trace ++ new) :
    UpdatePlace.Right s.ps
      ⟨(coarse new).length, (coarse new).any (selectsProgram s.cfg), (coarse new).any (lowersRails s.cfg)⟩ t.ps := by
  obtain ⟨hw, hs⟩ := hr
  have accepts : (tellsPlace s.cfg s.ps).Accepts ⟨0, false, false⟩ s.ps (bodyOf s.cfg (.wsUpdate mode false)) := by
    simp only [bodyOf, updateOps]
    split
    · exact (place_update hw s.ps _).accepts (fun _ _ _ => trivial) ⟨rfl, rfl⟩
    · trivial
  obtain ⟨new', es, htr', hem, hright⟩ := (tellsPlace s.cfg s.ps).exec_timeout hs he ht accepts
  obtain rfl : new = new' := List.append_cancel_left (htr.symm.trans htr')
  rw [hem.coarse_eq]
  simpa [tellsPlace, foldl_updatePlace] using hright

/-- Settles O41: the commands without `setPower` keep `PS`; the watchers of the others are right about it. -/
theorem timeoutLeavesPowerState : Obligations.TimeoutLeavesPowerState := by
  intro s t hr
  have hs : s.seq = .idle := hr.2
  refine ⟨fun i hi he => ?_, fun he ht => ?_, fun he ht => ?_, fun i hi he => ps_eq_powerAfter hr hi he,
    fun mode new he ht htr => ?_⟩
  · exact exec_keeps_field (f := State.ps) (keeps_ps (setPower_not_mem_bodyOf hi s.cfg)) (fun _ _ => rfl)
      (fun _ _ => rfl) he
  · obtain ⟨_, _, _, _, hps⟩ := (stopsAt .poweringUp).exec_timeout hs he ht (stopsAt_powerOn s.cfg s.ps)
    exact hps
  · obtain ⟨_, _, _, _, hps⟩ := (stopsAt .poweringDown).exec_timeout hs he ht (stopsAt_powerOff s.cfg s.ps)
    exact hps
  · obtain ⟨hstart, hpowering, hdriving, hlowering⟩ := update_timeout_place hr he ht htr
    refine ⟨hstart, fun hlen hnot => hpowering hlen ?_, fun ops hsel hnot => hdriving ?_ ?_,
      fun hlow => hlowering (any_lowersRails.2 hlow)⟩
    · exact Bool.eq_false_iff.2 fun hany => (any_selectsProgram.1 hany).elim hnot
    · exact any_selectsProgram.2 ⟨ops, hsel⟩
    · exact Bool.eq_false_iff.2 fun hany => hnot (any_lowersRails.1 hany)

end Sys2Proof.Machine
end

section
/-! The host command words (30_encoding.md R72 to R74): the rows of the command table, which the decoder reads and the
encoder writes. -/

namespace Sys2Proof

/-! ## The argument codes (R74) -/

@[simp] theorem Level.ofCode_code (l : Level) : Level.ofCode l.code = l := by cases l <;> rfl

@[simp] theorem Level.code_ofCode (c : BitVec 2) : (Level.ofCode c).code = c := by revert c; decide

@[simp] theorem BufferSel.ofBit_bit (b : BufferSel) : BufferSel.ofBit b.bit = b := by cases b <;> rfl

@[simp] theorem BufferSel.bit_ofBit (b : BitVec 1) : (BufferSel.ofBit b).bit = b := by revert b; decide

@[simp] theorem FillSel.ofBit_bit (f : FillSel) : FillSel.ofBit f.bit = f := by cases f <;> rfl

@[simp] theorem FillSel.bit_ofBit (b : BitVec 1) : (FillSel.ofBit b).bit = b := by revert b; decide

@[simp] theorem ofBool_beq_one (b : Bool) : (BitVec.ofBool b == 1#1) = b := by cases b <;> rfl

@[simp] theorem ofBool_of_beq_one (b : BitVec 1) : BitVec.ofBool (b == 1#1) = b := by revert b; decide

/-! ## The rows of the command table (R72, R73) -/

/-- The row of a command, read off the word: its opcode, and each argument's code in its field. A frame has no row. -/
def HasFields (w : CmdWord) : Instr → Prop
  | .fbClear level => cmdField w 48 8 = 0x01#8 ∧ cmdField w 0 2 = level.code
  | .fbInvert => cmdField w 48 8 = 0x02#8
  | .fbSetseg index level => cmdField w 48 8 = 0x03#8 ∧ cmdField w 8 5 = index ∧ cmdField w 0 2 = level.code
  | .fbDrawsegs mask level => cmdField w 48 8 = 0x04#8 ∧ cmdField w 8 32 = mask ∧ cmdField w 0 2 = level.code
  | .rpWrreg addr pm op0 op1 op2 op3 =>
    cmdField w 48 8 = 0x10#8 ∧ cmdField w 40 8 = addr ∧ cmdField w 32 4 = pm ∧ cmdField w 24 8 = op0 ∧
      cmdField w 16 8 = op1 ∧ cmdField w 8 8 = op2 ∧ cmdField w 0 8 = op3
  | .rpRdreg addr => cmdField w 48 8 = 0x11#8 ∧ cmdField w 40 8 = addr
  | .rpWrbuf target fillsel fill =>
    cmdField w 48 8 = 0x12#8 ∧ cmdField w 8 8 = fill ∧ cmdField w 1 1 = fillsel.bit ∧ cmdField w 0 1 = target.bit
  | .psOn => cmdField w 48 8 = 0x20#8
  | .psOff => cmdField w 48 8 = 0x21#8
  | .wsBegin => cmdField w 48 8 = 0x30#8
  | .wsUpdate mode manual =>
    cmdField w 48 8 = 0x31#8 ∧ cmdField w 2 1 = BitVec.ofBool manual ∧ cmdField w 0 2 = mode
  | .wsRender colour => cmdField w 48 8 = 0x32#8 ∧ cmdField w 0 3 = colour
  | .wsSetcv v => cmdField w 48 8 = 0x33#8 ∧ cmdField w 0 16 = v
  | .wsSetsv sv => cmdField w 48 8 = 0x34#8 ∧ cmdField w 0 16 = sv
  | .wWrreg _ _ => False
  | .wRdreg _ _ => False
  | .wWrbuf _ => False

/-! ## The decoder reads a row -/

theorem decode_of_hasFields {w : CmdWord} {i : Instr} (h : HasFields w i) : decode w = .ok i := by
  cases i with
  | wWrreg addr ops => exact h.elim
  | wRdreg addr filler => exact h.elim
  | wWrbuf data => exact h.elim
  | _ =>
    simp only [HasFields] at h
    simp [decode, h]

theorem exists_hasFields {w : CmdWord} (h : cmdField w 48 8 ∈ Machine.commandOpcodes) : ∃ i, HasFields w i := by
  have level : cmdField w 0 2 = (Level.ofCode (cmdField w 0 2)).code := (Level.code_ofCode _).symm
  simp only [Machine.commandOpcodes, List.mem_cons, List.not_mem_nil, or_false] at h
  rcases h with h | h | h | h | h | h | h | h | h | h | h | h | h | h
  · exact ⟨.fbClear _, h, level⟩
  · exact ⟨.fbInvert, h⟩
  · exact ⟨.fbSetseg _ _, h, rfl, level⟩
  · exact ⟨.fbDrawsegs _ _, h, rfl, level⟩
  · exact ⟨.rpWrreg _ _ _ _ _ _, h, rfl, rfl, rfl, rfl, rfl, rfl⟩
  · exact ⟨.rpRdreg _, h, rfl⟩
  · exact ⟨.rpWrbuf _ _ _, h, rfl, (FillSel.bit_ofBit _).symm, (BufferSel.bit_ofBit _).symm⟩
  · exact ⟨.psOn, h⟩
  · exact ⟨.psOff, h⟩
  · exact ⟨.wsBegin, h⟩
  · exact ⟨.wsUpdate _ _, h, (ofBool_of_beq_one _).symm, rfl⟩
  · exact ⟨.wsRender _, h, rfl⟩
  · exact ⟨.wsSetcv _, h, rfl⟩
  · exact ⟨.wsSetsv _, h, rfl⟩

theorem decode_of_not_mem {w : CmdWord} (h : cmdField w 48 8 ∉ Machine.commandOpcodes) :
    decode w = .error (.unknownOpcode (cmdField w 48 8)) := by
  simp only [Machine.commandOpcodes, List.mem_cons, List.not_mem_nil, or_false, not_or] at h
  simp [decode, h]

/-- A word decodes to the command whose row it has, and to nothing else. -/
theorem decode_eq_ok_iff {w : CmdWord} {i : Instr} : decode w = .ok i ↔ HasFields w i := by
  refine ⟨fun h => ?_, decode_of_hasFields⟩
  by_cases hop : cmdField w 48 8 ∈ Machine.commandOpcodes
  · obtain ⟨i', hi'⟩ := exists_hasFields hop
    obtain rfl : i' = i := Except.ok.inj ((decode_of_hasFields hi').symm.trans h)
    exact hi'
  · rw [decode_of_not_mem hop] at h
    cases h

/-- Settles O3: the opcodes of the list are those of the rows. -/
theorem fourteenOpcodes : Obligations.FourteenOpcodes := fun _ =>
  ⟨fun h => (exists_hasFields h).imp fun _ => decode_of_hasFields, decode_of_not_mem⟩

/-! ## The encoder writes a row -/

/-- Each field is read back from where the encoder writes it. -/
theorem hasFields_of_encode {w : CmdWord} {i : Instr} (h : encode i = .command w) : HasFields w i := by
  cases i with
  | wWrreg addr ops => cases h
  | wRdreg addr filler => cases h
  | wWrbuf data => cases h
  | _ =>
    cases h
    simp (disch := decide) only [HasFields, cmdField, extract_append_low, extract_append_high, extract_all,
      Nat.reduceSub, and_self]

/-- The mask `m` keeps `x` of the `n` bits of `w` from bit `lo` on. -/
def Kept (w : CmdWord) (lo n : Nat) (m x : BitVec n) : Prop := cmdField w lo n &&& m = x

section kept
variable {w : CmdWord} {lo : Nat}

/-- Bits that a field uses. -/
theorem Kept.field {n : Nat} {x : BitVec n} (h : cmdField w lo n = x) : Kept w lo n (BitVec.allOnes n) x := by
  rw [Kept, BitVec.and_allOnes, h]

/-- Bits that no field uses. -/
theorem Kept.gap (n : Nat) : Kept w lo n 0#n 0#n := BitVec.and_zero

theorem Kept.append {hi n k : Nat} {m x : BitVec n} {m' x' : BitVec k} (h : Kept w hi n m x) (h' : Kept w lo k m' x')
    (join : hi = lo + k := by rfl) : Kept w lo (n + k) (m ++ m') (x ++ x') := by
  have split : cmdField w lo (n + k) = cmdField w hi n ++ cmdField w lo k :=
    (BitVec.extractLsb'_append_extractLsb'_eq_extractLsb' join).symm
  rw [Kept, split, BitVec.and_append, h, h']

theorem Kept.command {m x : CmdWord} {i : Instr} (h : Kept w 0 56 m x) (hm : Machine.fieldMask i = m) :
    Encoded.command x = .command (w &&& Machine.fieldMask i) := by
  rw [hm, ← h, cmdField, extract_all]

end kept

/-- Each row's fields and gaps, from bit 55 down. -/
theorem encode_of_hasFields {w : CmdWord} {i : Instr} (h : HasFields w i) :
    encode i = .command (w &&& Machine.fieldMask i) := by
  cases i with
  | fbClear level =>
    obtain ⟨hop, hlevel⟩ := h
    have row := ((Kept.field hop).append (.gap 46)).append (.field hlevel)
    exact row.command (by simp [Machine.fieldMask])
  | fbInvert => exact ((Kept.field h).append (.gap 48)).command (by simp [Machine.fieldMask])
  | fbSetseg index level =>
    obtain ⟨hop, hindex, hlevel⟩ := h
    have row := ((((Kept.field hop).append (.gap 35)).append (.field hindex)).append (.gap 6)).append (.field hlevel)
    exact row.command (by simp [Machine.fieldMask])
  | fbDrawsegs mask level =>
    obtain ⟨hop, hmask, hlevel⟩ := h
    have row := ((((Kept.field hop).append (.gap 8)).append (.field hmask)).append (.gap 6)).append (.field hlevel)
    exact row.command (by simp [Machine.fieldMask])
  | rpWrreg addr pm op0 op1 op2 op3 =>
    obtain ⟨hop, haddr, hpm, h0, h1, h2, h3⟩ := h
    have row := (((((((Kept.field hop).append (.field haddr)).append (.gap 4)).append (.field hpm)).append
      (.field h0)).append (.field h1)).append (.field h2)).append (.field h3)
    exact row.command (by simp [Machine.fieldMask])
  | rpRdreg addr =>
    obtain ⟨hop, haddr⟩ := h
    have row := ((Kept.field hop).append (.field haddr)).append (.gap 40)
    exact row.command (by simp [Machine.fieldMask])
  | rpWrbuf target fillsel fill =>
    obtain ⟨hop, hfill, hfillsel, htarget⟩ := h
    have row := (((((Kept.field hop).append (.gap 32)).append (.field hfill)).append (.gap 6)).append
      (.field hfillsel)).append (.field htarget)
    exact row.command (by simp [Machine.fieldMask])
  | psOn => exact ((Kept.field h).append (.gap 48)).command (by simp [Machine.fieldMask])
  | psOff => exact ((Kept.field h).append (.gap 48)).command (by simp [Machine.fieldMask])
  | wsBegin => exact ((Kept.field h).append (.gap 48)).command (by simp [Machine.fieldMask])
  | wsUpdate mode manual =>
    obtain ⟨hop, hmanual, hmode⟩ := h
    have row := (((Kept.field hop).append (.gap 45)).append (.field hmanual)).append (.field hmode)
    exact row.command (by simp [Machine.fieldMask])
  | wsRender colour =>
    obtain ⟨hop, hcolour⟩ := h
    have row := ((Kept.field hop).append (.gap 45)).append (.field hcolour)
    exact row.command (by simp [Machine.fieldMask])
  | wsSetcv v =>
    obtain ⟨hop, hv⟩ := h
    have row := ((Kept.field hop).append (.gap 32)).append (.field hv)
    exact row.command (by simp [Machine.fieldMask])
  | wsSetsv sv =>
    obtain ⟨hop, hsv⟩ := h
    have row := ((Kept.field hop).append (.gap 32)).append (.field hsv)
    exact row.command (by simp [Machine.fieldMask])
  | wWrreg addr ops => exact h.elim
  | wRdreg addr filler => exact h.elim
  | wWrbuf data => exact h.elim

end Sys2Proof
end

section
/-! The wire frames (30_encoding.md R76 to R79, R86): the kind of a frame by its first byte, and the length each kind
has; then encoder and decoder agree, on words and on frames. -/

namespace Sys2Proof

/-! ## The first byte (R76, R77, R79) -/

@[simp] theorem frameKind_bufWrite : frameKind 0x10#8 = .bufWrite := rfl

theorem frameKind_regRead {b : Byte} (h7 : b.getLsbD 7 = true) : frameKind b = .regRead (b.setWidth 7) := by
  have h10 : b ≠ 0x10#8 := by rintro rfl; cases h7
  rw [frameKind, if_neg h10, if_pos h7, Machine.low7]

theorem frameKind_regWrite {b : Byte} (h10 : b ≠ 0x10#8) (h7 : b.getLsbD 7 = false) :
    frameKind b = .regWrite (b.setWidth 7) := by
  rw [frameKind, if_neg h10, h7, Machine.low7]
  rfl

@[simp] theorem frameKind_readFrameHead (a : BitVec 7) : frameKind (readFrameHead a) = .regRead a := by
  revert a
  decide

theorem frameKind_writeFrameHead {a : BitVec 7} (h10 : a ≠ 0x10#7) : frameKind (writeFrameHead a) = .regWrite a := by
  revert a
  decide

theorem readFrameHead_setWidth {b : Byte} (h7 : b.getLsbD 7 = true) : readFrameHead (b.setWidth 7) = b := by
  revert b
  decide

theorem writeFrameHead_setWidth {b : Byte} (h7 : b.getLsbD 7 = false) : writeFrameHead (b.setWidth 7) = b := by
  revert b
  decide

/-- R79: every first byte is that of a buffer write, of a register read, or of a register write. -/
theorem frame_head_cases (b : Byte) :
    b = 0x10#8 ∨ (∃ a, b = readFrameHead a) ∨ ∃ a, a ≠ 0x10#7 ∧ b = writeFrameHead a := by
  cases h7 : b.getLsbD 7 with
  | true => exact .inr (.inl ⟨_, (readFrameHead_setWidth h7).symm⟩)
  | false =>
    have head : b = writeFrameHead (b.setWidth 7) := (writeFrameHead_setWidth h7).symm
    by_cases h10 : b.setWidth 7 = 0x10#7
    · exact .inl (by rw [head, h10]; rfl)
    · exact .inr (.inr ⟨_, h10, head⟩)

/-! ## The length (R86) -/

section decodeFrame
variable {n : Nat} {b : Byte} {rest : List Byte} {a : BitVec 7}

theorem decodeFrame_bufWrite (hk : frameKind b = .bufWrite) : decodeFrame n (b :: rest) =
    if rest.length = n then .ok (.wWrbuf rest) else .error (.frameLength (rest.length + 1)) := by
  rw [decodeFrame, hk]

theorem decodeFrame_regWrite (hk : frameKind b = .regWrite a) : decodeFrame n (b :: rest) =
    if rest.length ≤ 4 then .ok (.wWrreg a rest) else .error (.frameLength (rest.length + 1)) := by
  rw [decodeFrame, hk]

theorem decodeFrame_regRead (hk : frameKind b = .regRead a) (f : Byte) : decodeFrame n [b, f] = .ok (.wRdreg a f) := by
  rw [decodeFrame, hk]

theorem decodeFrame_regRead_length (hk : frameKind b = .regRead a) (h : rest.length ≠ 1) :
    decodeFrame n (b :: rest) = .error (.frameLength (rest.length + 1)) := by
  rw [decodeFrame, hk]
  match rest, h with
  | [], _ => rfl
  | _ :: _ :: _, _ => rfl

end decodeFrame

/-- The bytes of a frame decode to the well-formed instruction that they encode, and to nothing else. -/
theorem decodeFrame_eq_ok_iff {n : Nat} {bytes : List Byte} {i : Instr} :
    decodeFrame n bytes = .ok i ↔ encode i = .frame bytes ∧ i.wellFormed n = true := by
  constructor
  · intro h
    cases bytes with
    | nil => cases h
    | cons b rest =>
      rcases frame_head_cases b with rfl | ⟨a, rfl⟩ | ⟨a, h10, rfl⟩
      · rw [decodeFrame_bufWrite frameKind_bufWrite] at h
        split at h <;> cases h
        next hlen => exact ⟨rfl, beq_iff_eq.2 hlen⟩
      · by_cases hlen : rest.length = 1
        · obtain ⟨f, rfl⟩ := List.length_eq_one_iff.1 hlen
          rw [decodeFrame_regRead (frameKind_readFrameHead a)] at h
          cases h
          exact ⟨rfl, rfl⟩
        · rw [decodeFrame_regRead_length (frameKind_readFrameHead a) hlen] at h
          cases h
      · rw [decodeFrame_regWrite (frameKind_writeFrameHead h10)] at h
        split at h <;> cases h
        next hlen => exact ⟨rfl, by simp [Instr.wellFormed, h10, hlen]⟩
  · rintro ⟨henc, hwf⟩
    cases i with
    | wWrreg addr ops =>
      cases henc
      simp only [Instr.wellFormed, Bool.and_eq_true, bne_iff_ne, decide_eq_true_eq] at hwf
      obtain ⟨h10, hlen⟩ := hwf
      rw [decodeFrame_regWrite (frameKind_writeFrameHead h10), if_pos hlen]
    | wRdreg addr filler =>
      cases henc
      exact decodeFrame_regRead (frameKind_readFrameHead addr) filler
    | wWrbuf data =>
      cases henc
      rw [decodeFrame_bufWrite frameKind_bufWrite, if_pos (beq_iff_eq.1 hwf)]
    | _ => cases henc

/-! ## The statements -/

/-- Settles O1: a command's encoding has the row that decodes to it; a frame's has its kind's first byte and length. -/
theorem decodeEncodeAgree : Obligations.DecodeEncodeAgree := by
  intro n i hwf
  cases henc : encode i with
  | command w => exact decode_of_hasFields (hasFields_of_encode henc)
  | frame bytes => exact decodeFrame_eq_ok_iff.2 ⟨henc, hwf⟩

/-- Settles O2: a word that decodes to a command has its row, whose fields the encoder writes. -/
theorem encodeDecodeAgree : Obligations.EncodeDecodeAgree :=
  ⟨fun _ _ h => encode_of_hasFields (decode_eq_ok_iff.1 h), fun _ _ _ => decodeFrame_eq_ok_iff.1⟩

/-- Settles O4: one kind and one length for each of the first bytes. -/
theorem firstByteClassifiesFrame : Obligations.FirstByteClassifiesFrame := by
  intro n b rest
  refine ⟨?buf, fun _ h7 => ?rd, fun h10 h7 => ?wr, ?bufOk, ?rdOk, fun h10 h7 hlen => ?wrOk, ?length⟩
  case buf =>
    rintro rfl
    exact ⟨frameKind_bufWrite, fun _ _ => rfl⟩
  case rd =>
    have hk := frameKind_regRead h7
    exact ⟨hk, fun r => by simp [Machine.coarseFrame, hk], fun r x more => by simp [Machine.coarseFrame, hk]⟩
  case wr =>
    have hk := frameKind_regWrite h10 h7
    exact ⟨hk, fun r more => by simp [Machine.coarseFrame, hk]⟩
  case bufOk =>
    rintro rfl hlen
    rw [decodeFrame_bufWrite frameKind_bufWrite, if_pos hlen]
  case rdOk =>
    rintro f h7 rfl
    exact decodeFrame_regRead (frameKind_regRead h7) f
  case wrOk => rw [decodeFrame_regWrite (frameKind_regWrite h10 h7), if_pos hlen]
  case length =>
    rintro (⟨rfl, hlen⟩ | ⟨h7, hlen⟩ | ⟨h10, h7, hlen⟩)
    · rw [decodeFrame_bufWrite frameKind_bufWrite, if_neg hlen]
    · exact decodeFrame_regRead_length (frameKind_regRead h7) hlen
    · rw [decodeFrame_regWrite (frameKind_regWrite h10 h7), if_neg (Nat.not_le.2 hlen)]

end Sys2Proof
end

section
/-! The operand encoders (30_encoding.md R80 to R83, R89). -/

namespace Sys2Proof.Machine

/-! ## Sub-fields (R52, R80, R81) -/

/-- A sub-field is the slice of two bits at its shift. -/
theorem getField_eq_extract (m : Bool) (b : Byte) (k : Nat) : getField m b k = b.extractLsb' (fieldShift m k) 2 :=
  BitVec.eq_of_toNat_eq (by simp [getField])

theorem fieldShift_cases (m : Bool) {k : Nat} (hk : k < 4) :
    fieldShift m k = 0 ∨ fieldShift m k = 2 ∨ fieldShift m k = 4 ∨ fieldShift m k = 6 := by
  cases m <;> simp only [fieldShift, Bool.false_eq_true, if_true, if_false] <;> omega

theorem getField_pattern (m : Bool) (l : Level) {k : Nat} (hk : k < 4) : getField m (pattern l) k = l.code := by
  rw [getField_eq_extract, pattern]
  rcases fieldShift_cases m hk with h | h | h | h <;> rw [h] <;>
    simp (disch := decide) only [extract_append_low, extract_append_high, extract_all, Nat.reduceSub]

/-- Settles O6: the sub-fields are the slices that the pattern joins. -/
theorem patternCopiesLevel : Obligations.PatternCopiesLevel := by
  intro l
  have product : (pattern l).toNat = l.code.toNat * 0x55 := by cases l <;> rfl
  exact ⟨product, fun m _ hk => getField_pattern m l hk, rfl, rfl, rfl, rfl⟩

/-- Settles O7, by the laws of the sub-fields behind R109. -/
theorem setFieldReplacesOne : Obligations.SetFieldReplacesOne := fun m b k l hk =>
  ⟨getField_setField_same m b l hk, fun _ hk' hne => getField_setField_other m b l hk hk' hne,
    getField_eq_extract true b k, getField_eq_extract false b k⟩

/-! ## Register operands (R89) -/

/-- One slot: present, its byte comes before those of the later slots; absent, nothing does. -/
theorem map_filter_cons {α β : Type} (p : α → Bool) (f : α → β) (k : α) (ks : List α) :
    ((k :: ks).filter p).map f = (if p k then [f k] else []) ++ (ks.filter p).map f := by
  cases h : p k <;> simp [h]

/-- Settles O8, slot by slot. -/
theorem absentOperandsSkipped : Obligations.AbsentOperandsSkipped := by
  intro pm op0 op1 op2 op3
  have slots : List.range 4 = [0, 1, 2, 3] := rfl
  simp [slots, map_filter_cons, presentOps]

/-! ## The common voltage (R38, R82) -/

/-- The bytes as a low byte and a high byte with the sign. -/
theorem encodeCV_eq (v : Int) : encodeCV v = [BitVec.ofNat 8 (v.natAbs / 30),
    if v < 0 then BitVec.ofNat 8 (v.natAbs / 30 / 256) ||| 0x04#8 else BitVec.ofNat 8 (v.natAbs / 30 / 256)] := rfl

/-- Two bits of magnitude leave bit 2 to the sign. -/
theorem cvHigh_fields {q : Nat} (hq : q < 4) (p : Prop) [Decidable p] :
    (if p then BitVec.ofNat 8 q ||| 0x04#8 else BitVec.ofNat 8 q).toNat % 4 = q ∧
      ((if p then BitVec.ofNat 8 q ||| 0x04#8 else BitVec.ofNat 8 q).getLsbD 2 = true ↔ p) ∧
      (if p then BitVec.ofNat 8 q ||| 0x04#8 else BitVec.ofNat 8 q).toNat / 8 = 0 := by
  split <;> interval_cases q <;> simp_all

/-- Settles O9: in range the magnitude is less than 1024, so that its high byte is less than 4. -/
theorem commonVoltageBytes : Obligations.CommonVoltageBytes := by
  intro v
  refine ⟨_, _, encodeCV_eq v, rfl, fun hv => ?_, fun hv => if_pos hv, fun hv => ?_⟩
  · rw [if_neg (by omega)]
    rfl
  · obtain ⟨hlow, hsign, hhigh⟩ := cvHigh_fields (q := v.natAbs / 30 / 256) (by omega) (v < 0)
    refine ⟨?_, hsign, hhigh⟩
    rw [hlow, BitVec.toNat_ofNat]
    omega

/-! ## The source voltage (R37, R83) -/

theorem setWidth_ofInt (x : Int) : (BitVec.ofInt 16 x).setWidth 8 = BitVec.ofInt 8 x := by
  apply BitVec.eq_of_toNat_eq
  simp only [BitVec.toNat_setWidth, BitVec.toNat_ofInt]
  omega

theorem shiftLeft_ofInt (x : Int) : BitVec.ofInt 16 x <<< 4 = BitVec.ofInt 16 (x * 16) := by
  rw [BitVec.shiftLeft_eq_mul_twoPow, BitVec.ofInt_mul]
  rfl

theorem encodeSV_eq (sv : Nat) :
    encodeSV sv = BitVec.ofInt 8 (svNibble sv * 16) ||| BitVec.ofInt 8 (svNibble sv) := by
  rw [encodeSV, shiftLeft_ofInt, BitVec.setWidth_or, setWidth_ofInt, setWidth_ofInt]

/-- Settles O10: in range there are eight thousands, 8 to 15. -/
theorem sourceVoltageByte : Obligations.SourceVoltageByte := by
  intro sv
  refine ⟨encodeSV_eq sv, fun hlo hhi => ?_⟩
  rw [encodeSV_eq, svNibble]
  have lo : 8 ≤ sv / 1000 := by omega
  have hi : sv / 1000 ≤ 15 := by omega
  generalize sv / 1000 = q at lo hi
  interval_cases q <;> decide

end Sys2Proof.Machine
end

section
/-! Words and frames that wait are read by the fetch of an idle block only (30_encoding.md R71): what a running command
does commutes with replacing them. -/

namespace Sys2Proof.Machine

/-- Settles O12. -/
theorem stepRunsTheCommand : Obligations.StepRunsTheCommand := by
  rintro s w rest i ⟨hw, hs⟩ hframes hwords hdecode
  simp [step, hw, hs, hframes, hwords, hdecode]

/-! ## Other words and frames waiting -/

/-- `s` with other words and frames waiting. -/
def State.withWaiting (words : List CmdWord) (frames : List (List Byte)) (s : State) : State :=
  { s with hostIn := words, frameIn := frames }

/-- Where a wait has come to, with other words and frames waiting. -/
def WaitEnd.withWaiting (words : List CmdWord) (frames : List (List Byte)) : WaitEnd → WaitEnd
  | .clear s => .clear (s.withWaiting words frames)
  | .timeout s => .timeout (s.withWaiting words frames)
  | .pending polls s => .pending polls (s.withWaiting words frames)

/-- Where a statement has come to, with other words and frames waiting. -/
def OpEnd.withWaiting (words : List CmdWord) (frames : List (List Byte)) : OpEnd → OpEnd
  | .done s => .done (s.withWaiting words frames)
  | .finish r s => .finish r (s.withWaiting words frames)
  | .pend op s => .pend op (s.withWaiting words frames)

theorem resume_running {c : Instr} {k : Nat} {todo : List Op} {s : State} (hs : s.seq = .running c k todo) :
    s.resume = runOps todo (if s.env.busy = [] then s.nextBusy else s) := by
  rw [State.resume, hs]

section waiting
variable (words : List CmdWord) (frames : List (List Byte))

@[simp] theorem State.withWaiting_cfg (s : State) : (s.withWaiting words frames).cfg = s.cfg := rfl

theorem sendFrame_withWaiting (bytes : List Byte) (s : State) : (s.withWaiting words frames).sendFrame bytes =
    ((s.sendFrame bytes).1, (s.sendFrame bytes).2.withWaiting words frames) := by
  rw [State.sendFrame_eq, State.sendFrame_eq]
  rfl

theorem readFrame_withWaiting (head filler : Byte) (s : State) : (s.withWaiting words frames).readFrame head filler =
    ((s.readFrame head filler).1, (s.readFrame head filler).2.withWaiting words frames) := by
  rw [State.readFrame, sendFrame_withWaiting]
  rfl

/-- A wait takes the same samples. -/
theorem waitFrom_withWaiting (q : List Bool) (polls : Nat) (s : State) :
    waitFrom q polls (s.withWaiting words frames) = (waitFrom q polls s).withWaiting words frames := by
  induction q generalizing polls s with
  | nil => rfl
  | cons b rest ih =>
    have sampled : (s.withWaiting words frames).sampled b rest = (s.sampled b rest).withWaiting words frames := rfl
    simp only [waitFrom, sampled, State.withWaiting_cfg, ih]
    split
    · rfl
    · split <;> rfl

theorem waitBusyClear_withWaiting (polls : Nat) (s : State) :
    (s.withWaiting words frames).waitBusyClear polls = (s.waitBusyClear polls).withWaiting words frames :=
  waitFrom_withWaiting words frames s.env.busy polls s

/-- The ready poll reads the same statuses. -/
theorem pollFrom_withWaiting (fuel reads : Nat) (s : State) :
    pollFrom fuel reads (s.withWaiting words frames) = (pollFrom fuel reads s).withWaiting words frames := by
  induction fuel generalizing reads s with
  | zero => rfl
  | succ fuel ih =>
    simp only [pollFrom, State.withWaiting_cfg, readFrame_withWaiting, waitBusyClear_withWaiting]
    cases (s.readFrame (s.cfg.regStatus ||| readFlag) s.cfg.filler).2.waitBusyClear 0 with
    | clear s' =>
      simp only [WaitEnd.withWaiting, State.withWaiting_cfg, ih]
      split
      · rfl
      · split <;> rfl
    | timeout s' => rfl
    | pending polls s' => rfl

theorem pollPump_withWaiting (reads : Nat) (s : State) :
    (s.withWaiting words frames).pollPump reads = (s.pollPump reads).withWaiting words frames :=
  pollFrom_withWaiting words frames (s.env.busy.length + 1) reads s

/-- Every statement does the same. -/
theorem doOp_withWaiting (op : Op) (s : State) :
    doOp op (s.withWaiting words frames) = (doOp op s).withWaiting words frames := by
  cases op with
  | frame bytes => rw [doOp, sendFrame_withWaiting]; rfl
  | stream => exact congrArg (fun e => OpEnd.done e.2) (sendFrame_withWaiting words frames _ s)
  | wait polls =>
    rw [doOp, waitBusyClear_withWaiting, doOp]
    cases s.waitBusyClear polls <;> rfl
  | readResult head filler =>
    simp only [doOp, readFrame_withWaiting, waitBusyClear_withWaiting]
    cases (s.readFrame head filler).2.waitBusyClear 0 <;> rfl
  | readWait r polls =>
    rw [doOp, waitBusyClear_withWaiting, doOp]
    cases s.waitBusyClear polls <;> rfl
  | pollReady reads => exact pollPump_withWaiting words frames reads s
  | pollWait r polls reads =>
    rw [doOp, waitBusyClear_withWaiting, doOp]
    cases s.waitBusyClear polls with
    | clear s' =>
      simp only [WaitEnd.withWaiting, State.withWaiting_cfg, pollPump_withWaiting]
      split
      · rfl
      · split <;> rfl
    | timeout s' => rfl
    | pending p s' => rfl
  | setPower p => rfl
  | setReset l => rfl
  | delay n => rfl
  | clear level => rfl
  | invert => rfl
  | setSeg index level => rfl
  | setConfigured => rfl

theorem runOps_withWaiting (ops : List Op) (s : State) :
    runOps ops (s.withWaiting words frames) = (runOps ops s).withWaiting words frames := by
  induction ops generalizing s with
  | nil => rfl
  | cons op rest ih =>
    rw [runOps, doOp_withWaiting, runOps]
    cases doOp op s with
    | done s' => exact ih s'
    | finish r s' => rfl
    | pend op' s' => rfl

theorem resume_withWaiting {c : Instr} {k : Nat} {todo : List Op} {s : State} (hs : s.seq = .running c k todo) :
    (s.withWaiting words frames).resume = s.resume.withWaiting words frames := by
  rw [resume_running hs, resume_running (s := s.withWaiting words frames) hs, ← runOps_withWaiting]
  congr 1
  exact (apply_ite (State.withWaiting words frames) (s.env.busy = []) s.nextBusy s).symm

end waiting

/-! ## A running block -/

theorem exec_running (i : Instr) {s : State} (hw : wellFormedConfig s.cfg = true) (hs : s.seq ≠ .idle) :
    exec i s = .next s := by
  simp [exec_eq, runCommand, hw, hs]

theorem step_running {s : State} (hw : wellFormedConfig s.cfg = true) (hs : s.seq ≠ .idle) :
    step s = .next s.resume := by
  simp [step, hw, hs]

/-- Settles O16: the step is `resume`, which commutes with replacing what waits; replacing it by
itself shows that it is kept. -/
theorem runningBlockAcceptsNothing : Obligations.RunningBlockAcceptsNothing := by
  intro s hw hs
  obtain ⟨c, k, todo, hrun⟩ : ∃ c k todo, s.seq = .running c k todo := by
    cases hseq : s.seq with
    | idle => exact absurd hseq hs
    | running c k todo => exact ⟨c, k, todo, rfl⟩
  have kept : s.resume = s.resume.withWaiting s.hostIn s.frameIn := resume_withWaiting s.hostIn s.frameIn hrun
  refine ⟨fun i => exec_running i hw hs, s.resume, step_running hw hs, (congrArg State.hostIn kept :),
    (congrArg State.frameIn kept :), fun words frames => ?_⟩
  have other : step (s.withWaiting words frames) = .next (s.withWaiting words frames).resume := step_running hw hs
  exact other.trans (congrArg _ (resume_withWaiting words frames hrun))

end Sys2Proof.Machine
end

section
/-! Every step keeps tile consistency under D7 (40_framebuffer.md R108, 70_reset_and_hazards.md R236): the statements
that write `FB` keep it when they name segments of the table, and a command's pseudocode names no others. -/

namespace Sys2Proof.Machine

/-! ## What the FrameBuffer functions do to tile consistency -/

theorem segByte_mem_segBytes (c : Config) (i : Nat) {k : Nat} (hk : k < nTiles) : segByte c i k ∈ segBytes c i :=
  mem_segBytes.2 ⟨k, hk, rfl⟩

/-- D7: the tile bytes of an admitted configuration's segments lie in the array. -/
theorem segByte_lt_fbSize {c : Config} (h : wellFormedConfig c = true) (i : Nat) {k : Nat} (hk : k < nTiles) :
    segByte c i k < c.fbSize :=
  segByte_lt h i _ (segByte_mem_segBytes c i hk)

theorem fbCleared_tileConsistent {c : Config} (h : wellFormedConfig c = true) (l : Level) :
    TileConsistent c (fbCleared c l) := by
  intro i _ k hk
  rw [read_fbCleared, read_fbCleared, if_pos (segByte_lt_fbSize h i hk), if_pos (segByte_lt_fbSize h i (by decide))]

theorem fbInverted_tileConsistent {c : Config} {fb : Memory} (h : wellFormedConfig c = true)
    (ht : TileConsistent c fb) : TileConsistent c (fbInverted c fb) := by
  intro i hi k hk
  rw [read_fbInverted, read_fbInverted, if_pos (segByte_lt_fbSize h i hk), if_pos (segByte_lt_fbSize h i (by decide)),
    ht i hi k hk]

/-! ## Which segments a command's pseudocode names -/

/-- A segment that a statement writes is one of the table. -/
def namesSegment : Op → Bool
  | .setSeg i _ => decide (i < nSeg)
  | _ => true

/-- The segments that a list of statements writes are of the table. -/
def NamesSegments (ops : List Op) : Prop := ∀ op ∈ ops, namesSegment op = true

theorem namesSegments_iff {ops : List Op} : NamesSegments ops ↔ ∀ i l, Op.setSeg i l ∈ ops → i < nSeg := by
  constructor
  · intro h i l hm
    simpa [namesSegment] using h _ hm
  · intro h op hm
    cases op with
    | setSeg i l => simpa [namesSegment] using h i l hm
    | _ => rfl

theorem namesSegment_of_quiet {op : Op} (h : quiet op = true) : namesSegment op = true := by
  cases op with
  | setSeg i l => cases h
  | _ => rfl

@[simp] theorem namesSegments_nil : NamesSegments [] := fun _ h => absurd h List.not_mem_nil

@[simp] theorem namesSegments_cons (op : Op) (ops : List Op) :
    NamesSegments (op :: ops) ↔ namesSegment op = true ∧ NamesSegments ops := List.forall_mem_cons

@[simp] theorem namesSegments_append (a b : List Op) :
    NamesSegments (a ++ b) ↔ NamesSegments a ∧ NamesSegments b := List.forall_mem_append

@[simp] theorem namesSegments_repeatOps {ops : List Op} (h : NamesSegments ops) (n : Nat) :
    NamesSegments (repeatOps n ops) := fun op ho => h op (mem_repeatOps ho)

@[simp] theorem namesSegments_writeReg (a : Byte) (bytes : List Byte) : NamesSegments (writeReg a bytes) := by
  simp [writeReg, namesSegment]

@[simp] theorem namesSegments_setCV (c : Config) (v : Int) : NamesSegments (setCV c v) := namesSegments_writeReg _ _

@[simp] theorem namesSegments_setSV (c : Config) (sv : Nat) : NamesSegments (setSV c sv) := namesSegments_writeReg _ _

@[simp] theorem namesSegments_writePrev (c : Config) (l : Level) : NamesSegments (writePrev c l) := by
  simp [writePrev, writeBuf, streamOps, namesSegment]

@[simp] theorem namesSegments_update (c : Config) (mode : UpdateMode) : NamesSegments (update c mode false) := by
  simp [update, writeBuf, streamOps, powerOn, powerOff, namesSegment]

@[simp] theorem namesSegments_pass (c : Config) (l : Level) (mode : UpdateMode) : NamesSegments (pass c l mode) := by
  simp [pass]

@[simp] theorem namesSegments_redBlock (c : Config) : NamesSegments (redBlock c) :=
  namesSegments_repeatOps (by simp [namesSegment]) 2

/-- The recipes write the FrameBuffer with `Invert()` alone (R170 to R175). -/
theorem namesSegments_recipe (c : Config) (col : Colour) : NamesSegments (recipe c col) := by
  have bw : NamesSegments (renderBW c) := by simp [renderBW, namesSegment]
  cases col with
  | black => exact bw
  | white => exact bw
  | yellow => simp [recipe, renderYellow]
  | green => simp [recipe, renderGreen]
  | red => simp [recipe, renderRed]
  | blue =>
    have lead : NamesSegments (if c.blueLeadingSv then setSV c 10000 else []) := by split <;> simp
    simp [recipe, renderBlue, lead, namesSegment]

/-- `WS_BEGIN` writes the FrameBuffer with `Clear` alone (R159, R166). -/
theorem namesSegments_beginOps (c : Config) : NamesSegments (beginOps c) := by
  have reset : NamesSegments (if c.hasResetLine then hardwareReset else softwareReset c) := by
    split
    · simp [hardwareReset, namesSegment]
    · exact namesSegments_writeReg _ _
  have passes : NamesSegments (erasePasses c) := namesSegments_repeatOps (namesSegments_pass c _ _) 3
  have erase : NamesSegments (screenErase c) := by simp [screenErase, passes, namesSegment]
  simp [beginOps, reset, initRegisters, erase, namesSegment]

/-- A command that comes to run writes segments of the table only: `FB_SETSEG` with a higher index fails its check, or
is refused (R84, R106). -/
theorem namesSegments_bodyOf {i : Instr} (hi : argOk i = true ∨ laxRefusal i = none) (c : Config) :
    NamesSegments (bodyOf c i) := by
  by_cases hw : writesFb i = true
  · cases i with
    | fbClear l => simp [bodyOf, namesSegment]
    | fbInvert => simp [bodyOf, namesSegment]
    | fbSetseg index l =>
      have hindex : index.toNat ≤ 21 := by simpa [argOk, segIndexOk, laxRefusal] using hi
      have named : index.toNat < nSeg := Nat.lt_succ_of_le hindex
      simp [bodyOf, namesSegment, named]
    | fbDrawsegs mask l =>
      refine namesSegments_iff.2 fun j level hm => ?_
      obtain ⟨_, hj, e⟩ := List.mem_map.1 hm
      cases e
      exact (mem_maskSegments.1 hj).1
    | wsBegin => exact namesSegments_beginOps c
    | wsRender colour =>
      simp only [bodyOf, renderOps]
      split
      · exact namesSegments_recipe c _
      · simp
    | _ => cases hw
  · exact fun op ho => namesSegment_of_quiet (quiet_bodyOf (by simpa using hw) c op ho)

/-! ## What is left to do -/

theorem pollFrom_pend_quiet {fuel reads : Nat} {op : Op} {s t : State} (h : pollFrom fuel reads s = .pend op t) :
    quiet op = true := by
  induction fuel generalizing reads s with
  | zero => cases h; rfl
  | succ fuel ih =>
    simp only [pollFrom] at h
    split at h
    · split at h
      · cases h
      · split at h
        · cases h
        · exact ih h
    · cases h
    · cases h; rfl

/-- A command stands in a wait only, which writes no `FB` (R121, log 4). -/
theorem doOp_pend_quiet {op op' : Op} {s t : State} (h : doOp op s = .pend op' t) : quiet op' = true := by
  cases op with
  | wait polls =>
    simp only [doOp] at h
    split at h <;> cases h
    rfl
  | readResult head filler =>
    simp only [doOp] at h
    split at h <;> cases h
    rfl
  | readWait byte polls =>
    simp only [doOp] at h
    split at h <;> cases h
    rfl
  | pollReady reads => exact pollFrom_pend_quiet h
  | pollWait byte polls reads =>
    simp only [doOp] at h
    split at h
    · split at h
      · cases h
      · split at h
        · cases h
        · exact pollFrom_pend_quiet h
    · cases h
    · cases h; rfl
  | _ => cases h

/-- A body leaves nothing to do but what it had, and the rest of a wait. -/
theorem runOps_todo {ops todo : List Op} {s : State} {c : Instr} {k : Nat}
    (h : (runOps ops s).seq = .running c k todo) : ∀ op ∈ todo, op ∈ ops ∨ quiet op = true := by
  induction ops generalizing s with
  | nil => cases h
  | cons op ops ih =>
    simp only [runOps] at h
    cases hdo : doOp op s with
    | done s' =>
      rw [hdo] at h
      exact fun o ho => (ih h o ho).imp_left (List.mem_cons_of_mem op)
    | finish r s' =>
      rw [hdo] at h
      cases h
    | pend op' s' =>
      simp only [hdo] at h
      obtain rfl : op' :: ops = todo := by
        cases hq : s'.seq with
        | idle => simp [hq] at h
        | running c' k' old =>
          simp only [hq, Seq.withTodo_running, Seq.running.injEq] at h
          exact h.2.2
      intro o ho
      rcases List.mem_cons.1 ho with rfl | ho
      · exact .inr (doOp_pend_quiet hdo)
      · exact .inl (List.mem_cons_of_mem op ho)

/-! ## The invariant -/

/-- The part of `TilesOk` that speaks of the configuration and of `FB`, under a configuration that is admitted. -/
def Tiled (s : State) : Prop :=
  wellFormedConfig s.cfg = true ∧ FbOk s ∧ TilesSeparate s.cfg ∧ TileConsistent s.cfg s.fb

theorem Tiled.tilesOk_of_idle {s : State} (h : Tiled s) (hs : s.seq = .idle) : TilesOk s := by
  obtain ⟨-, hfb, hsep, htiles⟩ := h
  exact ⟨hfb, hsep, htiles, fun _ _ _ hr => by rw [hs] at hr; cases hr⟩

/-- R108: every statement that names segments of the table only keeps tile consistency. -/
theorem keeps_tiled {ops : List Op} (h : NamesSegments ops) : Keeps ops fun s t => Tiled s → Tiled t where
  refl _ := id
  trans a b := b ∘ a
  frame bytes s := by simp [Tiled, FbOk]
  busy _ _ _ := id
  power _ _ _ := id
  reset _ _ _ := id
  delay _ _ _ := id
  clear l hl s := fun ⟨hw, hfb, hsep, _⟩ =>
    ⟨hw, ((keeps_fbOk ops).clear l hl s ⟨hw, hfb⟩).2, hsep, fbCleared_tileConsistent hw l⟩
  invert hi s := fun ⟨hw, hfb, hsep, htiles⟩ =>
    ⟨hw, ((keeps_fbOk ops).invert hi s ⟨hw, hfb⟩).2, hsep, fbInverted_tileConsistent hw htiles⟩
  seg i l hi s := fun ⟨hw, hfb, hsep, htiles⟩ =>
    ⟨hw, ((keeps_fbOk ops).seg i l hi s ⟨hw, hfb⟩).2, hsep,
      fbSegmentSet_tileConsistent hfb.1 hsep htiles (namesSegments_iff.1 h i l hi) l⟩
  configured _ _ := id

theorem runOps_tilesOk {ops : List Op} {s : State} (hops : NamesSegments ops) (hs : Tiled s) : TilesOk (runOps ops s) := by
  have tiled : Tiled (runOps ops s) := by
    rcases (keeps_tiled hops).runOps s with ⟨r, u, e, hu⟩ | ⟨todo, u, e, hu⟩ <;> rw [e] <;> exact hu hs
  obtain ⟨-, hfb, hsep, htiles⟩ := tiled
  refine ⟨hfb, hsep, htiles, fun c k todo hrun => namesSegments_iff.1 fun op hop => ?_⟩
  exact (runOps_todo hrun op hop).elim (hops op) namesSegment_of_quiet

/-- What an idle block makes of an instruction: a failed check, or the run of a command whose arguments passed, or name
something without a check (R195). -/
theorem exec_next_idle {i : Instr} {s t : State} (hs : s.seq = .idle) (h : exec i s = .next t) :
    (∃ r, t = s.fail r) ∨ ((argOk i = true ∨ laxRefusal i = none) ∧ t = s.start i (bodyOf s.cfg i)) := by
  rw [exec_eq] at h
  rcases runCommand_cases i (gated i) (argOk i) (laxRefusal i) (bodyOf s.cfg i) s with
    ⟨_, e⟩ | ⟨_, hn, e⟩ | ⟨_, _, _, _, _, e⟩ | ⟨_, _, _, _, _, e⟩ | ⟨r, _, _, _, _, _, e⟩ |
      ⟨_, _, hstrict, hlax, e⟩ <;> rw [e] at h <;> cases h
  · exact absurd hs hn
  · exact .inl ⟨_, rfl⟩
  · exact .inl ⟨_, rfl⟩
  · refine .inr ⟨?_, rfl⟩
    cases hst : s.cfg.strict with
    | true => exact .inl (hstrict hst).2
    | false => exact hlax hst

theorem exec_tilesOk {i : Instr} {s t : State} (ht : Tiled s) (hs : s.seq = .idle) (h : exec i s = .next t) :
    TilesOk t := by
  rcases exec_next_idle hs h with ⟨r, rfl⟩ | ⟨hi, rfl⟩
  · exact Tiled.tilesOk_of_idle (s := s.fail r) ht rfl
  · exact runOps_tilesOk (s := { s with seq := .running i 0 (bodyOf s.cfg i) }) (namesSegments_bodyOf hi s.cfg) ht

/-- Settles O60: each way a step can go on ends in a state of the invariant. -/
theorem stepKeepsTiles : Obligations.StepKeepsTiles := by
  rintro s t ⟨hfb, hsep, htiles, htodo⟩ hstep
  obtain ⟨hw, hnext⟩ := step_next hstep
  have tiled : Tiled s := ⟨hw, hfb, hsep, htiles⟩
  rcases hnext with ⟨c, k, todo, hrun, rfl⟩ | ⟨hs, f, rest, i, -, -, he⟩ | ⟨hs, -, w, rest, i, -, -, he⟩ |
    ⟨-, -, w, rest, e, -, -, -, rfl⟩ | ⟨hs, -, -, rfl⟩
  · have named : NamesSegments todo := namesSegments_iff.2 (htodo c k todo hrun)
    rw [resume_of_running hrun]
    split
    · exact runOps_tilesOk (s := s.nextBusy) named tiled
    · exact runOps_tilesOk named tiled
  · exact exec_tilesOk (s := { s with frameIn := rest }) tiled hs he
  · exact exec_tilesOk (s := { s with hostIn := rest }) tiled hs he
  · exact Tiled.tilesOk_of_idle (s := State.fail .invalidConfiguration { s with hostIn := rest }) tiled rfl
  · exact tiled.tilesOk_of_idle hs

end Sys2Proof.Machine
end

section
/-! What the FrameBuffer functions read back (40_framebuffer.md R102, R103, R106, R109), beside the laws of the
architect's file: the four pixels of a byte, two equal segment writes, and the complement of a pixel. -/

namespace Sys2Proof.Machine

/-! ## The four pixels of a byte (R52, R81) -/

theorem exists_fieldShift (m : Bool) {i : Nat} (hi : i < 8) :
    ∃ k, k < 4 ∧ fieldShift m k + i % 2 = i := by
  cases m with
  | false => exact ⟨i / 2, by omega, by simp only [fieldShift, Bool.false_eq_true, if_false]; omega⟩
  | true => exact ⟨3 - i / 2, by omega, by simp only [fieldShift, if_true]; omega⟩

/-- A byte is its four sub-fields. -/
theorem byte_eq_of_getField (m : Bool) {b b' : Byte} (h : ∀ k, k < 4 → getField m b k = getField m b' k) : b = b' := by
  refine BitVec.eq_of_getLsbD_eq fun i hi => ?_
  obtain ⟨k, hk, hshift⟩ := exists_fieldShift m hi
  have slice := congrArg (·.getLsbD (i % 2)) (h k hk)
  have bit : i % 2 < 2 := Nat.mod_lt _ (by decide)
  simpa [getField_eq_extract, hshift, bit] using slice

theorem setField_setField (m : Bool) (b : Byte) {k : Nat} (l : Level) (hk : k < 4) :
    setField m (setField m b k l) k l = setField m b k l := by
  refine byte_eq_of_getField m fun q hq => ?_
  by_cases hqk : q = k
  · rw [hqk, getField_setField_same m _ l hk, getField_setField_same m _ l hk]
  · rw [getField_setField_other m _ l hk hq hqk]

theorem setField_eq_self {m : Bool} {b : Byte} {k : Nat} {l : Level} (hk : k < 4) (h : getField m b k = l.code) :
    setField m b k l = b := by
  refine byte_eq_of_getField m fun q hq => ?_
  by_cases hqk : q = k
  · rw [hqk, getField_setField_same m _ l hk, h]
  · rw [getField_setField_other m _ l hk hq hqk]

theorem getField_not (m : Bool) (b : Byte) {k : Nat} (hk : k < 4) : getField m (~~~ b) k = ~~~ getField m b k := by
  have inside : fieldShift m k + 2 ≤ 8 := by
    rcases fieldShift_cases m hk with h | h | h | h <;> omega
  refine BitVec.eq_of_getLsbD_eq fun i hi => ?_
  have bit : fieldShift m k + i < 8 := by omega
  simp [getField_eq_extract, hi, bit]

/-- R103: a complemented pixel `l` is `3 - l`. -/
theorem toNat_getField_not (m : Bool) (b : Byte) {k : Nat} (hk : k < 4) :
    (getField m (~~~ b) k).toNat = 3 - (getField m b k).toNat := by
  rw [getField_not m b hk, BitVec.toNat_not]

/-! ## The FrameBuffer functions -/

theorem Memory.read_of_inRange {fb : Memory} {n a : Nat} (h : ∀ x ∈ fb, x.1 < n) (ha : n ≤ a) :
    fb.read a = Memory.unlisted :=
  Memory.read_of_forall_ne fun x hx => Nat.ne_of_lt (Nat.lt_of_lt_of_le (h x hx) ha)

/-- R103, and above the array nothing changes. -/
theorem read_fbInverted_of_inRange {c : Config} {fb : Memory} (h : ∀ x ∈ fb, x.1 < c.fbSize) (a : Nat) :
    (fbInverted c fb).read a = if a < c.fbSize then ~~~ fb.read a else fb.read a := by
  rw [read_fbInverted]
  split
  · rfl
  · next ha => exact (Memory.read_of_inRange h (Nat.le_of_not_lt ha)).symm

theorem read_fbSegmentSet_segByte {c : Config} {fb : Memory} (h : fb.wf = true) (i : Nat) (l : Level) {k : Nat}
    (hk : k < nTiles) : (fbSegmentSet c i l fb).read (segByte c i k) = segNewByte c fb i l := by
  rw [read_fbSegmentSet h, if_pos (segByte_mem_segBytes c i hk)]

/-- A second equal segment write finds its own byte at the primary address and stores it again. -/
theorem fbSegmentSet_fbSegmentSet {c : Config} {fb : Memory} (h : fb.wf = true) (i : Nat) (l : Level) :
    fbSegmentSet c i l (fbSegmentSet c i l fb) = fbSegmentSet c i l fb := by
  have h₁ : (fbSegmentSet c i l fb).wf = true := fbSegmentSet_wf h i l
  have same : segNewByte c (fbSegmentSet c i l fb) i l = segNewByte c fb i l := by
    rw [segNewByte, read_fbSegmentSet_segByte h i l (by decide)]
    exact setField_setField _ _ l (segSub_lt c i)
  refine Memory.ext_read (fbSegmentSet_wf h₁ i l) h₁ fun a => ?_
  rw [read_fbSegmentSet h₁, same, read_fbSegmentSet h]
  split <;> rfl

/-- Writing the level that a pixel has changes nothing when its tiles agree. -/
theorem fbSegmentSet_eq_self {c : Config} {fb : Memory} (h : fb.wf = true) (ht : TileConsistent c fb) {i : Nat}
    (hi : i < nSeg) {l : Level}
    (hl : getField c.subfieldMsbFirst (fb.read (segByte c i 0)) (segSub c i) = l.code) : fbSegmentSet c i l fb = fb := by
  refine Memory.ext_read (fbSegmentSet_wf h i l) h fun a => ?_
  rw [read_fbSegmentSet h]
  split
  · next hm =>
    obtain ⟨k, hk, rfl⟩ := mem_segBytes.1 hm
    rw [ht i hi k hk]
    exact setField_eq_self (segSub_lt c i) hl
  · rfl

/-! ## Segment tables that meet D7 -/

/-- Tiles that lie a stride apart, and primary bytes below the stride: an address tells its primary byte. -/
theorem tilesSeparate_of_stride {c : Config} {d : Nat} (hbyte : ∀ i k, segByte c i k = segByte c i 0 + d * k)
    (hlt : ∀ i, i < nSeg → segByte c i 0 < d) : TilesSeparate c := by
  intro i hi j hj
  by_cases h0 : segByte c i 0 = segByte c j 0
  · have same : segBytes c i = segBytes c j := List.map_congr_left fun k _ => by rw [hbyte i, hbyte j, h0]
    exact .inl ⟨fun a ha => same ▸ ha, fun a ha => same ▸ ha⟩
  · refine .inr fun a hai haj => h0 ?_
    obtain ⟨k, -, rfl⟩ := mem_segBytes.1 hai
    obtain ⟨k', -, e⟩ := mem_segBytes.1 haj
    rw [hbyte i, hbyte j] at e
    have rest := congrArg (· % d) e
    simpa [Nat.mod_eq_of_lt (hlt i hi), Nat.mod_eq_of_lt (hlt j hj)] using rest.symm

theorem segByte_of_unit_byte {c : Config} (h : c.segUnit = .byte) (i k : Nat) :
    segByte c i k = segByte c i 0 + 60 * k := by
  simp [segByte, h, tileStride]

theorem segByte_of_unit_pixel {c : Config} (h : c.segUnit = .pixel) (i k : Nat) :
    segByte c i k = segByte c i 0 + 15 * k := by
  simp only [segByte, h, tileStride]
  omega

/-- R108 is not true of every array: the second tile byte of segment 0 is another than the primary one. -/
theorem exists_not_tileConsistent {c : Config} (h : wellFormedConfig c = true) :
    ∃ fb : Memory, fb.wf = true ∧ (∀ x ∈ fb, x.1 < c.fbSize) ∧ ¬ TileConsistent c fb := by
  have apart : segByte c 0 0 ≠ segByte c 0 1 := by
    cases hu : c.segUnit with
    | byte => rw [segByte_of_unit_byte hu 0 1]; omega
    | pixel => rw [segByte_of_unit_pixel hu 0 1]; omega
  refine ⟨Memory.write [] (segByte c 0 1) 0xFF#8, Memory.write_wf rfl _ _,
    Memory.write_inRange (by simp) (segByte_lt_fbSize h 0 (by decide)) _, fun ht => ?_⟩
  have agree := ht 0 (by decide) 1 (by decide)
  rw [Memory.read_write_same Memory.wf_nil, Memory.read_write_other _ _ _ _ apart] at agree
  cases agree

end Sys2Proof.Machine
end

section
/-! The four FrameBuffer commands (40_framebuffer.md R102, R103, R106 to R109): each is accepted, calls no primitive
and ends with `Ok`, so what it leaves is the old state with another `FB` and one more result. -/

namespace Sys2Proof.Machine

/-! ## What the commands answer -/

/-- The state that differs from `s` in `FB` and in the result `Ok` alone (R100). -/
def State.drawn (m : Memory) (s : State) : State := { s.reported .ok with fb := m }

@[simp] theorem State.drawn_cfg (m : Memory) (s : State) : (s.drawn m).cfg = s.cfg := rfl
@[simp] theorem State.drawn_fb (m : Memory) (s : State) : (s.drawn m).fb = m := rfl

/-- The next command finds the block ready again. -/
theorem Ready.drawn {s : State} (hr : Ready s) (m : Memory) : Ready (s.drawn m) := hr

/-- An idle block runs a command without a gate whose arguments pass; a body that writes `FB` and ends well leaves the
rest as it was. -/
theorem exec_drawing {i : Instr} {s : State} {m : Memory} (hr : Ready s) (hg : gated i = false) (ha : argOk i = true)
    (hrun : ∀ q, runOps (bodyOf s.cfg i) { s with seq := q } = State.complete .ok { s with seq := q, fb := m }) :
    exec i s = .next (s.drawn m) := by
  obtain ⟨hw, hs⟩ := hr
  rw [exec_eq, runCommand_start hw hs (fun _ => ⟨by simp [hg], ha⟩) fun _ => .inl ha, State.start, hrun]
  simp [State.complete, State.drawn, State.reported, hs]

theorem exec_fbClear {s : State} (hr : Ready s) (l : Level) :
    exec (.fbClear l) s = .next (s.drawn (fbCleared s.cfg l)) :=
  exec_drawing hr rfl rfl fun _ => rfl

theorem exec_fbInvert {s : State} (hr : Ready s) :
    exec .fbInvert s = .next (s.drawn (fbInverted s.cfg s.fb)) :=
  exec_drawing hr rfl rfl fun _ => rfl

theorem exec_fbSetseg {s : State} (hr : Ready s) {index : BitVec 5} (hi : index.toNat ≤ 21) (l : Level) :
    exec (.fbSetseg index l) s = .next (s.drawn (fbSegmentSet s.cfg index.toNat l s.fb)) :=
  exec_drawing hr rfl (decide_eq_true hi) fun _ => rfl

theorem exec_fbDrawsegs {s : State} (hr : Ready s) (mask : BitVec 32) (l : Level) :
    exec (.fbDrawsegs mask l) s = .next (s.drawn (fbSegmentsDrawn s.cfg mask l s.fb)) :=
  exec_drawing hr rfl rfl fun q => runOps_drawSegs mask l { s with seq := q }

theorem segIndexOk_eq_false {index : BitVec 5} (hi : 21 < index.toNat) : segIndexOk index = false :=
  decide_eq_false (Nat.not_le.2 hi)

/-- R192: an index that names no segment, with `STRICT`. -/
theorem exec_fbSetseg_invalid {s : State} (hr : Ready s) {index : BitVec 5} (hi : 21 < index.toNat)
    (hst : s.cfg.strict = true) (l : Level) :
    exec (.fbSetseg index l) s = .next (s.reported .invalidConfiguration) := by
  obtain ⟨hw, hs⟩ := hr
  rw [exec_eq, argOk, segIndexOk_eq_false hi, runCommand_invalid hw hs hst (by simp [gated])]
  simp [State.fail, State.complete, State.reported, hs]

/-- R84: an index that names no segment, without `STRICT`. -/
theorem exec_fbSetseg_refused {s : State} (hr : Ready s) {index : BitVec 5} (hi : 21 < index.toNat)
    (hst : s.cfg.strict = false) (l : Level) : exec (.fbSetseg index l) s = .refused .segmentIndex := by
  obtain ⟨hw, hs⟩ := hr
  rw [exec_eq, argOk, segIndexOk_eq_false hi]
  exact runCommand_refused hw hs hst

/-- The level field of a word names a level, whose code it is (R74). -/
theorem exists_level (w : CmdWord) : ∃ l : Level, cmdField w 0 2 = l.code :=
  ⟨Level.ofCode (cmdField w 0 2), (Level.code_ofCode _).symm⟩

/-! ## The statements -/

/-- Settles O22: the answer is the cleared array, read back by R109 (1). -/
theorem clearSetsEveryByte : Obligations.ClearSetsEveryByte := by
  refine ⟨fun s l hr => ⟨fbCleared s.cfg l, exec_fbClear hr l, fbCleared_wf s.cfg l, fun a => ?_,
    fbCleared_tileConsistent hr.1 l⟩, fun w hop => ?_⟩
  · rw [read_fbCleared, pattern_eq]
  · obtain ⟨l, hl⟩ := exists_level w
    exact ⟨l, decode_of_hasFields ⟨hop, hl⟩, hl.symm⟩

/-- Settles O23: the second invert is the involution of R103. -/
theorem invertComplementsEveryByte : Obligations.InvertComplementsEveryByte := by
  refine ⟨fun s hr ⟨hwf, hrange⟩ => ?_, fun w hop => decode_of_hasFields hop⟩
  have read := read_fbInverted_of_inRange hrange
  refine ⟨fbInverted s.cfg s.fb, exec_fbInvert hr, fbInverted_wf s.cfg s.fb, read, fun b a k ha hk => ?_,
    fbInverted_tileConsistent hr.1, ?_⟩
  · rw [read, if_pos ha, toNat_getField_not b _ hk]
  · have back : fbInverted s.cfg (fbInverted s.cfg s.fb) = s.fb := fbInverted_fbInverted hwf hrange
    have second := exec_fbInvert (hr.drawn (fbInverted s.cfg s.fb))
    rw [State.drawn_cfg, State.drawn_fb, back] at second
    exact second

/-- Settles O24: the law R109 (3) on what the two commands leave. -/
theorem invertAfterClear : Obligations.InvertAfterClear := by
  intro s l l' hr hcodes
  refine ⟨_, _, exec_fbClear hr l, exec_fbClear hr l', ?_⟩
  have law : fbInverted s.cfg (fbCleared s.cfg l) = fbCleared s.cfg l' := fbInverted_fbCleared s.cfg hcodes
  have second := exec_fbInvert (hr.drawn (fbCleared s.cfg l))
  rw [State.drawn_cfg, State.drawn_fb, law] at second
  exact second

/-- Settles O25: up to index 21 the answer is the segment write, read back at its tile bytes and elsewhere; above, a
failed check or a refusal. -/
theorem setSegmentCopiesByte : Obligations.SetSegmentCopiesByte := by
  refine ⟨fun s index l hr ⟨hwf, hrange⟩ => ⟨fun hi => ?_, fun hi hst => exec_fbSetseg_invalid hr hi hst l,
    fun hi hst => exec_fbSetseg_refused hr hi hst l⟩, fun w hop => ?_⟩
  · refine ⟨fbSegmentSet s.cfg index.toNat l s.fb, exec_fbSetseg hr hi l, fbSegmentSet_wf hwf _ l,
      fun k hk => read_fbSegmentSet_segByte hwf _ l hk, fun a ha => ?_, ?_,
      fun ht hl => fbSegmentSet_eq_self hwf ht (Nat.lt_succ_of_le hi) hl⟩
    · rw [read_fbSegmentSet hwf, if_neg fun hm => ?_]
      obtain ⟨k, hk, e⟩ := mem_segBytes.1 hm
      exact ha k hk e.symm
    · have second := exec_fbSetseg (hr.drawn (fbSegmentSet s.cfg index.toNat l s.fb)) hi l
      rw [State.drawn_cfg, State.drawn_fb, fbSegmentSet_fbSegmentSet hwf] at second
      exact second
  · obtain ⟨l, hl⟩ := exists_level w
    exact ⟨l, decode_of_hasFields ⟨hop, rfl, hl⟩, hl.symm⟩

/-- Settles O26: each tile byte is the primary byte with one sub-field replaced. -/
theorem setThenGetSegment : Obligations.SetThenGetSegment := by
  rintro s index l hr ⟨hwf, -⟩ hi
  refine ⟨_, exec_fbSetseg hr hi l, fun k hk => ⟨getField_fbSegmentSet hwf index.toNat l hk, fun q hq hne => ?_⟩⟩
  have stored : (fbSegmentSet s.cfg index.toNat l s.fb).read (segByte s.cfg index.toNat k)
      = segNewByte s.cfg s.fb index.toNat l := read_fbSegmentSet_segByte hwf _ l hk
  exact (congrArg (fun b => getField s.cfg.subfieldMsbFirst b q) stored).trans
    (getField_setField_other _ _ l (segSub_lt s.cfg index.toNat) hq hne)

/-- Settles O27: the frame and the pixels are the law R109 (4). -/
theorem drawSegmentsPixels : Obligations.DrawSegmentsPixels := by
  refine ⟨fun s mask l hr ⟨hwf, _⟩ => ?_, fun w hop => ?_⟩
  · refine ⟨fbSegmentsDrawn s.cfg mask l s.fb, exec_fbDrawsegs hr mask l, fbDrawn_wf hwf, rfl, fun a ha => ?_,
      fun ht hsep a q hq => fbSegmentsDrawn_pixel hwf hsep ht hq⟩
    refine fbSegmentsDrawn_other hwf fun i hi hbit hm => ?_
    obtain ⟨k, hk, e⟩ := mem_segBytes.1 hm
    exact ha i k hi hbit hk e.symm
  · obtain ⟨l, hl⟩ := exists_level w
    exact ⟨l, decode_of_hasFields ⟨hop, rfl, hl⟩, hl.symm⟩

/-- R108: `FB_SETSEG` keeps tile consistency under D7, also where its index fails the check. -/
theorem exec_fbSetseg_tileConsistent {s t : State} {index : BitVec 5} {l : Level} (hr : Ready s) (hwf : s.fb.wf = true)
    (ht : TileConsistent s.cfg s.fb) (hsep : TilesSeparate s.cfg) (h : exec (.fbSetseg index l) s = .next t) :
    TileConsistent s.cfg t.fb := by
  by_cases hi : index.toNat ≤ 21
  · rw [exec_fbSetseg hr hi] at h
    cases h
    exact fbSegmentSet_tileConsistent hwf hsep ht (Nat.lt_succ_of_le hi) l
  · replace hi : 21 < index.toNat := Nat.lt_of_not_le hi
    cases hst : s.cfg.strict with
    | true =>
      rw [exec_fbSetseg_invalid hr hi hst] at h
      cases h
      exact ht
    | false =>
      rw [exec_fbSetseg_refused hr hi hst] at h
      cases h

/-- Settles O28: what each command leaves is a FrameBuffer function that keeps, or gives, agreeing tiles. -/
theorem tileConsistency : Obligations.TileConsistency := by
  rintro s hr ⟨hwf, -⟩
  refine ⟨fun l t h => ?_, fun t ht h => ?_, fun i l t ht hsep h => exec_fbSetseg_tileConsistent hr hwf ht hsep h,
    fun mask l t ht hsep h => ?_, ?_, ?_⟩
  · rw [exec_fbClear hr] at h
    cases h
    exact fbCleared_tileConsistent hr.1 l
  · rw [exec_fbInvert hr] at h
    cases h
    exact fbInverted_tileConsistent hr.1 ht
  · rw [exec_fbDrawsegs hr] at h
    cases h
    exact fbDrawn_tileConsistent hwf hsep ht fun i hi => (mem_maskSegments.1 hi).1
  · rintro (⟨hunit, hlt⟩ | ⟨hunit, hlt⟩)
    · exact tilesSeparate_of_stride (segByte_of_unit_byte hunit) hlt
    · exact tilesSeparate_of_stride (segByte_of_unit_pixel hunit) hlt
  · obtain ⟨fb, hfb, hin, hnot⟩ := exists_not_tileConsistent hr.1
    exact ⟨fb, ⟨hfb, hin⟩, hnot⟩

end Sys2Proof.Machine
end

section
/-! The framing of the bus (41_register_protocol.md R125) along a trace: what the events of a frame, of a wait, of a
delay and of the reset line do to it, and which frames they close. -/

namespace Sys2Proof.Machine

/-! ## Traces in pieces -/

theorem busPhase_append (p : BusPhase) (a b : List Event) :
    busPhase p (a ++ b) = (busPhase p a).bind fun q => busPhase q b := by
  induction a generalizing p with
  | nil => cases p <;> rfl
  | cons e a ih =>
    cases e with
    | cs l => cases l <;> cases p <;> simp [busPhase, ih]
    | _ => cases p <;> simp [busPhase, ih]

/-- A trace that leaves no frame open: its closed frames, and then those of what follows. -/
theorem framesFrom_append {p q : BusPhase} {opened : Option (List Byte)} {a : List Event} (b : List Event)
    (hopened : opened.isSome ↔ p = .opened) (h : busPhase p a = some q) (hq : q ≠ .opened) :
    framesFrom opened (a ++ b) = framesFrom opened a ++ framesFrom none b := by
  induction a generalizing p opened with
  | nil =>
    obtain rfl : p = q := by simpa [busPhase] using h
    obtain rfl : opened = none := by
      cases opened with
      | none => rfl
      | some bytes => exact absurd (hopened.1 rfl) hq
    rfl
  | cons e a ih =>
    cases opened with
    | none =>
      cases p with
      | opened => simp at hopened
      | _ =>
        cases e with
        | cs l => cases l <;> simp [busPhase] at h <;> exact ih (by simp) h
        | xfer t r => simp [busPhase] at h
        | _ => exact ih (by simp) h
    | some bytes =>
      obtain rfl : p = .opened := hopened.1 rfl
      cases e with
      | cs l =>
        cases l with
        | low => simp [busPhase] at h
        | high => exact congrArg (bytes :: ·) (ih (by simp) h)
      | xfer t r => exact ih (by simp) h
      | _ => simp [busPhase] at h

/-! ## The events of the primitives -/

theorem busPhase_xfers (bytes rs : List Byte) (es : List Event) :
    busPhase .opened (List.zipWith Event.xfer bytes rs ++ es) = busPhase .opened es := by
  induction bytes generalizing rs with
  | nil => rfl
  | cons b bytes ih =>
    cases rs with
    | nil => rfl
    | cons r rs => exact ih rs

theorem framesFrom_xfers {bytes rs : List Byte} (h : rs.length = bytes.length) (sent : List Byte) (es : List Event) :
    framesFrom (some sent) (List.zipWith Event.xfer bytes rs ++ es) = framesFrom (some (sent ++ bytes)) es := by
  induction bytes generalizing rs sent with
  | nil => simp
  | cons b bytes ih =>
    cases rs with
    | nil => simp at h
    | cons r rs =>
      have hl : rs.length = bytes.length := by simpa using h
      simp [framesFrom, ih hl]

/-- A frame sent on a settled bus waits for its busy sample (R125 (2), (3)). -/
theorem busPhase_frame (bytes rs : List Byte) : busPhase .settled (frameEvents bytes rs) = some .closed :=
  busPhase_xfers bytes rs [.cs .high]

theorem framesFrom_frame {bytes rs : List Byte} (h : rs.length = bytes.length) :
    framesFrom none (frameEvents bytes rs) = [bytes] := by
  simp [frameEvents, framesFrom, framesFrom_xfers h]

theorem framesFrom_busy (bs : List Bool) : framesFrom none (bs.map Event.busy) = [] := by
  induction bs with
  | nil => rfl
  | cons b bs ih => exact ih

/-- The first busy sample settles the bus (R125 (3)). -/
theorem busPhase_busy {p : BusPhase} (hp : p ≠ .opened) (b : Bool) (bs : List Bool) :
    busPhase p ((b :: bs).map Event.busy) = some .settled := by
  have settled : ∀ bs : List Bool, busPhase .settled (bs.map Event.busy) = some .settled := by
    intro bs
    induction bs with
    | nil => rfl
    | cons b bs ih => exact ih
  cases p with
  | opened => exact absurd rfl hp
  | settled => exact settled bs
  | closed => exact settled bs

/-! ## What the first byte classifies -/

/-- A frame without a byte is no classified frame, so where all are classified the coarse trace has no unframed
event (R79). -/
theorem unframed_not_mem_coarseFrom {c : Config} (opened : Option (List (Byte × Byte))) (es : List Event)
    (h : ∀ f ∈ framesFrom (opened.map (List.map Prod.fst)) es, FrameOk c f) : .unframed ∉ coarseFrom opened es := by
  have classified : ∀ ps : List (Byte × Byte), FrameOk c (ps.map Prod.fst) → coarseFrame ps ≠ .unframed := by
    rintro ps ⟨i, hi⟩
    cases ps with
    | nil => cases hi
    | cons x ps =>
      unfold coarseFrame
      dsimp only
      split <;> simp
  induction es generalizing opened with
  | nil => simp [coarseFrom]
  | cons e es ih =>
    cases e with
    | cs l =>
      cases l with
      | low => exact ih (some []) h
      | high =>
        cases opened with
        | none => exact ih none h
        | some ps =>
          obtain ⟨hps, hes⟩ := List.forall_mem_cons.1 h
          exact fun hm => (List.mem_cons.1 hm).elim (fun e => classified ps hps e.symm) (ih none hes)
    | xfer t r =>
      refine ih (opened.map (· ++ [(t, r)])) ?_
      cases opened <;> simpa [framesFrom] using h
    | busy b =>
      have := ih opened (by cases opened <;> exact h)
      cases b <;> cases opened <;> simpa [coarseFrom] using this
    | rst l =>
      have := ih opened (by cases opened <;> exact h)
      cases opened <;> simpa [coarseFrom] using this
    | delay n =>
      have := ih opened (by cases opened <;> exact h)
      cases opened <;> simpa [coarseFrom] using this

section frameOk
variable {c : Config}

/-- A register write of at most 4 operands (R76, R86). -/
theorem frameOk_write {a : Byte} {ops : List Byte} (h7 : a.toNat < 0x80) (h10 : a ≠ 0x10#8) (hl : ops.length ≤ 4) :
    FrameOk c (a :: ops) :=
  ⟨_, (decodeFrame_regWrite (frameKind_write h7 h10)).trans (if_pos hl)⟩

/-- A register read (R77, R86). -/
theorem frameOk_read (a f : Byte) : FrameOk c [a ||| readFlag, f] := ⟨_, decodeFrame_regRead (frameKind_read a) f⟩

/-- A stream of `N_STREAM` bytes (R78, R86). -/
theorem frameOk_stream {data : List Byte} (hl : data.length = c.nStream) : FrameOk c (opcBufWrite :: data) :=
  ⟨_, (decodeFrame_bufWrite frameKind_bufWrite).trans (if_pos hl)⟩

theorem frameOk_encode {i : Instr} {bytes : List Byte} (he : encode i = .frame bytes)
    (hi : i.wellFormed c.nStream = true) : FrameOk c bytes := ⟨i, decodeFrame_eq_ok_iff.2 ⟨he, hi⟩⟩

end frameOk

theorem length_presentOps_le (pm : BitVec 4) (op0 op1 op2 op3 : Byte) : (presentOps pm op0 op1 op2 op3).length ≤ 4 := by
  have slot (k : Nat) (op : Byte) : (if pm.getLsbD k then [op] else []).length ≤ 1 := by split <;> simp
  have h0 := slot 0 op0
  have h1 := slot 1 op1
  have h2 := slot 2 op2
  have h3 := slot 3 op3
  simp only [presentOps, List.length_append]
  omega

end Sys2Proof.Machine
end

section
/-! Every step keeps the framing of the bus (41_register_protocol.md R125, 10_state.md R28): a statement that keeps the
rules leaves the bus where the rest of its body keeps them too, and every command's pseudocode keeps them. -/

namespace Sys2Proof.Machine

/-! ## The bus between two statements -/

/-- The block runs a command, between two of its statements: `CS` is high, no frame is open, the trace keeps R125 (1) to
(4) and has the bus in phase `p`; and (5), where `P` says that it is kept track of. -/
structure OnBus (P : Prop) (p : BusPhase) (s : State) : Prop where
  running : s.seq ≠ .idle
  cs : s.cs = .high
  phase : busPhase .settled s.trace = some p
  notOpened : p ≠ .opened
  sent : P → ∀ f ∈ framesFrom none s.trace, FrameOk s.cfg f

section onBus
variable {P : Prop} {p q : BusPhase} {s t : State}

theorem Seq.ticks_ne_idle {q : Seq} (h : q ≠ .idle) (n : Nat) : q.ticks n ≠ .idle := by
  cases q with
  | idle => exact absurd rfl h
  | running c k todo => exact Seq.noConfusion

/-- Events that take the bus from `p` to `q` and close none but classified frames. -/
theorem OnBus.grow {new : List Event} (h : OnBus P p s) (hcfg : t.cfg = s.cfg) (hcs : t.cs = .high)
    (hseq : t.seq = s.seq.ticks new.length) (htrace : t.trace = s.trace ++ new) (hphase : busPhase p new = some q)
    (hq : q ≠ .opened) (hsent : P → ∀ f ∈ framesFrom none new, FrameOk s.cfg f) : OnBus P q t where
  running := by
    rw [hseq]
    exact Seq.ticks_ne_idle h.running _
  cs := hcs
  phase := by rw [htrace, busPhase_append, h.phase, Option.bind_some, hphase]
  notOpened := hq
  sent hP := by
    rw [htrace, hcfg, framesFrom_append new (by simp) h.phase h.notOpened]
    exact List.forall_mem_append.2 ⟨h.sent hP, hsent hP⟩

/-- What a statement changes that is no line and no event does not matter. -/
theorem OnBus.silent (h : OnBus P p s) (hcfg : t.cfg = s.cfg) (hcs : t.cs = s.cs) (hseq : t.seq = s.seq)
    (htrace : t.trace = s.trace) : OnBus P p t where
  running := by rw [hseq]; exact h.running
  cs := hcs.trans h.cs
  phase := by rw [htrace]; exact h.phase
  notOpened := h.notOpened
  sent := by rw [htrace, hcfg]; exact h.sent

/-- R125 (2), (3): a frame is sent on a settled bus and has to be followed by a busy sample. -/
theorem OnBus.sendFrame (h : OnBus P .settled s) {bytes : List Byte} (hf : P → FrameOk s.cfg bytes) :
    OnBus P .closed (s.sendFrame bytes).2 := by
  have hl : (s.env.answers bytes.length).1.length = bytes.length := Env.length_answers _ _
  refine h.grow (State.sendFrame_cfg bytes s) (State.sendFrame_cs bytes s) ?_ (State.sendFrame_trace bytes s)
    (busPhase_frame _ _) BusPhase.noConfusion ?_
  · rw [State.sendFrame_seq, length_frameEvents hl]
  · rw [framesFrom_frame hl]
    exact fun hP => List.forall_mem_singleton.2 (hf hP)

/-- R125 (3), (4): a busy sample settles the bus. -/
theorem OnBus.sampled (h : OnBus P p s) (b : Bool) (bs rest : List Bool) :
    OnBus P .settled (s.afterBusy (b :: bs) rest) :=
  h.grow rfl h.cs (by simp) rfl (busPhase_busy h.notOpened b bs) BusPhase.noConfusion
    (by rw [framesFrom_busy]; exact fun _ _ hm => absurd hm List.not_mem_nil)

/-- A wait that is over has settled the bus; one that stands may have taken no sample. -/
theorem OnBus.wait (h : OnBus P p s) (polls : Nat) :
    (∃ t, s.waitBusyClear polls = .clear t ∧ OnBus P .settled t) ∨
      (∃ t, s.waitBusyClear polls = .timeout t ∧ OnBus P .settled t) ∨
      ∃ n t q, s.waitBusyClear polls = .pending n t ∧ OnBus P q t := by
  rcases State.waitBusyClear_cases polls s with ⟨j, rest, -, -, e⟩ | ⟨j, rest, -, -, -, e⟩ | ⟨j, -, -, e⟩
  · cases j with
    | zero => exact .inl ⟨_, e, h.sampled false [] rest⟩
    | succ j => exact .inl ⟨_, e, h.sampled true (List.replicate j true ++ [false]) rest⟩
  · exact .inr (.inl ⟨_, e, h.sampled true (List.replicate j true) rest⟩)
  · cases j with
    | zero => exact .inr (.inr ⟨_, _, p, e, h.silent rfl rfl (by simp) (by simp)⟩)
    | succ j => exact .inr (.inr ⟨_, _, .settled, e, h.sampled true (List.replicate j true) []⟩)

/-! ## One statement -/

section waits
variable {ops : List Op} (hp : p ≠ .opened)
include hp

/-- The rest of a body after a wait finds the bus settled, whatever the phase before (R125 (3)). -/
theorem opsSettle_wait {n : Nat} : opsSettle p (.wait n :: ops) = opsSettle .settled ops := by simp [opsSettle, hp]

theorem opsSettle_readWait {r : Byte} {n : Nat} : opsSettle p (.readWait r n :: ops) = opsSettle .settled ops := by
  simp [opsSettle, hp]

theorem opsSettle_pollWait {r : Byte} {n m : Nat} : opsSettle p (.pollWait r n m :: ops) = opsSettle .settled ops := by
  simp [opsSettle, hp]

end waits

/-- Where a statement has come to, the rest `ops` of the body keeps the rules; and it names no frame any more. -/
def OpEnd.KeepsRules (P : Prop) (ops : List Op) : OpEnd → Prop
  | .done t => ∃ p, OnBus P p t ∧ opsSettle p ops = true
  | .finish _ t => OnBus P .settled t
  | .pend op t => ∃ p, OnBus P p t ∧ opsSettle p (op :: ops) = true ∧ opSends op = []

theorem pollFrom_keepsRules {ops : List Op} (hops : opsSettle .settled ops = true) (fuel reads : Nat)
    (h : OnBus P .settled s) : (pollFrom fuel reads s).KeepsRules P ops := by
  induction fuel generalizing reads s with
  | zero => exact ⟨.settled, h, hops, rfl⟩
  | succ fuel ih =>
    have hread := h.sendFrame (bytes := [s.cfg.regStatus ||| readFlag, s.cfg.filler]) fun _ => frameOk_read _ _
    simp only [pollFrom, State.readFrame_state]
    rcases hread.wait 0 with ⟨t, e, ht⟩ | ⟨t, e, ht⟩ | ⟨n, t, q, e, ht⟩ <;> rw [e] <;> dsimp only
    · split
      · exact ⟨.settled, ht, hops⟩
      · split
        · exact ht
        · exact ih (reads + 1) ht
    · exact ht
    · exact ⟨q, ht, (opsSettle_pollWait ht.notOpened).trans hops, rfl⟩

/-- A statement that keeps the rules, met by a bus in a phase in which it may come. -/
theorem doOp_keepsRules {op : Op} {ops : List Op} (h : OnBus P p s) (hops : opsSettle p (op :: ops) = true)
    (hf : P → ∀ f ∈ opSends op, FrameOk s.cfg f) : (doOp op s).KeepsRules P ops := by
  have hp : p ≠ .opened := h.notOpened
  cases op with
  | frame bytes =>
    obtain ⟨rfl, hrest⟩ : p = .settled ∧ opsSettle .closed ops = true := by simpa [opsSettle] using hops
    exact ⟨.closed, h.sendFrame fun hP => hf hP bytes (by simp [opSends]), hrest⟩
  | stream =>
    obtain ⟨rfl, hrest⟩ : p = .settled ∧ opsSettle .closed ops = true := by simpa [opsSettle] using hops
    exact ⟨.closed, h.sendFrame fun _ => frameOk_stream (by simp [Memory.bytes]), hrest⟩
  | wait polls =>
    have hrest : opsSettle .settled ops = true := (opsSettle_wait hp).symm.trans hops
    simp only [doOp]
    rcases h.wait polls with ⟨t, e, ht⟩ | ⟨t, e, ht⟩ | ⟨n, t, q, e, ht⟩ <;> rw [e] <;> dsimp only
    · exact ⟨.settled, ht, hrest⟩
    · exact ht
    · exact ⟨q, ht, (opsSettle_wait ht.notOpened).trans hrest, rfl⟩
  | readResult head filler =>
    obtain ⟨rfl, hrest⟩ : p = .settled ∧ opsSettle .settled ops = true := by simpa [opsSettle] using hops
    have hread := h.sendFrame fun hP => hf hP [head, filler] (by simp [opSends])
    simp only [doOp, State.readFrame_state]
    rcases hread.wait 0 with ⟨t, e, ht⟩ | ⟨t, e, ht⟩ | ⟨n, t, q, e, ht⟩ <;> rw [e] <;> dsimp only
    · exact ht
    · exact ht
    · exact ⟨q, ht, (opsSettle_readWait ht.notOpened).trans hrest, rfl⟩
  | readWait r polls =>
    have hrest : opsSettle .settled ops = true := (opsSettle_readWait hp).symm.trans hops
    simp only [doOp]
    rcases h.wait polls with ⟨t, e, ht⟩ | ⟨t, e, ht⟩ | ⟨n, t, q, e, ht⟩ <;> rw [e] <;> dsimp only
    · exact ht
    · exact ht
    · exact ⟨q, ht, (opsSettle_readWait ht.notOpened).trans hrest, rfl⟩
  | pollReady reads =>
    obtain ⟨rfl, hrest⟩ : p = .settled ∧ opsSettle .settled ops = true := by simpa [opsSettle] using hops
    exact pollFrom_keepsRules hrest _ reads h
  | pollWait r polls reads =>
    have hrest : opsSettle .settled ops = true := (opsSettle_pollWait hp).symm.trans hops
    simp only [doOp]
    rcases h.wait polls with ⟨t, e, ht⟩ | ⟨t, e, ht⟩ | ⟨n, t, q, e, ht⟩ <;> rw [e] <;> dsimp only
    · split
      · exact ⟨.settled, ht, hrest⟩
      · split
        · exact ht
        · exact pollFrom_keepsRules hrest _ _ ht
    · exact ht
    · exact ⟨q, ht, (opsSettle_pollWait ht.notOpened).trans hrest, rfl⟩
  | setReset l =>
    have hphase : busPhase p [.rst l] = some p := by cases p <;> first | rfl | exact absurd rfl hp
    exact ⟨p, h.grow (new := [.rst l]) rfl h.cs (Seq.tick_eq _) rfl hphase hp (by simp [framesFrom]),
      by simpa [opsSettle, hp] using hops⟩
  | delay n =>
    have hphase : busPhase p [.delay n] = some p := by cases p <;> first | rfl | exact absurd rfl hp
    exact ⟨p, h.grow (new := [.delay n]) rfl h.cs (Seq.tick_eq _) rfl hphase hp (by simp [framesFrom]),
      by simpa [opsSettle, hp] using hops⟩
  | _ => exact ⟨p, h.silent rfl rfl rfl rfl, by simpa [opsSettle] using hops⟩

/-! ## A body -/

/-- R125 (5) apart from its premise: what `Classified` says under `STRICT`. -/
def FramesOk (s : State) : Prop :=
  (∀ f ∈ framesFrom none s.trace, FrameOk s.cfg f) ∧
    ∀ c k todo, s.seq = .running c k todo → ∀ op ∈ todo, ∀ f ∈ opSends op, FrameOk s.cfg f

theorem OnBus.complete (h : OnBus P .settled s) (r : Result) :
    Framed (s.complete r) ∧ (P → FramesOk (s.complete r)) :=
  ⟨⟨h.cs, h.phase⟩, fun hP => ⟨h.sent hP, fun _ _ _ hr => by cases hr⟩⟩

/-- A command that stands keeps the invariant when what it has still to do does. -/
theorem OnBus.stand {todo : List Op} (h : OnBus P p s) (htodo : opsSettle p todo = true)
    (hf : P → ∀ op ∈ todo, ∀ f ∈ opSends op, FrameOk s.cfg f) :
    Framed { s with seq := s.seq.withTodo todo } ∧ (P → FramesOk { s with seq := s.seq.withTodo todo }) := by
  cases hs : s.seq with
  | idle => exact absurd hs h.running
  | running c k old =>
    exact ⟨⟨h.cs, p, h.phase, htodo⟩, fun hP => ⟨h.sent hP, by rintro _ _ _ ⟨⟩; exact hf hP⟩⟩

theorem runOps_framed {ops : List Op} (h : OnBus P p s) (hops : opsSettle p ops = true)
    (hf : P → ∀ op ∈ ops, ∀ f ∈ opSends op, FrameOk s.cfg f) :
    Framed (runOps ops s) ∧ (P → FramesOk (runOps ops s)) := by
  induction ops generalizing p s with
  | nil =>
    obtain rfl : p = .settled := by cases p <;> first | rfl | cases hops
    exact h.complete .ok
  | cons op ops ih =>
    have hd := doOp_keepsRules h hops fun hP => hf hP op (by simp)
    have hcfg : (doOp op s).state.cfg = s.cfg := ((keeps_record (op :: ops)).doOp (by simp) s).1
    have hrest : P → ∀ o ∈ ops, ∀ f ∈ opSends o, FrameOk s.cfg f := fun hP => (List.forall_mem_cons.1 (hf hP)).2
    simp only [runOps]
    cases hdo : doOp op s with
    | done t =>
      rw [hdo] at hd hcfg
      obtain ⟨q, ht, hq⟩ := hd
      exact ih ht hq (by rw [show t.cfg = s.cfg from hcfg]; exact hrest)
    | finish r t =>
      rw [hdo] at hd
      exact OnBus.complete hd r
    | pend op' t =>
      rw [hdo] at hd hcfg
      obtain ⟨q, ht, hq, hsends⟩ := hd
      refine ht.stand hq fun hP => List.forall_mem_cons.2 ⟨by simp [hsends], ?_⟩
      rw [show t.cfg = s.cfg from hcfg]
      exact hrest hP

end onBus

/-! ## The pseudocode of the commands -/

/-- Statements that keep the rules wherever the bus is settled and leave it settled, and whose frames are classified and
of their kinds' lengths where `P` says that this is kept track of. -/
structure Orderly (P : Prop) (c : Config) (ops : List Op) : Prop where
  settle : ∀ rest, opsSettle .settled (ops ++ rest) = opsSettle .settled rest
  sends : P → ∀ op ∈ ops, ∀ f ∈ opSends op, FrameOk c f

namespace Orderly

section rules
variable {P : Prop} {c : Config}

theorem settles {ops : List Op} (h : Orderly P c ops) : opsSettle .settled ops = true := by
  have := h.settle []
  rwa [List.append_nil] at this

theorem nil : Orderly P c [] := ⟨fun _ => rfl, fun _ _ h => absurd h List.not_mem_nil⟩

theorem append {a b : List Op} (ha : Orderly P c a) (hb : Orderly P c b) : Orderly P c (a ++ b) where
  settle rest := by rw [List.append_assoc, ha.settle, hb.settle]
  sends hP := List.forall_mem_append.2 ⟨ha.sends hP, hb.sends hP⟩

theorem repeatOps {ops : List Op} (h : Orderly P c ops) (n : Nat) : Orderly P c (repeatOps n ops) := by
  induction n with
  | zero => exact nil
  | succ n ih =>
    rw [repeatOps_succ]
    exact h.append ih

/-- A statement that sends no frame and may come on a settled bus. -/
theorem silent {op : Op} (hs : ∀ rest, opsSettle .settled (op :: rest) = opsSettle .settled rest)
    (hf : opSends op = []) : Orderly P c [op] :=
  ⟨hs, fun _ => List.forall_mem_singleton.2 (by simp [hf])⟩

/-- A frame and its wait. -/
theorem transaction {bytes : List Byte} (hf : P → FrameOk c bytes) : Orderly P c [.frame bytes, .wait 0] :=
  ⟨fun _ => rfl, fun hP => by simpa [opSends] using hf hP⟩

theorem readResult {head filler : Byte} (hf : P → FrameOk c [head, filler]) : Orderly P c [.readResult head filler] :=
  ⟨fun _ => rfl, fun hP => by simpa [opSends] using hf hP⟩

theorem delay (n : Nat) : Orderly P c [.delay n] := silent (fun _ => rfl) rfl
theorem invert : Orderly P c [.invert] := silent (fun _ => rfl) rfl
theorem clear (l : Level) : Orderly P c [.clear l] := silent (fun _ => rfl) rfl
theorem wait : Orderly P c [.wait 0] := silent (fun _ => rfl) rfl
theorem setPower (p : PowerState) : Orderly P c [.setPower p] := silent (fun _ => rfl) rfl

theorem drawSegs (segments : List Nat) (l : Level) : Orderly P c (segments.map fun i => .setSeg i l) := by
  induction segments with
  | nil => exact nil
  | cons i segments ih => exact (silent (op := .setSeg i l) (fun _ => rfl) rfl).append ih

end rules

section procedures
variable {P : Prop} {c : Config} (h : wellFormedConfig c = true)
include h

/-- The block's own writes: D8 for the address, at most 4 operands. -/
theorem writeReg {a : Byte} {ops : List Byte} (ha : a ∈ writtenRegs c) (hl : ops.length ≤ 4) :
    Orderly P c (writeReg a ops) :=
  transaction fun _ => frameOk_write (wf_written h ha).1 (wf_written h ha).2 hl

/-- D9. -/
theorem writeList {a : Byte} {ops : List Byte} (ha : a ∈ writtenRegs c) (hl : ops ∈ operandLists c) :
    Orderly P c (Machine.writeReg a ops) := writeReg h ha (wf_operandList h hl)

theorem setCV (v : Int) : Orderly P c (setCV c v) := writeReg h (by simp [writtenRegs]) (by simp [encodeCV])

theorem setSV (sv : Nat) : Orderly P c (setSV c sv) := writeReg h (by simp [writtenRegs]) (by simp)

theorem writeBuf (target : BufferSel) (src : StreamSrc) : Orderly P c (writeBuf c target src) := by
  have stream : Orderly P c (streamOps c src) := by
    cases src with
    | live => exact ⟨fun _ => rfl, fun _ => by simp [streamOps, opSends]⟩
    | fill b => exact transaction fun _ => frameOk_stream (by simp)
  refine append (writeList h (by simp [writtenRegs]) ?_) stream
  cases target <;> simp [operandLists]

theorem powerOn : Orderly P c (powerOn c) := by
  have w {a : Byte} {ops : List Byte} : a ∈ writtenRegs c → ops ∈ operandLists c →
    Orderly P c (Machine.writeReg a ops) := writeList h
  have flush : Orderly P c [.setPower .poweringUp, .wait 0] := (setPower _).append wait
  have resolution : Orderly P c (Machine.writeReg c.regResolution c.opsResolution) :=
    w (by simp [writtenRegs]) (by simp [operandLists])
  have timing : Orderly P c (Machine.writeReg c.regTiming c.opsTiming) :=
    w (by simp [writtenRegs]) (by simp [operandLists])
  have sequence : Orderly P c (Machine.writeReg c.regPowerSequence c.opsPowerSequence) :=
    w (by simp [writtenRegs]) (by simp [operandLists])
  have rails : Orderly P c (Machine.writeReg c.regPowerControl c.opsRailsUp) :=
    w (by simp [writtenRegs]) (by simp [operandLists])
  have ready : Orderly P c [.pollReady 0, .setPower .up] := (silent (fun _ => rfl) rfl).append (setPower _)
  exact ((((flush.append resolution).append timing).append sequence).append rails).append ready

theorem powerOff : Orderly P c (powerOff c) := by
  have down {ops : List Byte} : ops ∈ operandLists c → Orderly P c (Machine.writeReg c.regPowerControl ops) :=
    writeList h (by simp [writtenRegs])
  exact (((((setPower _).append (down (by simp [operandLists]))).append wait).append
    (down (by simp [operandLists]))).append wait).append (setPower _)

theorem update (mode : UpdateMode) (manual : Bool) : Orderly P c (update c mode manual) := by
  have on : Orderly P c (if manual then [] else Machine.powerOn c) := by
    cases manual
    · exact powerOn h
    · exact nil
  have off : Orderly P c (if manual then [] else Machine.powerOff c) := by
    cases manual
    · exact powerOff h
    · exact nil
  have w {a b : Byte} : a ∈ writtenRegs c → Orderly P c (Machine.writeReg a [b]) := fun ha => writeReg h ha (by simp)
  exact (((((writeBuf h _ _).append on).append (w (by simp [writtenRegs]))).append (w (by simp [writtenRegs]))).append
    wait).append off

theorem writePrev (l : Level) : Orderly P c (writePrev c l) := writeBuf h _ _

theorem pass (l : Level) (mode : UpdateMode) : Orderly P c (pass c l mode) := (writePrev h l).append (update h mode false)

theorem redBlock : Orderly P c (redBlock c) := by
  have flip : Orderly P c [.invert, .delay 10] := invert.append (delay 10)
  have half (v : Int) : Orderly P c (Machine.writePrev c .lightGray ++ Machine.setCV c v ++ Machine.update c .mono false
      ++ [.invert, .delay 10]) := (((writePrev h _).append (setCV h v)).append (update h _ _)).append flip
  have both := (half 10000).append (half (-10000))
  simp only [← List.append_assoc] at both
  exact repeatOps both 2

theorem recipe (col : Colour) : Orderly P c (recipe c col) := by
  have bw : Orderly P c (renderBW c) :=
    ((((setCV h _).append (setSV h _)).append invert).append (repeatOps ((pass h _ _).append (pass h _ _)) 5)).append invert
  cases col with
  | black => exact bw
  | white => exact bw
  | yellow => exact ((setCV h _).append (setSV h _)).append (repeatOps (pass h _ _) 3)
  | green => exact ((setCV h _).append (setSV h _)).append (repeatOps (pass h _ _) 3)
  | red => exact (setSV h _).append (redBlock h)
  | blue =>
    have lead : Orderly P c (if c.blueLeadingSv then Machine.setSV c 10000 else []) := by
      split
      · exact setSV h _
      · exact nil
    exact ((((lead.append (redBlock h)).append (setSV h _)).append (setCV h _)).append invert).append
      (repeatOps ((pass h _ _).append (delay 1)) 2)

theorem screenErase : Orderly P c (screenErase c) := by
  have passes : Orderly P c (erasePasses c) := repeatOps (pass h _ _) 3
  have half (v : Int) (l : Level) :
      Orderly P c (Machine.setCV c v ++ [.clear l] ++ erasePasses c ++ [.delay c.eraseDelayMs]) :=
    (((setCV h v).append (clear l)).append passes).append (delay _)
  have both := (half 15000 .black).append (half (-15000) c.eraseNegLevel)
  simp only [← List.append_assoc] at both
  exact ((repeatOps both 2).append (clear _)).append (setCV h 0)

theorem beginOps : Orderly P c (beginOps c) := by
  have w {a : Byte} {ops : List Byte} : a ∈ writtenRegs c → ops ∈ operandLists c →
    Orderly P c (Machine.writeReg a ops) := writeList h
  have reset : Orderly P c (if c.hasResetLine then hardwareReset else softwareReset c) := by
    split
    · exact ⟨fun _ => rfl, fun _ => by simp [hardwareReset, opSends]⟩
    · exact w (by simp [writtenRegs]) (by simp [operandLists])
  have init : Orderly P c (initRegisters c) := by
    unfold initRegisters
    repeat' apply append
    all_goals exact w (by simp [writtenRegs]) (by simp [operandLists])
  exact ((reset.append init).append (screenErase h)).append (silent (fun _ => rfl) rfl)

/-- R86, R125 (5): the pseudocode of every decoded instruction; with `P`, of one whose arguments pass. -/
theorem bodyOf {i : Instr} (hi : i.wellFormed c.nStream = true) (hP : P → argOk i = true) : Orderly P c (bodyOf c i) := by
  cases i with
  | fbClear l => exact clear l
  | fbInvert => exact invert
  | fbSetseg index l => exact silent (fun _ => rfl) rfl
  | fbDrawsegs mask l => exact drawSegs _ l
  | rpWrreg addr pm op0 op1 op2 op3 =>
    refine transaction fun p => ?_
    have hok : addr.toNat < 0x80 ∧ addr ≠ 0x10#8 := by simpa [argOk, writeAddrOk, opcBufWrite] using hP p
    exact frameOk_write hok.1 hok.2 (length_presentOps_le pm op0 op1 op2 op3)
  | rpRdreg addr => exact readResult fun _ => frameOk_read addr _
  | rpWrbuf target fillsel fill => exact writeBuf h _ _
  | psOn => exact powerOn h
  | psOff => exact powerOff h
  | wsBegin => exact beginOps h
  | wsUpdate mode manual =>
    simp only [Machine.bodyOf, updateOps]
    split
    · exact update h _ _
    · exact nil
  | wsRender colour =>
    simp only [Machine.bodyOf, renderOps]
    split
    · exact recipe h _
    · exact nil
  | wsSetcv v => exact setCV h _
  | wsSetsv sv => exact setSV h _
  | wWrreg addr ops => exact transaction fun _ => frameOk_encode rfl hi
  | wRdreg addr filler => exact readResult fun _ => frameOk_encode rfl hi
  | wWrbuf data => exact transaction fun _ => frameOk_encode rfl hi

end procedures

end Orderly

/-! ## The step -/

/-- What a word decodes to is a command, which every encoding admits (R73). -/
theorem wellFormed_of_decode {w : CmdWord} {i : Instr} (h : decode w = .ok i) (n : Nat) : i.wellFormed n = true := by
  have row : HasFields w i := decode_eq_ok_iff.1 h
  cases i with
  | wWrreg addr ops => exact row.elim
  | wRdreg addr filler => exact row.elim
  | wWrbuf data => exact row.elim
  | _ => rfl

/-- R192: with `STRICT` a command that comes to run has arguments that pass. -/
theorem exec_next_strict {i : Instr} {s t : State} (hs : s.seq = .idle) (h : exec i s = .next t) :
    (∃ r, t = s.fail r) ∨ ((s.cfg.strict = true → argOk i = true) ∧ t = s.start i (bodyOf s.cfg i)) := by
  rw [exec_eq] at h
  rcases runCommand_cases i (gated i) (argOk i) (laxRefusal i) (bodyOf s.cfg i) s with
    ⟨_, e⟩ | ⟨_, hn, e⟩ | ⟨_, _, _, _, _, e⟩ | ⟨_, _, _, _, _, e⟩ | ⟨r, _, _, _, _, _, e⟩ |
      ⟨_, _, hstrict, _, e⟩ <;> rw [e] at h <;> cases h
  · exact absurd hs hn
  · exact .inl ⟨_, rfl⟩
  · exact .inl ⟨_, rfl⟩
  · exact .inr ⟨fun hst => (hstrict hst).2, rfl⟩

section step
variable {P : Prop} {s t : State}

/-- A failed check ends a command before its first primitive. -/
theorem Framed.fail (h : Framed s) (hs : s.seq = .idle) (hf : P → FramesOk s) (r : Result) :
    Framed (s.fail r) ∧ (P → FramesOk (s.fail r)) := by
  obtain ⟨hcs, hphase⟩ := h
  rw [hs] at hphase
  exact ⟨⟨hcs, hphase⟩, fun hP => ⟨(hf hP).1, fun _ _ _ hr => by cases hr⟩⟩

theorem exec_framed {i : Instr} (hi : i.wellFormed s.cfg.nStream = true) (h : Framed s) (hs : s.seq = .idle)
    (hst : P → s.cfg.strict = true) (hf : P → FramesOk s) (he : exec i s = .next t) :
    Framed t ∧ (P → FramesOk t) := by
  obtain ⟨hw, -⟩ := exec_next he
  rcases exec_next_strict hs he with ⟨r, rfl⟩ | ⟨harg, rfl⟩
  · exact h.fail hs hf r
  · have body : Orderly P s.cfg (bodyOf s.cfg i) := .bodyOf hw hi fun hP => harg (hst hP)
    obtain ⟨hcs, hphase⟩ := h
    rw [hs] at hphase
    have start : OnBus P .settled { s with seq := .running i 0 (bodyOf s.cfg i) } :=
      ⟨Seq.noConfusion, hcs, hphase, BusPhase.noConfusion, fun hP => (hf hP).1⟩
    exact runOps_framed start body.settles body.sends

/-- A statement cannot come while a frame is open. -/
theorem opsSettle_opened (ops : List Op) : opsSettle .opened ops = false := by
  induction ops with
  | nil => rfl
  | cons op ops ih => cases op <;> simp [opsSettle, ih]

theorem resume_framed {c : Instr} {k : Nat} {todo : List Op} (hs : s.seq = .running c k todo) (h : Framed s)
    (hf : P → FramesOk s) : Framed s.resume ∧ (P → FramesOk s.resume) := by
  obtain ⟨hcs, hrun⟩ := h
  rw [hs] at hrun
  obtain ⟨p, hphase, htodo⟩ := hrun
  have here : OnBus P p s := by
    refine ⟨by simp [hs], hcs, hphase, ?_, fun hP => (hf hP).1⟩
    rintro rfl
    rw [opsSettle_opened] at htodo
    cases htodo
  have sends : P → ∀ op ∈ todo, ∀ f ∈ opSends op, FrameOk s.cfg f := fun hP => (hf hP).2 c k todo hs
  rw [resume_of_running hs]
  split
  · exact runOps_framed (s := s.nextBusy) (here.silent rfl rfl rfl rfl) htodo sends
  · exact runOps_framed here htodo sends

/-- Each way a step can go on keeps R125 (1) to (4), and (5) where it is kept track of. -/
theorem step_framed (hst : P → s.cfg.strict = true) (h : Framed s) (hf : P → FramesOk s) (hstep : step s = .next t) :
    Framed t ∧ (P → FramesOk t) := by
  obtain ⟨-, ⟨c, k, todo, hrun, rfl⟩ | ⟨hs, f, rest, i, -, hd, he⟩ | ⟨hs, -, w, rest, i, -, hd, he⟩ |
    ⟨hs, -, w, rest, e, -, -, -, rfl⟩ | ⟨-, -, -, rfl⟩⟩ := step_next hstep
  · exact resume_framed hrun h hf
  · exact exec_framed (s := { s with frameIn := rest }) (decodeFrame_eq_ok_iff.1 hd).2 h hs hst hf he
  · exact exec_framed (s := { s with hostIn := rest }) (wellFormed_of_decode hd _) h hs hst hf he
  · exact Framed.fail (s := { s with hostIn := rest }) h hs hf .invalidConfiguration
  · exact ⟨h, hf⟩

end step

/-- Settles O58: (1) to (4) are kept whether or not (5) is kept track of, which it is with `STRICT` from a state of
classified frames. -/
theorem stepKeepsFraming : Obligations.StepKeepsFraming := by
  intro s t h hstep
  have hcfg : t.cfg = s.cfg := (step_advances hstep).cfg
  have kept := step_framed (P := s.cfg.strict = true ∧ Classified s) And.left h (fun ⟨hst, hc⟩ => hc hst) hstep
  have framesOk : Classified s → t.cfg.strict = true → FramesOk t := fun hc hst => kept.2 ⟨hcfg ▸ hst, hc⟩
  exact ⟨kept.1, fun hc => ⟨framesOk hc, fun hst => unframed_not_mem_coarseFrom none t.trace (framesOk hc hst).1⟩⟩

end Sys2Proof.Machine
end

section
/-! The two one-bit fields of `RP_WRBUF` (30_encoding.md R73, R74). -/

namespace Sys2Proof

theorem BufferSel.ofBit_eq_current {b : BitVec 1} : BufferSel.ofBit b = .current ↔ b.getLsbD 0 = false := by
  revert b
  decide

theorem FillSel.ofBit_eq_live {b : BitVec 1} : FillSel.ofBit b = .live ↔ b.getLsbD 0 = false := by
  revert b
  decide

theorem getLsbD_cmdField (w : CmdWord) (k : Nat) : (cmdField w k 1).getLsbD 0 = w.getLsbD k := by
  simp [cmdField]

end Sys2Proof
end

section
/-! Transactions (41_register_protocol.md R120 to R124): a frame and its wait, whatever the environment answers, and the
register protocol's three commands, which are made of them. -/

namespace Sys2Proof.Machine

/-! ## A command that an idle block is given -/

/-- The state in which the body of an accepted command starts (R71, R26). -/
def State.accepted (i : Instr) (s : State) : State := { s with seq := .running i 0 (bodyOf s.cfg i) }

@[simp] theorem State.accepted_cfg (i : Instr) (s : State) : (s.accepted i).cfg = s.cfg := rfl
@[simp] theorem State.accepted_env (i : Instr) (s : State) : (s.accepted i).env = s.env := rfl
@[simp] theorem State.accepted_trace (i : Instr) (s : State) : (s.accepted i).trace = s.trace := rfl
@[simp] theorem State.accepted_dev (i : Instr) (s : State) : (s.accepted i).dev = s.dev := rfl
@[simp] theorem State.accepted_seq (i : Instr) (s : State) : (s.accepted i).seq = .running i 0 (bodyOf s.cfg i) := rfl

section accept
variable {i : Instr} {s : State} (hr : Ready s)
include hr

theorem Ready.fail_eq (r : Result) : s.fail r = s.reported r := by
  simp [State.fail, State.complete, State.reported, hr.2]

/-- R193. -/
theorem exec_notConfigured (hg : gated i = true) (hst : s.cfg.strict = true) (hc : s.configured = false) :
    exec i s = .next (s.reported .notConfigured) := by
  rw [exec_eq, hg, runCommand_notConfigured hr.1 hr.2 hst hc, hr.fail_eq]

/-- R192, R195. -/
theorem exec_invalid (ha : argOk i = false) (hst : s.cfg.strict = true) (hc : s.configured = true) :
    exec i s = .next (s.reported .invalidConfiguration) := by
  rw [exec_eq, ha, runCommand_invalid hr.1 hr.2 hst fun _ => hc, hr.fail_eq]

/-- A command whose checks pass, or that `STRICT = false` takes as it is, runs its body. -/
theorem exec_runs (hok : s.cfg.strict = true → (gated i = true → s.configured = true) ∧ argOk i = true)
    (hlax : laxRefusal i = none) : exec i s = .next (runOps (bodyOf s.cfg i) (s.accepted i)) := by
  rw [exec_eq, runCommand_start hr.1 hr.2 hok fun _ => .inr hlax]
  rfl

end accept

theorem writeAddrOk_iff {addr : Byte} : writeAddrOk addr = true ↔ addr.toNat < 0x80 ∧ addr.toNat ≠ 0x10 := by
  have h10 : addr = 0x10#8 ↔ addr.toNat = 0x10 := BitVec.toNat_inj.symm
  simp [writeAddrOk, opcBufWrite, h10]

/-! ## What a transaction leaves -/

/-- From `s` to `u` nothing changed but the bus, the trace, the position, the environment and the shadow. -/
structure Untouched (s u : State) : Prop where
  cfg : u.cfg = s.cfg
  fb : u.fb = s.fb
  ps : u.ps = s.ps
  configured : u.configured = s.configured
  rst : u.rst = s.rst
  returned : u.returned = s.returned
  hostIn : u.hostIn = s.hostIn
  frameIn : u.frameIn = s.frameIn

theorem Untouched.trans {s t u : State} (h : Untouched s t) (k : Untouched t u) : Untouched s u where
  cfg := k.cfg.trans h.cfg
  fb := k.fb.trans h.fb
  ps := k.ps.trans h.ps
  configured := k.configured.trans h.configured
  rst := k.rst.trans h.rst
  returned := k.returned.trans h.returned
  hostIn := k.hostIn.trans h.hostIn
  frameIn := k.frameIn.trans h.frameIn

theorem untouched_accepted (i : Instr) (s : State) : Untouched s (s.accepted i) := by constructor <;> rfl

theorem Untouched.ended {s u : State} (h : Untouched s u) (r : Result) : Ended s (u.complete r) r :=
  ⟨rfl, congrArg (· ++ [r]) h.returned, rfl, h.cfg, h.hostIn, h.frameIn⟩

/-- What the shadow sees of a frame does not depend on the answers. -/
theorem see_coarseFrame {bytes rs : List Byte} (h : rs.length = bytes.length) (c : Config) (d : Device) :
    Device.see c d (coarseFrame (bytes.zip rs)) = Device.see c d (frameCoarse bytes) := by
  rw [← Device.see_blank, blank_coarseFrame h]

/-- `s` after a frame and the samples `bs` of its wait, with `rest` still queued. -/
def State.transacted (bytes : List Byte) (bs rest : List Bool) (s : State) : State :=
  (s.sendFrame bytes).2.afterBusy bs rest

section transacted
variable (bytes : List Byte) (bs rest : List Bool) (s : State)

@[simp] theorem State.transacted_cs : (s.transacted bytes bs rest).cs = .high := State.sendFrame_cs bytes s

@[simp] theorem State.transacted_busy : (s.transacted bytes bs rest).env.busy = rest := rfl

theorem untouched_transacted : Untouched s (s.transacted bytes bs rest) := by
  constructor <;> simp [State.transacted]

end transacted

/-- While the queue lasts, a frame is answered by it. -/
theorem answers_queued {e : Env} {rs more : List Byte} (hx : e.xfer = rs ++ more) :
    e.answers rs.length = (rs, { e with xfer := more }) := by
  rw [Env.answers_of_le (by simp [hx]), hx, List.take_left, List.drop_left]

/-- What a command answers whose body came to its end in its first transaction: a frame whose answers are queued, and the
samples `bs` of its wait. -/
theorem transaction_answer {i : Instr} {s : State} {bytes rs more : List Byte} {bs rest : List Bool} {r : Result}
    (he : exec i s = .next (((s.accepted i).transacted bytes bs rest).complete r))
    (hx : s.env.xfer = rs ++ more) (hl : rs.length = bytes.length) :
    ∃ t, exec i s = .next t ∧ Ended s t r ∧ t.trace = s.trace ++ (frameEvents bytes rs ++ bs.map Event.busy) ∧
      t.env = { s.env with xfer := more, busy := rest } ∧ t.fb = s.fb ∧ t.ps = s.ps ∧ t.configured = s.configured ∧
      t.cs = .high ∧ t.rst = s.rst ∧ t.dev = Device.see s.cfg s.dev (frameCoarse bytes) := by
  have kept := (untouched_accepted i s).trans (untouched_transacted bytes bs rest (s.accepted i))
  have answers : s.env.answers bytes.length = (rs, { s.env with xfer := more }) := hl ▸ answers_queued hx
  refine ⟨_, he, kept.ended r, ?_, ?_, kept.fb, kept.ps, kept.configured, by simp, kept.rst, ?_⟩
  · simp [State.transacted, answers]
  · simp [State.transacted, answers]
  · simp [State.transacted, answers, see_coarseFrame hl]

section wait
variable {s : State} {bytes : List Byte}

/-- A frame whose wait clears, and what follows it (R120, R121). -/
theorem runOps_transaction_clear {j : Nat} {rest : List Bool} (ops : List Op)
    (hq : s.env.busy = List.replicate j true ++ false :: rest) (hb : ∀ n, s.cfg.waitBound = some n → j < n) :
    runOps (.frame bytes :: .wait 0 :: ops) s =
      runOps ops (s.transacted bytes (List.replicate j true ++ [false]) rest) := by
  rw [runOps_frame]
  exact runOps_wait_clear (by simpa using hq) (by simpa using hb)

/-- A frame whose wait reaches the bound, which ends the command (R121, R191). -/
theorem runOps_transaction_timeout {n : Nat} {rest : List Bool} (ops : List Op) (hw : wellFormedConfig s.cfg = true)
    (hn : s.cfg.waitBound = some n) (hq : s.env.busy = List.replicate n true ++ rest) :
    runOps (.frame bytes :: .wait 0 :: ops) s =
      (s.transacted bytes (List.replicate n true) rest).complete .deviceTimeout := by
  rw [runOps_frame]
  exact runOps_wait_timeout (by simpa using hn) (wf_bound hw n hn) (by simpa using hq)

/-- The read frame and its wait, which clears: the second answer is the result (R123). -/
theorem runOps_read_clear {head filler a r : Byte} {more : List Byte} {j : Nat} {rest : List Bool} {ops : List Op}
    (hx : s.env.xfer = a :: r :: more) (hq : s.env.busy = List.replicate j true ++ false :: rest)
    (hb : ∀ n, s.cfg.waitBound = some n → j < n) :
    runOps (.readResult head filler :: ops) s =
      (s.transacted [head, filler] (List.replicate j true ++ [false]) rest).complete (.okValue r) := by
  have clear := State.waitBusyClear_clear (polls := 0) (s := (s.sendFrame [head, filler]).2) (j := j) (rest := rest)
    (by simpa using hq) (underBound_of_lt (by simpa using hb))
  have response : (s.readFrame head filler).1 = r := by
    have answers : s.env.answers 2 = ([a, r], { s.env with xfer := more }) := answers_queued (rs := [a, r]) hx
    rw [State.readFrame_response, answers]
    rfl
  simp only [runOps, doOp, State.readFrame_state, clear, response, State.transacted]

/-- A read whose wait reaches the bound loses its response (R123, R191). -/
theorem runOps_read_timeout {head filler : Byte} {n : Nat} {rest : List Bool} {ops : List Op}
    (hw : wellFormedConfig s.cfg = true) (hn : s.cfg.waitBound = some n)
    (hq : s.env.busy = List.replicate n true ++ rest) : runOps (.readResult head filler :: ops) s =
      (s.transacted [head, filler] (List.replicate n true) rest).complete .deviceTimeout := by
  have timeout := State.waitBusyClear_timeout (polls := 0) (s := (s.sendFrame [head, filler]).2) (rest := rest)
    (by simpa using hn) (wf_bound hw n hn) (by simpa using hq)
  simp only [runOps, doOp, State.readFrame_state, timeout, Nat.sub_zero, State.transacted]

end wait

/-! ## `RP_WRREG` and `RP_RDREG` -/

/-- Settles O29: the body is one transaction. -/
theorem writeRegisterCommand : Obligations.WriteRegisterCommand := by
  refine ⟨fun s addr pm op0 op1 op2 op3 hr => ⟨exec_notConfigured hr rfl, fun hst hc hbad => ?invalid,
    fun hok rs more hx hl => ?runs⟩, fun w hop => decode_of_hasFields ⟨hop, rfl, rfl, rfl, rfl, rfl, rfl⟩⟩
  case invalid =>
    refine exec_invalid hr (Bool.eq_false_iff.2 fun ha => ?_) hst hc
    obtain ⟨h7, h10⟩ := writeAddrOk_iff.1 ha
    exact hbad.elim (Nat.not_le.2 h7) h10
  case runs =>
    have runs := exec_runs (i := .rpWrreg addr pm op0 op1 op2 op3) hr
      (fun hst => ⟨fun _ => (hok hst).1, writeAddrOk_iff.2 (hok hst).2⟩) rfl
    rw [bodyOf, writeReg] at runs
    have write : addr.toNat < 0x80 → addr.toNat ≠ 0x10 →
        frameCoarse (addr :: presentOps pm op0 op1 op2 op3) = .wr (addr.setWidth 7) (presentOps pm op0 op1 op2 op3) :=
      fun h7 h10 => frameCoarse_write h7 fun e => h10 (congrArg BitVec.toNat e)
    refine ⟨fun j rest hq hb => ?_, fun n rest hn hq => ?_⟩
    · rw [runOps_transaction_clear (s := s.accepted _) [] hq hb] at runs
      obtain ⟨t, he, hend, htrace, henv, hfb, hps, hconf, hcs, hrst, hdev⟩ := transaction_answer runs hx hl
      exact ⟨t, he, hend, by simpa using htrace, henv, hfb, hps, hconf, hcs, hrst, fun h7 h10 => write h7 h10 ▸ hdev⟩
    · rw [runOps_transaction_timeout (s := s.accepted _) [] hr.1 hn hq] at runs
      obtain ⟨t, he, hend, htrace, henv, hfb, hps, hconf, hcs, hrst, hdev⟩ := transaction_answer runs hx hl
      exact ⟨t, he, hend, by simpa using htrace, henv, hfb, hps, hconf, hcs, hrst, fun h7 h10 => write h7 h10 ▸ hdev⟩

/-- Settles O30: the body is one transaction, whose second answer is the result when its wait clears. -/
theorem readRegisterCommand : Obligations.ReadRegisterCommand := by
  refine ⟨fun s addr hr => ⟨exec_notConfigured hr rfl, fun hst hc hbad => ?invalid, fun hok a r more hx => ?runs⟩,
    fun w hop => decode_of_hasFields ⟨hop, rfl⟩⟩
  case invalid => exact exec_invalid hr (decide_eq_false (Nat.not_lt.2 hbad)) hst hc
  case runs =>
    have runs := exec_runs (i := .rpRdreg addr) hr
      (fun hst => ⟨fun _ => (hok hst).1, decide_eq_true (hok hst).2⟩) rfl
    rw [bodyOf] at runs
    have unseen : Device.see s.cfg s.dev (frameCoarse [addr ||| readFlag, s.cfg.filler]) = s.dev := by
      rw [frameCoarse_read]
      rfl
    refine ⟨fun j rest hq hb => ?_, fun n rest hn hq => ?_⟩
    · rw [runOps_read_clear (s := s.accepted _) hx hq hb] at runs
      obtain ⟨t, he, hend, htrace, henv, hfb, hps, hconf, hcs, hrst, hdev⟩ := transaction_answer (rs := [a, r]) runs hx rfl
      exact ⟨t, he, hend, by simpa [readFlag] using htrace, henv, hfb, hps, hconf, hcs, hrst, hdev.trans unseen⟩
    · rw [runOps_read_timeout (s := s.accepted _) hr.1 hn hq] at runs
      obtain ⟨t, he, hend, htrace, -, hfb, hps, hconf, hcs, hrst, hdev⟩ := transaction_answer (rs := [a, r]) runs hx rfl
      exact ⟨t, he, hend, by simpa [readFlag] using htrace, hfb, hps, hconf, hcs, hrst, hdev.trans unseen⟩

/-! ## `RP_WRBUF` -/

/-- Transactions from `s` have come to `u`, with the coarse events `cs`, responses left out. -/
structure Reached (s u : State) (cs : List Coarse) : Prop extends Untouched s u where
  adds : Adds s u cs

theorem reached_accepted (i : Instr) (s : State) : Reached s (s.accepted i) [] := ⟨untouched_accepted i s, .refl s⟩

section reached
variable {s u : State} {cs : List Coarse}

theorem Reached.clear (h : Reached s u cs) (bytes : List Byte) (j : Nat) (rest : List Bool) :
    Reached s (u.transacted bytes (List.replicate j true ++ [false]) rest) (cs ++ [frameCoarse bytes, .waitBusy]) :=
  ⟨h.trans (untouched_transacted _ _ _ _), h.adds.trans ((Adds.sendFrame bytes u).trans (.cleared j rest _))⟩

theorem Reached.busy (h : Reached s u cs) (bytes : List Byte) (j : Nat) (rest : List Bool) :
    Reached s (u.transacted bytes (List.replicate j true) rest) (cs ++ [frameCoarse bytes]) :=
  ⟨h.trans (untouched_transacted _ _ _ _), h.adds.trans ((Adds.sendFrame bytes u).trans (.busy j rest _))⟩

/-- What a command answers whose body came to its end there. -/
theorem Reached.answer (h : Reached s u cs) (hcs : u.cs = .high) {i : Instr} {r : Result}
    (he : exec i s = .next (u.complete r)) :
    ∃ t, exec i s = .next t ∧ Ended s t r ∧ Ran s t cs ∧
      t.fb = s.fb ∧ t.ps = s.ps ∧ t.configured = s.configured ∧ t.cs = .high ∧ t.rst = s.rst := by
  obtain ⟨-, new, es, htr, hem, rfl⟩ := h.adds
  exact ⟨_, he, h.ended r, ⟨new, htr, by rw [hem.coarse_eq]⟩, h.fb, h.ps, h.configured, hcs, h.rst⟩

end reached

theorem setWidth8_setWidth7 {a : Byte} (h : a.toNat < 0x80) : (a.setWidth 7).setWidth 8 = a := by bv_omega

/-- The buffer of the shadow that a buffer write fills (R207). -/
def Device.filled (target : BufferSel) (data : List Byte) (d : Device) : Device :=
  match target with
  | .current => { d with wp := some .current, cur := some data }
  | .previous => { d with wp := some .previous, prev := some data }

/-- R124, R207: the pointer write selects the target, and the stream fills it. -/
theorem foldl_see_bufT {c : Config} (h : wellFormedConfig c = true) (target : BufferSel) {data : List Byte}
    (hl : data.length = c.nStream) (d : Device) :
    (bufT c.regWritePointer (pointerOps c target) data).foldl (Device.see c) d = d.filled target data := by
  have hreset : c.regWritePointer ≠ c.regSoftwareReset :=
    ((wf_tellingRegs h).1 c.regSoftwareReset (by simp [untoldRegs])).1.symm
  have haddr := setWidth8_setWidth7 (wf_written h (a := c.regWritePointer) (by simp [writtenRegs])).1
  obtain ⟨hops, -⟩ := wf_tellingOperands h
  cases target <;>
    simp [bufT, wrT, Device.see, Device.write, haddr, hreset, pointerOps, hops, Device.streamed, hl, Device.filled]

/-- The stream of a buffer write, whatever its source, is one frame (R78, R124). -/
theorem runOps_streamOps {c : Config} {s : State} (hc : s.cfg = c) (src : StreamSrc) : runOps (streamOps c src) s =
    runOps [.frame (opcBufWrite :: srcBytes c s.fb src), .wait 0] s := by
  subst hc
  cases src <;> rfl

theorem writeBuf_eq (c : Config) (target : BufferSel) (src : StreamSrc) : writeBuf c target src =
    .frame (c.regWritePointer :: pointerOps c target) :: .wait 0 :: streamOps c src := by
  cases target <;> rfl

theorem length_srcBytes (c : Config) (fb : Memory) (src : StreamSrc) : (srcBytes c fb src).length = c.nStream := by
  cases src <;> simp [srcBytes, Memory.bytes]

theorem frameCoarse_pointer {c : Config} (h : wellFormedConfig c = true) (ops : List Byte) :
    frameCoarse (c.regWritePointer :: ops) = .wr (c.regWritePointer.setWidth 7) ops := by
  obtain ⟨h7, h10⟩ := wf_written h (a := c.regWritePointer) (by simp [writtenRegs])
  exact frameCoarse_write h7 h10

section writeBuf
variable {s : State} {target : BufferSel} {src : StreamSrc} {i : Instr}

/-- Both waits clear (R124). -/
theorem writeBuf_completes (hw : wellFormedConfig s.cfg = true) (hbody : bodyOf s.cfg i = writeBuf s.cfg target src)
    (he : exec i s = .next (runOps (bodyOf s.cfg i) (s.accepted i)))
    (hresp : Responsive s (bufT s.cfg.regWritePointer (pointerOps s.cfg target) (srcBytes s.cfg s.fb src))) :
    ∃ t, exec i s = .next t ∧ Ended s t .ok ∧
      Ran s t (bufT s.cfg.regWritePointer (pointerOps s.cfg target) (srcBytes s.cfg s.fb src)) ∧
      t.fb = s.fb ∧ t.ps = s.ps ∧ t.configured = s.configured ∧ t.cs = .high ∧ t.rst = s.rst ∧
      t.dev = s.dev.filled target (srcBytes s.cfg s.fb src) := by
  have htrace : opsTrace s.cfg s.fb (writeBuf s.cfg target src) =
      bufT s.cfg.regWritePointer (pointerOps s.cfg target) (srcBytes s.cfg s.fb src) := trace_writeBuf hw s.fb target src
  have willing : Willing s.cfg s.env [] (opsTrace s.cfg s.fb (writeBuf s.cfg target src)) := by
    rw [htrace]
    exact ⟨by rwa [withUnready_nil], by simp [bufT, wrT, readsReady], by simp⟩
  obtain ⟨new, cs, e, t, hrun, hleaves, hcoarse, hdev⟩ :=
    runOps_willing (s := s.accepted i) (fresh_writeBuf hw target src) willing
  have hdev' : cs.foldl (Device.see s.cfg) s.dev = s.dev.filled target (srcBytes s.cfg s.fb src) := by
    rw [← foldl_see_bufT hw target (length_srcBytes s.cfg s.fb src), ← htrace]
    exact hdev
  rw [hbody, hrun, hleaves] at he
  refine ⟨_, he, ⟨rfl, rfl, rfl, rfl, rfl, rfl⟩, ⟨new, rfl, ?_⟩, opsFb_writeBuf _ _ _ _, ?_, ?_, ?_, ?_, hdev'⟩
  · rw [hcoarse, withUnready_nil]
    exact htrace
  all_goals cases src <;> rfl

/-- The first wait times out: the stream is not sent (R124, R196). -/
theorem writeBuf_pointer_timeout {n : Nat} {rest : List Bool} (hw : wellFormedConfig s.cfg = true)
    (hbody : bodyOf s.cfg i = writeBuf s.cfg target src)
    (he : exec i s = .next (runOps (bodyOf s.cfg i) (s.accepted i)))
    (hn : s.cfg.waitBound = some n) (hq : s.env.busy = List.replicate n true ++ rest) :
    ∃ t, exec i s = .next t ∧ Ended s t .deviceTimeout ∧
      Ran s t [.wr (s.cfg.regWritePointer.setWidth 7) (pointerOps s.cfg target)] ∧
      t.fb = s.fb ∧ t.ps = s.ps ∧ t.configured = s.configured ∧ t.cs = .high ∧ t.rst = s.rst := by
  rw [hbody, writeBuf_eq, runOps_transaction_timeout (s := s.accepted i) _ hw hn hq] at he
  have sent := (reached_accepted i s).busy (s.cfg.regWritePointer :: pointerOps s.cfg target) n rest
  rw [frameCoarse_pointer hw] at sent
  exact sent.answer (by simp) he

/-- The second wait times out: the whole stream was sent (R124, R196). -/
theorem writeBuf_stream_timeout {n j : Nat} {rest : List Bool} (hw : wellFormedConfig s.cfg = true)
    (hbody : bodyOf s.cfg i = writeBuf s.cfg target src)
    (he : exec i s = .next (runOps (bodyOf s.cfg i) (s.accepted i)))
    (hn : s.cfg.waitBound = some n) (hj : j < n)
    (hq : s.env.busy = List.replicate j true ++ false :: (List.replicate n true ++ rest)) :
    ∃ t, exec i s = .next t ∧ Ended s t .deviceTimeout ∧
      Ran s t [.wr (s.cfg.regWritePointer.setWidth 7) (pointerOps s.cfg target), .waitBusy,
        .stream (srcBytes s.cfg s.fb src)] ∧
      t.fb = s.fb ∧ t.ps = s.ps ∧ t.configured = s.configured ∧ t.cs = .high ∧ t.rst = s.rst := by
  have hb : ∀ b, s.cfg.waitBound = some b → j < b := fun b e => by rwa [← Option.some.inj (hn.symm.trans e)]
  rw [hbody, writeBuf_eq, runOps_transaction_clear (s := s.accepted i) _ hq hb] at he
  have pointer := (reached_accepted i s).clear (s.cfg.regWritePointer :: pointerOps s.cfg target) j
    (List.replicate n true ++ rest)
  rw [runOps_streamOps pointer.cfg, pointer.fb, runOps_transaction_timeout (rest := rest) [] (pointer.cfg.symm ▸ hw)
    (pointer.cfg.symm ▸ hn) (by simp)] at he
  have sent := pointer.busy (opcBufWrite :: srcBytes s.cfg s.fb src) n rest
  rw [frameCoarse_pointer hw] at sent
  exact sent.answer (by simp) he

end writeBuf

/-- Settles O31: the body is two transactions; the shadow sees the first select the buffer that the second fills. -/
theorem writeBufferCommand : Obligations.WriteBufferCommand := by
  refine ⟨?runs, fun w hop => ?decode⟩
  case decode =>
    refine ⟨BufferSel.ofBit (cmdField w 0 1), FillSel.ofBit (cmdField w 1 1), decode_of_hasFields
      ⟨hop, rfl, (FillSel.bit_ofBit _).symm, (BufferSel.bit_ofBit _).symm⟩, ?_, ?_⟩
    · rw [BufferSel.ofBit_eq_current, getLsbD_cmdField]
    · rw [FillSel.ofBit_eq_live, getLsbD_cmdField]
  case runs =>
    rintro s target fillsel fill select data hr hselect hdata
    have hw : wellFormedConfig s.cfg = true := hr.1
    obtain rfl : select = pointerOps s.cfg target := by cases target <;> exact hselect
    obtain rfl : data = srcBytes s.cfg s.fb (streamSrc fillsel fill) := by cases fillsel <;> exact hdata
    refine ⟨exec_notConfigured hr rfl, fun hok => ?_⟩
    have runs := exec_runs (i := .rpWrbuf target fillsel fill) hr (fun hst => ⟨fun _ => hok hst, rfl⟩) rfl
    refine ⟨fun hresp => ?_, fun n rest hn hq => writeBuf_pointer_timeout hw rfl runs hn hq,
      fun n j rest hn hj hq => writeBuf_stream_timeout hw rfl runs hn hj hq⟩
    obtain ⟨t, he, hend, hran, hfb, hps, hconf, hcs, hrst, hdev⟩ := writeBuf_completes hw rfl runs hresp
    refine ⟨t, he, hend, hran, hfb, hps, hconf, hcs, hrst, ?_, ?_⟩ <;> rintro rfl <;> exact hdev

end Sys2Proof.Machine
end

section
/-! A wait that nothing ends (60_exceptions.md R199): with no bound, busy samples keep a command standing. -/

namespace Sys2Proof.Machine

/-- The statements that a command stands in, by the busy samples already taken: a plain wait, that of `RP_RDREG`, that of a
status read of the ready poll. -/
def Standing (stands : Nat → Op) : Prop :=
  stands = .wait ∨ (∃ r, stands = .readWait r) ∨ ∃ r reads, stands = fun polls => .pollWait r polls reads

/-- Busy samples are counted, and nothing else happens (R121, R199). -/
theorem Standing.doOp {stands : Nat → Op} (h : Standing stands) {polls j : Nat} {s : State}
    (hn : s.cfg.waitBound = none) (hq : s.env.busy = List.replicate j true) :
    Machine.doOp (stands polls) s = .pend (stands (polls + j)) (s.afterBusy (List.replicate j true) []) := by
  have pending := State.waitBusyClear_pending (polls := polls) hn hq
  rcases h with rfl | ⟨r, rfl⟩ | ⟨r, reads, rfl⟩ <;> simp only [Machine.doOp, pending]

theorem Standing.runOps {stands : Nat → Op} (h : Standing stands) {polls j k : Nat} {c : Instr} {old rest : List Op}
    {s : State} (hn : s.cfg.waitBound = none) (hq : s.env.busy = List.replicate j true)
    (hs : s.seq = .running c k old) :
    Machine.runOps (stands polls :: rest) s = { s with
      seq := .running c (k + j) (stands (polls + j) :: rest)
      trace := s.trace ++ List.replicate j (.busy true)
      env := { s.env with busy := [] } } := by
  simp [Machine.runOps, h.doOp hn hq, State.afterBusy, State.grown, hs]

/-- Settles O35: a standing command takes in the queued samples, in its first step as in a later one. -/
theorem hangKeepsWaiting : Obligations.HangKeepsWaiting := by
  constructor
  · rintro s v j ⟨hr, hopen⟩ hn hv hq
    have runs := exec_runs (i := .wsSetcv v) hr (fun hst => ⟨fun _ => hopen hst, decide_eq_true (hv hst)⟩) rfl
    have plain : Standing .wait := .inl rfl
    have sent : ((s.accepted (.wsSetcv v)).sendFrame (s.cfg.regCommonVoltage :: encodeCV v.toInt)).2.seq =
        .running (.wsSetcv v) 5 (bodyOf s.cfg (.wsSetcv v)) := by
      simp [encodeCV]
    rw [bodyOf, setCV, writeReg, runOps_frame, plain.runOps (j := j) (by simpa using hn) (by simpa using hq) sent,
      Nat.zero_add] at runs
    exact ⟨_, runs, rfl, State.sendFrame_result _ _, State.sendFrame_returned _ _⟩
  · intro s c k polls j rest stands hstands hw hn hs hq
    have standing : Standing stands := hstands
    have queued : s.env.busy ≠ [] := by simp [hq]
    rw [step_running hw (by simp [hs]), resume_of_running hs, if_neg queued, standing.runOps hn hq hs]

end Sys2Proof.Machine
end

section
/-! Bodies that run along the queued answers (60_exceptions.md R206) up to a wait or a status read where the environment
stops answering as it should: the queues they leave there, and the `DeviceTimeout` the command then ends in (R191, R196). -/

namespace Sys2Proof.Machine

/-! ## The busy samples that a number of waits take -/

/-- The next `n` waits clear in time along the queue, and leave `r` of it: `busyClears` with the rest of the queue. -/
def ClearsTo (bound : Option Nat) : Nat → List Bool → List Bool → Prop
  | 0, q, r => q = r
  | n + 1, q, r => ∃ (j : Nat) (rest : List Bool), q = List.replicate j true ++ false :: rest ∧
      (∀ b, bound = some b → j < b) ∧ ClearsTo bound n rest r

section clearsTo
variable {bound : Option Nat} {m n : Nat} {q r : List Bool}

theorem busyClears_iff : busyClears bound n q ↔ ∃ r, ClearsTo bound n q r := by
  induction n generalizing q with
  | zero => simp [busyClears, ClearsTo]
  | succ n ih =>
    simp only [busyClears, ClearsTo, ih]
    constructor
    · rintro ⟨j, rest, hq, hj, r, hr⟩
      exact ⟨r, j, rest, hq, hj, hr⟩
    · rintro ⟨r, j, rest, hq, hj, hr⟩
      exact ⟨j, rest, hq, hj, r, hr⟩

theorem ClearsTo.split (h : ClearsTo bound (m + n) q r) : ∃ p, ClearsTo bound m q p ∧ ClearsTo bound n p r := by
  induction m generalizing q with
  | zero => exact ⟨q, rfl, by rwa [Nat.zero_add] at h⟩
  | succ m ih =>
    rw [Nat.succ_add] at h
    obtain ⟨j, rest, hq, hj, h⟩ := h
    obtain ⟨p, hm, hn⟩ := ih h
    exact ⟨p, ⟨j, rest, hq, hj, hm⟩, hn⟩

theorem busyClears_split (h : busyClears bound (m + n) q) : ∃ p, ClearsTo bound m q p ∧ busyClears bound n p := by
  obtain ⟨r, hr⟩ := busyClears_iff.1 h
  obtain ⟨p, hm, hn⟩ := hr.split
  exact ⟨p, hm, busyClears_iff.2 ⟨r, hn⟩⟩

theorem clearsTo_flatMap {js : List Nat} (h : ∀ j ∈ js, ∀ b, bound = some b → j < b) :
    ClearsTo bound js.length (js.flatMap (fun j => List.replicate j true ++ [false]) ++ r) r := by
  induction js with
  | nil => rfl
  | cons j js ih =>
    obtain ⟨hj, hjs⟩ := List.forall_mem_cons.1 h
    exact ⟨j, _, by simp, hj, ih hjs⟩

end clearsTo

/-! ## Where statements have come to -/

/-- A statement brought `s` to `t` with the coarse events `es`, responses left out. -/
def OpRan (s : State) (op : Op) (es : List Coarse) (t : State) : Prop :=
  ∃ new cs, Leaves s op new cs t.env t ∧ Emits new cs ∧ cs.map Coarse.blank = es

/-- Statements brought `s` to `t` with the coarse events `es`, responses left out. -/
def OpsRan (s : State) (ops : List Op) (es : List Coarse) (t : State) : Prop :=
  ∃ new cs, LeavesAll s ops new cs t.env t ∧ Emits new cs ∧ cs.map Coarse.blank = es

section ran
variable {s t u : State} {op : Op} {ops : List Op} {es es' : List Coarse}

theorem Leaves.opRan {new : List Event} {cs : List Coarse} {e : Env} (h : Leaves s op new cs e t) (hem : Emits new cs)
    (hes : cs.map Coarse.blank = es) : OpRan s op es t := by
  obtain rfl : t.env = e := by rw [h]
  exact ⟨new, cs, h, hem, hes⟩

theorem OpsRan.cfg (h : OpsRan s ops es t) : t.cfg = s.cfg := by
  obtain ⟨new, cs, hl, -⟩ := h
  rw [hl]
  rfl

theorem OpsRan.fb (h : OpsRan s ops es t) : t.fb = opsFb s.cfg s.fb ops := by
  obtain ⟨new, cs, hl, -⟩ := h
  rw [hl]

theorem OpsRan.nil (s : State) : OpsRan s [] [] s :=
  ⟨[], [], by simp [LeavesAll, State.grown, opsFb, opsPs, opsConfigured, opsCs, opsRst], Emits.nil, rfl⟩

theorem OpsRan.snoc (h : OpsRan s ops es t) (hop : OpRan t op es' u) : OpsRan s (ops ++ [op]) (es ++ es') u := by
  obtain ⟨new, cs, hl, hem, rfl⟩ := h
  obtain ⟨new', cs', hl', hem', rfl⟩ := hop
  refine ⟨new ++ new', cs ++ cs', ?_, hem.append hem', List.map_append⟩
  rw [LeavesAll, hl', hl]
  simp [State.grown, opsFb, opsPs, opsConfigured, opsCs, opsRst]

/-- Busy samples of a wait that has not cleared come after. -/
theorem OpsRan.busy (h : OpsRan s ops es t) (n : Nat) (rest : List Bool) :
    OpsRan s ops es (t.afterBusy (List.replicate n true) rest) := by
  obtain ⟨new, cs, hl, hem, rfl⟩ := h
  refine ⟨new ++ (List.replicate n true).map Event.busy, cs ++ [], ?_, hem.append (Emits.busy n), by simp⟩
  rw [LeavesAll, State.afterBusy, hl]
  simp [State.grown]

theorem opRan_setPower (p : PowerState) (s : State) : OpRan s (.setPower p) [] { s with ps := p } :=
  ⟨[], [], by simp [Leaves, State.grown, opFb, opPs, opConfigured, opCs, opRst], Emits.nil, rfl⟩

/-- Two stretches of the ready poll. -/
theorem OpRan.trans_poll {m m' : Nat} (h : OpRan s (.pollReady m) es t) (h' : OpRan t (.pollReady m') es' u) :
    OpRan s (.pollReady m) (es ++ es') u := by
  obtain ⟨new, cs, hl, hem, rfl⟩ := h
  obtain ⟨new', cs', hl', hem', rfl⟩ := h'
  exact ⟨new ++ new', cs ++ cs', hl.trans_poll hl', hem.append hem', List.map_append⟩

end ran

theorem runOps_cons_done {op : Op} {s t : State} (h : doOp op s = .done t) (rest : List Op) :
    runOps (op :: rest) s = runOps rest t := by
  rw [runOps, h]

theorem runOps_cons_finish {op : Op} {s t : State} {r : Result} (h : doOp op s = .finish r t) (rest : List Op) :
    runOps (op :: rest) s = t.complete r := by
  rw [runOps, h]

/-! ## Statements without a ready poll -/

/-- A fresh statement other than the ready poll adds no status read. -/
theorem readsReady_opTrace {c : Config} {fb : Memory} {op : Op} (hf : fresh op = true) (hp : ∀ n, op ≠ .pollReady n)
    (q : List Byte) : readsReady c [] (opTrace c fb op ++ []) q := by
  cases op with
  | frame bytes =>
    obtain ⟨rest, e, -⟩ | ⟨a, rest, e, -⟩ := frameCoarse_plain hf <;> simp [opTrace, e, readsReady]
  | stream => simp [opTrace, frameCoarse_stream, readsReady]
  | pollReady n => exact absurd rfl (hp n)
  | _ => simp [opTrace, readsReady]

/-- A fresh statement other than the ready poll uses up the answers its coarse events say. -/
theorem doOp_clears {op : Op} {s : State} {r : List Bool} (hf : fresh op = true) (hp : ∀ n, op ≠ .pollReady n)
    (hq : ClearsTo s.cfg.waitBound ((opTrace s.cfg s.fb op).count .waitBusy) s.env.busy r) :
    ∃ t, doOp op s = .done t ∧ OpRan s op (opTrace s.cfg s.fb op) t ∧ t.env.busy = r ∧
      t.env.xfer = s.env.xfer.drop (sentBytes (opTrace s.cfg s.fb op)) := by
  have willing : Willing s.cfg s.env [] (opTrace s.cfg s.fb op ++ []) :=
    ⟨by rw [withUnready_nil, List.append_nil]; exact busyClears_iff.2 ⟨r, hq⟩, readsReady_opTrace hf hp _, by simp⟩
  obtain ⟨new, cs, e, t, us', hd, hl, hem, hc, -⟩ := doOp_willing hf willing
  have hes : cs.map Coarse.blank = opTrace s.cfg s.fb op := by simpa [withUnready, withUnready_nil] using (hc []).symm
  refine ⟨t, hd, hl.opRan hem hes, ?_⟩
  cases op with
  | frame bytes =>
    cases hd
    obtain ⟨rest, e, hlen⟩ | ⟨a, rest, e, hlen⟩ := frameCoarse_plain hf <;>
      simp_all [opTrace, ClearsTo, sentBytes]
  | stream => cases hd; simp_all [opTrace, ClearsTo, sentBytes, frameCoarse_stream]
  | wait polls =>
    obtain rfl : polls = 0 := by simpa [fresh] using hf
    obtain ⟨j, rest, hbusy, hj, rfl⟩ := hq
    rw [doOp, State.waitBusyClear_clear hbusy (underBound_of_lt (by simpa using hj))] at hd
    cases hd
    exact ⟨rfl, rfl⟩
  | pollReady n => exact absurd rfl (hp n)
  | readResult _ _ => cases hf
  | readWait _ _ => cases hf
  | pollWait _ _ _ => cases hf
  | _ => cases hd; exact ⟨hq, rfl⟩

/-- Fresh statements without a ready poll, whose waits clear, are done, and the rest of the body follows. -/
theorem runOps_append_clears {ops : List Op} {s : State} {r : List Bool} (hf : ∀ op ∈ ops, fresh op = true)
    (hp : ∀ n, .pollReady n ∉ ops)
    (hq : ClearsTo s.cfg.waitBound ((opsTrace s.cfg s.fb ops).count .waitBusy) s.env.busy r) (rest : List Op) :
    ∃ t, runOps (ops ++ rest) s = runOps rest t ∧ OpsRan s ops (opsTrace s.cfg s.fb ops) t ∧ t.env.busy = r ∧
      t.env.xfer = s.env.xfer.drop (sentBytes (opsTrace s.cfg s.fb ops)) := by
  induction ops using List.reverseRecOn generalizing r rest with
  | nil => exact ⟨s, rfl, .nil s, hq, rfl⟩
  | append_singleton ops op ih =>
    have trace : opsTrace s.cfg s.fb (ops ++ [op]) =
        opsTrace s.cfg s.fb ops ++ opTrace s.cfg (opsFb s.cfg s.fb ops) op := by
      simp [opsTrace_append, opsTrace]
    rw [trace, List.count_append] at hq
    obtain ⟨p, hops, hop⟩ := hq.split
    obtain ⟨t, hrun, ht, hbusy, hxfer⟩ := ih (fun o ho => hf o (by simp [ho])) (fun n hn => hp n (by simp [hn])) hops
      (op :: rest)
    rw [← ht.fb, ← ht.cfg, ← hbusy] at hop
    obtain ⟨u, hd, hu, hbusy', hxfer'⟩ := doOp_clears (hf op (by simp)) (fun n e => hp n (by simp [e])) hop
    rw [ht.cfg, ht.fb] at hu hxfer'
    refine ⟨u, ?_, trace ▸ ht.snoc hu, hbusy', ?_⟩
    · rw [List.append_assoc, List.singleton_append, hrun, runOps_cons_done hd]
    · rw [hxfer', hxfer, List.drop_drop, trace, sentBytes_append]

/-- The first wait that reaches the bound ends the body (R121, R191). -/
theorem runOps_wait_times_out {pre post : List Op} {s : State} {n : Nat} {rest : List Bool}
    (hf : ∀ op ∈ pre, fresh op = true) (hp : ∀ n, .pollReady n ∉ pre) (hw : wellFormedConfig s.cfg = true)
    (hn : s.cfg.waitBound = some n)
    (hq : ClearsTo s.cfg.waitBound ((opsTrace s.cfg s.fb pre).count .waitBusy) s.env.busy
      (List.replicate n true ++ rest)) :
    ∃ t, runOps (pre ++ .wait 0 :: post) s = t.complete .deviceTimeout ∧
      OpsRan s pre (opsTrace s.cfg s.fb pre) t := by
  obtain ⟨t, hrun, ht, hbusy, -⟩ := runOps_append_clears hf hp hq (.wait 0 :: post)
  rw [runOps_wait_timeout (by rwa [ht.cfg]) (wf_bound hw n hn) hbusy] at hrun
  exact ⟨_, hrun, ht.busy n rest⟩

/-! ## The ready poll -/

/-- R34. -/
theorem pumpReady_eq_false {c : Config} {r : Byte} : pumpReady c r = false ↔ r &&& c.cpReadyMask = 0#8 := by
  simp [pumpReady]

theorem pumpReady_eq_true {c : Config} {r : Byte} : pumpReady c r = true ↔ r &&& c.cpReadyMask ≠ 0#8 := by
  simp [pumpReady]

/-- The response of the `k`-th status read is the second of its two answers (R77). -/
theorem getElem?_responses {reads : List (Byte × Byte)} {p : Byte × Byte} {k : Nat} (h : reads[k]? = some p)
    (more : List Byte) : (reads.flatMap (fun p => [p.1, p.2]) ++ more)[2 * k + 1]? = some p.2 := by
  induction reads generalizing k with
  | nil => cases h
  | cons x reads ih =>
    cases k with
    | zero =>
      obtain rfl : x = p := by simpa using h
      simp
    | succ k => simpa [Nat.mul_succ] using ih (by simpa using h)

/-- The coarse events of one status read (R141). -/
def statusT (c : Config) : List Coarse := [.rd (c.regStatus.setWidth 7) none, .waitBusy]

/-- The ready poll that finds the pump ready after `u` reads that are not (R141). -/
theorem pollPump_ready {u : Nat} {s : State} (hb : busyClears s.cfg.waitBound (u + 1) s.env.busy)
    (hu : ∀ k, k < u → ∃ r, s.env.xfer[2 * k + 1]? = some r ∧ pumpReady s.cfg r = false)
    (hr : ∃ r, s.env.xfer[2 * u + 1]? = some r ∧ pumpReady s.cfg r = true)
    (hbound : ∀ b, s.cfg.waitBound = some b → u < b) :
    ∃ t, doOp (.pollReady 0) s = .done t ∧ OpRan s (.pollReady 0) (timesT (u + 1) (statusT s.cfg)) t := by
  have fuel : u < s.env.busy.length + 1 := by have := busyClears_length hb; omega
  obtain ⟨new, cs, e, t, hd, hl, hem, hc, -⟩ := pollFrom_ready (m := 0) (n := 0) fuel hb hu hr (by simpa using hbound)
  refine ⟨t, hd, hl.opRan hem (hc.trans ?_)⟩
  simp [timesT, statusT, List.replicate_succ']

/-- One status read that is not ready: the poll reads again, or the bound is reached (R141, R191). -/
theorem pollFrom_unready_turn {n m fuel : Nat} {r : Byte} {s : State}
    (hb : busyClears s.cfg.waitBound (n + 1) s.env.busy) (hr : s.env.xfer[1]? = some r)
    (hready : pumpReady s.cfg r = false) :
    ∃ t, pollFrom (fuel + 1) m s = (if boundReached s.cfg.waitBound (m + 1) then .finish .deviceTimeout t
        else pollFrom fuel (m + 1) t) ∧
      OpRan s (.pollReady m) (statusT s.cfg) t ∧ t.cfg = s.cfg ∧ busyClears s.cfg.waitBound n t.env.busy ∧
      t.env.xfer = s.env.xfer.drop 2 := by
  obtain ⟨hresp, new, cs, e, t, hw, hl, hem, hc, hk, hx⟩ := poll_turn (m := m) hb hr
  have hcfg : t.cfg = s.cfg := by rw [hl]; rfl
  have henv : t.env = e := by rw [hl]
  refine ⟨t, ?_, hl.opRan hem hc, hcfg, henv ▸ hk, henv ▸ hx⟩
  simp only [pollFrom, hw, hresp, hcfg, hready, Bool.false_eq_true, if_false]

/-- The ready poll ends the command with the read that makes the unready ones as many as the bound (R141, R191). -/
theorem pollFrom_unready {u m fuel : Nat} {s : State} (hfuel : u < fuel) (hn : s.cfg.waitBound = some (m + (u + 1)))
    (hb : busyClears s.cfg.waitBound (u + 1) s.env.busy)
    (hu : ∀ k, k < u + 1 → ∃ r, s.env.xfer[2 * k + 1]? = some r ∧ pumpReady s.cfg r = false) :
    ∃ t, pollFrom fuel m s = .finish .deviceTimeout t ∧
      OpRan s (.pollReady m) (timesT (u + 1) (statusT s.cfg)) t := by
  obtain ⟨fuel, rfl⟩ : ∃ f, fuel = f + 1 := ⟨fuel - 1, by omega⟩
  obtain ⟨r, hr, hready⟩ := hu 0 (by omega)
  induction u generalizing s m fuel r with
  | zero =>
    obtain ⟨t, hpoll, ht, -⟩ := pollFrom_unready_turn (m := m) (fuel := fuel) hb hr hready
    rw [if_pos (by simp [hn, boundReached])] at hpoll
    exact ⟨t, hpoll, by simpa [timesT] using ht⟩
  | succ u ih =>
    obtain ⟨t, hpoll, ht, hcfg, hbusy, hxfer⟩ := pollFrom_unready_turn (m := m) (fuel := fuel) hb hr hready
    rw [if_neg (by simp [hn, boundReached])] at hpoll
    obtain ⟨fuel, rfl⟩ : ∃ f, fuel = f + 1 := ⟨fuel - 1, by omega⟩
    have shift : ∀ k, k < u + 1 → ∃ r, t.env.xfer[2 * k + 1]? = some r ∧ pumpReady t.cfg r = false := by
      intro k hk
      rw [hxfer, List.getElem?_drop, hcfg, show 2 + (2 * k + 1) = 2 * (k + 1) + 1 by omega]
      exact hu (k + 1) (by omega)
    obtain ⟨r, hr, hready⟩ := shift 0 (by omega)
    obtain ⟨v, hpoll', hv⟩ := ih (s := t) (m := m + 1) (by rw [hcfg, hn]; congr 1; omega) (by rwa [hcfg]) shift fuel
      (by omega) r hr hready
    exact ⟨v, hpoll.trans hpoll', by simpa [timesT_succ, hcfg] using ht.trans_poll hv⟩

/-- The same from the first status read. -/
theorem pollPump_unready {n : Nat} {s : State} (hw : wellFormedConfig s.cfg = true) (hn : s.cfg.waitBound = some n)
    (hb : busyClears s.cfg.waitBound n s.env.busy)
    (hu : ∀ k, k < n → ∃ r, s.env.xfer[2 * k + 1]? = some r ∧ pumpReady s.cfg r = false) :
    ∃ t, doOp (.pollReady 0) s = .finish .deviceTimeout t ∧
      OpRan s (.pollReady 0) (timesT n (statusT s.cfg)) t := by
  obtain ⟨u, rfl⟩ : ∃ u, n = u + 1 := ⟨n - 1, by have := wf_bound hw n hn; omega⟩
  have fuel : u < s.env.busy.length + 1 := by have := busyClears_length hb; omega
  exact pollFrom_unready fuel (by rw [hn, Nat.zero_add]) hb hu

end Sys2Proof.Machine
end

section
/-! `PS_ON` and `PS_OFF` (42_power_sequencer.md R141, R143): what each answers when it completes, and at each of the places
where it can time out. -/

namespace Sys2Proof.Machine

/-- An open block runs the body of a command whose arguments pass R192 (R71). -/
theorem Open.runs {i : Instr} {s : State} (ho : Open s) (ha : argOk i = true) (hlax : laxRefusal i = none) :
    exec i s = .next (runOps (bodyOf s.cfg i) (s.accepted i)) :=
  exec_runs ho.1 (fun hst => ⟨fun _ => ho.2 hst, ha⟩) hlax

/-! ## What the power commands leave -/

@[simp] theorem State.accepted_fb (i : Instr) (s : State) : (s.accepted i).fb = s.fb := rfl

/-- The shadow does not see these coarse events (R207). -/
def Unseen (c : Config) (es : List Coarse) : Prop := ∀ e ∈ es, ∀ d, Device.see c d e = d

theorem Unseen.foldl {c : Config} {es : List Coarse} (h : Unseen c es) (d : Device) : es.foldl (Device.see c) d = d := by
  induction es with
  | nil => rfl
  | cons e es ih =>
    obtain ⟨he, hes⟩ := List.forall_mem_cons.1 h
    rw [List.foldl_cons, he, ih hes]

/-- Of what the block holds beside the bus, statements write `PS` alone, and it comes to `p`; `CS` is high after them. -/
structure WritePower (ops : List Op) (p : PowerState) : Prop where
  fb : ∀ c fb, opsFb c fb ops = fb
  ps : ∀ q, opsPs q ops = p
  configured : ∀ b, opsConfigured b ops = b
  cs : ∀ l, opsCs l ops = .high
  rst : ∀ l, opsRst l ops = l

/-- The command ends with result `r` and `PS` at `p`, having sent `es`; nothing else the block holds is changed. -/
def EndsWith (i : Instr) (s : State) (r : Result) (es : List Coarse) (p : PowerState) : Prop :=
  ∃ t, exec i s = .next t ∧ Ended s t r ∧ Ran s t es ∧
    t.ps = p ∧ t.fb = s.fb ∧ t.configured = s.configured ∧ t.cs = .high ∧ t.rst = s.rst ∧ t.dev = s.dev

theorem OpsRan.endsWith {i : Instr} {s t : State} {ops : List Op} {es : List Coarse} {r : Result} {p : PowerState}
    (h : OpsRan (s.accepted i) ops es t) (he : exec i s = .next (t.complete r)) (hp : WritePower ops p)
    (hes : Unseen s.cfg es) : EndsWith i s r es p := by
  obtain ⟨new, cs, hl, hem, hc⟩ := h
  have shadow : cs.foldl (Device.see s.cfg) s.dev = s.dev := by rw [← foldl_see_blank, hc, hes.foldl]
  rw [hl] at he
  exact ⟨_, he, ⟨rfl, rfl, rfl, rfl, rfl, rfl⟩, ⟨new, rfl, hem.coarse_eq.symm ▸ hc⟩, hp.ps _, hp.fb _ _, hp.configured _,
    hp.cs _, hp.rst _, shadow⟩

/-! ## The registers of the power sequence -/

/-- The registers `PowerOn` and `PowerOff` write. -/
def powerRegs (c : Config) : List Byte := [c.regResolution, c.regTiming, c.regPowerSequence, c.regPowerControl]

section regs
variable {c : Config} (h : wellFormedConfig c = true)
include h

/-- D8, R207: none of them is one that the shadow keeps. -/
theorem powerRegs_unseen {a : Byte} (ha : a ∈ powerRegs c) (ops : List Byte) : Unseen c (wrT a ops) := by
  have hr := wf_registers h
  simp only [registersOk, Bool.and_eq_true, decide_eq_true_eq] at hr
  obtain ⟨⟨⟨-, hdistinct⟩, -⟩, -⟩ := hr
  have hw : a ∈ writtenRegs c := (by simp [powerRegs, writtenRegs] : powerRegs c ⊆ writtenRegs c) ha
  have hkept : ∀ b ∈ [c.regSoftwareReset, c.regWritePointer, c.regCommonVoltage, c.regDriverVoltage,
      c.regProgrammedWaveform, c.regEngineTrigger], a ≠ b := by
    simp only [distinctRegs, List.nodup_cons, List.mem_cons, not_or] at hdistinct
    simp only [powerRegs, List.mem_cons, List.not_mem_nil, or_false] at ha
    simp only [List.forall_mem_cons]
    grind
  simp only [List.forall_mem_cons] at hkept
  simp [Unseen, wrT, Device.see, Device.write, setWidth8_setWidth7 (wf_written h hw).1, hkept]

end regs

/-! ## `PowerOff` -/

theorem pollReady_not_mem_powerOff (c : Config) (n : Nat) : .pollReady n ∉ powerOff c := by simp [powerOff, writeReg]

section waits
variable {c : Config} (h : wellFormedConfig c = true)
include h

theorem unseen_offT : Unseen c (offT c) := by
  have writes := fun ops => powerRegs_unseen h (a := c.regPowerControl) (by simp [powerRegs]) ops
  have wait : Unseen c [.waitBusy] := by simp [Unseen, Device.see]
  simp only [offT, Unseen, List.forall_mem_append]
  exact ⟨⟨⟨writes _, wait⟩, writes _⟩, wait⟩

/-- R143: the four waits of `PowerOff`, each with what comes before it. -/
theorem powerOff_wait (fb : Memory) {k : Nat} (hk : k < 4) :
    ∃ pre post, powerOff c = pre ++ .wait 0 :: post ∧ WritePower pre .poweringDown ∧
      opsTrace c fb pre = (offT c).take (if k < 2 then k + 1 else k + 2) ∧ (opsTrace c fb pre).count .waitBusy = k := by
  obtain ⟨h7, h10⟩ := wf_written h (a := c.regPowerControl) (by simp [writtenRegs])
  refine ⟨(powerOff c).take (if k < 2 then k + 2 else k + 3), (powerOff c).drop (if k < 2 then k + 3 else k + 4),
    ?split, ?power, ?trace, ?count⟩
  case split => interval_cases k <;> rfl
  case power => interval_cases k <;> constructor <;> intros <;> rfl
  case trace =>
    interval_cases k <;> simp [powerOff, writeReg, opsTrace, opTrace, frameCoarse_write h7 h10, offT, wrT]
  case count => interval_cases k <;> simp [powerOff, writeReg, opsTrace, opTrace, frameCoarse_write h7 h10]

end waits

theorem powerOff_completes {s : State} (ho : Open s) (hresp : Responsive s (offT s.cfg)) :
    EndsWith .psOff s .ok (offT s.cfg) .down := by
  have hw : wellFormedConfig s.cfg = true := ho.1.1
  have runs := ho.runs (i := .psOff) rfl rfl
  have trace : opsTrace s.cfg s.fb (powerOff s.cfg) = offT s.cfg := trace_powerOff hw s.fb
  obtain ⟨q, hq⟩ := busyClears_iff.1 hresp
  obtain ⟨t, hrun, ht, -⟩ := runOps_append_clears (s := s.accepted .psOff) (ops := powerOff s.cfg) (fresh_powerOff hw)
    (pollReady_not_mem_powerOff s.cfg) (by rw [State.accepted_cfg, State.accepted_fb, trace]; exact hq) []
  rw [List.append_nil] at hrun
  rw [bodyOf, hrun] at runs
  exact (trace ▸ ht).endsWith runs (by constructor <;> intros <;> rfl) (unseen_offT hw)

theorem powerOff_times_out {s : State} (ho : Open s) {n : Nat} {js : List Nat} {rest : List Bool}
    (hn : s.cfg.waitBound = some n) (hk : js.length < 4) (hj : ∀ j ∈ js, j < n)
    (hq : s.env.busy = js.flatMap (fun j => List.replicate j true ++ [false]) ++ (List.replicate n true ++ rest)) :
    EndsWith .psOff s .deviceTimeout ((offT s.cfg).take (if js.length < 2 then js.length + 1 else js.length + 2))
      .poweringDown := by
  have hw : wellFormedConfig s.cfg = true := ho.1.1
  have runs := ho.runs (i := .psOff) rfl rfl
  obtain ⟨pre, post, hsplit, hpower, htrace, hcount⟩ := powerOff_wait hw s.fb hk
  have clears : ClearsTo s.cfg.waitBound js.length s.env.busy (List.replicate n true ++ rest) := by
    rw [hq]
    exact clearsTo_flatMap fun j hjs b hb => by rw [← Option.some.inj (hn.symm.trans hb)]; exact hj j hjs
  have mem : ∀ op ∈ pre, op ∈ powerOff s.cfg := fun op ho => by simp [hsplit, ho]
  obtain ⟨t, hrun, ht⟩ := runOps_wait_times_out (s := s.accepted .psOff) (pre := pre) (post := post)
    (fun op ho => fresh_powerOff hw op (mem op ho)) (fun m hm => pollReady_not_mem_powerOff s.cfg m (mem _ hm)) hw hn
    (hcount.symm ▸ clears)
  rw [bodyOf, hsplit, hrun] at runs
  exact (htrace ▸ ht).endsWith runs hpower fun e he => unseen_offT hw e (List.mem_of_mem_take he)

/-- Settles O40: its waits clear, or the first that does not stops it. -/
theorem powerOffCommand : Obligations.PowerOffCommand :=
  ⟨fun _ hr => ⟨exec_notConfigured hr rfl, fun hopen => ⟨powerOff_completes ⟨hr, hopen⟩,
    fun _ _ _ hn hk hj hq => powerOff_times_out ⟨hr, hopen⟩ hn hk hj hq⟩⟩, fun _ hop => decode_of_hasFields hop⟩

/-! ## `PowerOn` -/

/-- `PowerOn` up to its ready poll (R141). -/
def powerOnWrites (c : Config) : List Op :=
  [.setPower .poweringUp, .wait 0]
    ++ writeReg c.regResolution c.opsResolution
    ++ writeReg c.regTiming c.opsTiming
    ++ writeReg c.regPowerSequence c.opsPowerSequence
    ++ writeReg c.regPowerControl c.opsRailsUp

theorem powerOn_eq (c : Config) : powerOn c = powerOnWrites c ++ [.pollReady 0, .setPower .up] := rfl

/-- Its coarse events. -/
def onWritesT (c : Config) : List Coarse :=
  [.waitBusy] ++ wrT c.regResolution c.opsResolution ++ wrT c.regTiming c.opsTiming
    ++ wrT c.regPowerSequence c.opsPowerSequence ++ wrT c.regPowerControl c.opsRailsUp

section writes
variable {c : Config} (h : wellFormedConfig c = true)
include h

theorem trace_powerOnWrites (fb : Memory) : opsTrace c fb (powerOnWrites c) = onWritesT c := by
  have htrace := trace_powerOn h fb
  rw [powerOn_eq, opsTrace_append] at htrace
  exact List.append_inj_left' htrace rfl

theorem fresh_powerOnWrites : ∀ op ∈ powerOnWrites c, fresh op = true := fun op hop =>
  fresh_powerOn h op (by simp [powerOn_eq, hop])

theorem unseen_powerOn (n : Nat) : Unseen c (onWritesT c ++ timesT n (statusT c)) := by
  have writes := fun {a} ha ops => powerRegs_unseen h (a := a) ha ops
  have wait : Unseen c [.waitBusy] := by simp [Unseen, Device.see]
  have reads : Unseen c (timesT n (statusT c)) := by
    intro e he d
    obtain ⟨-, rfl | rfl⟩ : n ≠ 0 ∧ (e = .rd (c.regStatus.setWidth 7) none ∨ e = .waitBusy) := by
      simpa [timesT, statusT] using he
    all_goals rfl
  simp only [onWritesT, Unseen, List.forall_mem_append]
  exact ⟨⟨⟨⟨⟨wait, writes (by simp [powerRegs]) _⟩, writes (by simp [powerRegs]) _⟩, writes (by simp [powerRegs]) _⟩,
    writes (by simp [powerRegs]) _⟩, reads⟩

end writes

/-- R141 (a), (b): when five waits clear `PS_ON` comes to its ready poll, with the status answers next in the queue. -/
theorem powerOn_polls {s : State} (ho : Open s) {m : Nat} {pre more : List Byte} {reads : List (Byte × Byte)}
    (hx : s.env.xfer = pre ++ (reads.flatMap (fun p => [p.1, p.2]) ++ more))
    (hl : pre.length = s.cfg.opsResolution.length + s.cfg.opsTiming.length + s.cfg.opsPowerSequence.length
      + s.cfg.opsRailsUp.length + 4) (hb : busyClears s.cfg.waitBound (5 + m) s.env.busy) :
    ∃ t, exec .psOn s = .next (runOps [.pollReady 0, .setPower .up] t) ∧
      OpsRan (s.accepted .psOn) (powerOnWrites s.cfg) (onWritesT s.cfg) t ∧ t.cfg = s.cfg ∧
      busyClears s.cfg.waitBound m t.env.busy ∧
      ∀ k p, reads[k]? = some p → t.env.xfer[2 * k + 1]? = some p.2 := by
  have hw : wellFormedConfig s.cfg = true := ho.1.1
  have runs := ho.runs (i := .psOn) rfl rfl
  have trace : opsTrace s.cfg s.fb (powerOnWrites s.cfg) = onWritesT s.cfg := trace_powerOnWrites hw s.fb
  have waits : (onWritesT s.cfg).count .waitBusy = 5 := by simp [onWritesT, wrT]
  have sent : sentBytes (onWritesT s.cfg) = pre.length := by
    simp only [onWritesT, wrT, sentBytes_append, sentBytes]
    omega
  obtain ⟨q, hq, hrest⟩ := busyClears_split hb
  obtain ⟨t, hrun, ht, hbusy, hxfer⟩ := runOps_append_clears (s := s.accepted .psOn) (ops := powerOnWrites s.cfg)
    (fresh_powerOnWrites hw) (by simp [powerOnWrites, writeReg])
    (by rw [State.accepted_cfg, State.accepted_fb, trace, waits]; exact hq) [.pollReady 0, .setPower .up]
  rw [bodyOf, powerOn_eq, hrun] at runs
  rw [State.accepted_cfg, State.accepted_fb, trace] at ht hxfer
  refine ⟨t, runs, ht, ht.cfg, hbusy ▸ hrest, fun k p hp => ?_⟩
  rw [hxfer, State.accepted_env, hx, sent, List.drop_left]
  exact getElem?_responses hp more

/-- Settles O37: five waits clear, then the ready poll ends, and `PS` is written. -/
theorem powerOnCompletes : Obligations.PowerOnCompletes := by
  intro s pre more unready last ho hx hl hunready hlast hbound hb
  have hw : wellFormedConfig s.cfg = true := ho.1.1
  obtain ⟨t, he, ht, hcfg, hbusy, hreads⟩ := powerOn_polls (m := unready.length + 1) ho hx hl
    (by rwa [show 5 + (unready.length + 1) = 6 + unready.length by omega])
  rw [← hcfg] at hunready hlast hbound hbusy
  obtain ⟨u, hd, hu⟩ := pollPump_ready (u := unready.length) hbusy
    (fun k hk => ⟨_, hreads k unready[k] (by rw [List.getElem?_append_left hk, List.getElem?_eq_getElem hk]),
      pumpReady_eq_false.2 (hunready _ (List.getElem_mem hk))⟩)
    ⟨_, hreads _ last (by simp), pumpReady_eq_true.2 hlast⟩ hbound
  have done : runOps [.setPower .up] u = State.complete .ok { u with ps := .up } := rfl
  rw [runOps_cons_done hd, done] at he
  rw [hcfg] at hu
  have ran := (ht.snoc hu).snoc (opRan_setPower .up u)
  rw [List.append_nil] at ran
  exact ran.endsWith he (by constructor <;> intros <;> rfl) (unseen_powerOn hw _)

/-- R141, R191: the first wait of `PS_ON` times out. -/
theorem powerOn_first_wait_times_out {s : State} (ho : Open s) {n : Nat} {rest : List Bool}
    (hn : s.cfg.waitBound = some n) (hq : s.env.busy = List.replicate n true ++ rest) :
    exec .psOn s = .next (State.reported .deviceTimeout { s with
      ps := .poweringUp
      trace := s.trace ++ List.replicate n (.busy true)
      env := { s.env with busy := rest } }) := by
  have runs := ho.runs (i := .psOn) rfl rfl
  obtain ⟨⟨hw, hidle⟩, -⟩ := ho
  have first : runOps (bodyOf s.cfg .psOn) (s.accepted .psOn) = runOps (.wait 0 :: (powerOn s.cfg).drop 2)
      { s.accepted .psOn with ps := .poweringUp } := rfl
  have timeout := runOps_wait_timeout (s := { s.accepted .psOn with ps := .poweringUp }) (ops := (powerOn s.cfg).drop 2)
    hn (wf_bound hw n hn) hq
  rw [runs, first, timeout]
  simp [State.complete, State.afterBusy, State.grown, State.reported, State.accepted, hidle]

/-- Settles O38: in the first wait `PS_ON` has sent nothing; at the ready poll it has sent everything but `PS <- up`. -/
theorem powerOnTimesOut : Obligations.PowerOnTimesOut := by
  refine ⟨fun s n rest ho hn hq => powerOn_first_wait_times_out ho hn hq, ?_⟩
  intro s n pre more unready ho hn hlen hx hl hunready hb
  have hw : wellFormedConfig s.cfg = true := ho.1.1
  obtain ⟨t, he, ht, hcfg, hbusy, hreads⟩ := powerOn_polls ho hx hl hb
  subst hlen
  rw [← hcfg] at hunready hbusy
  obtain ⟨u, hd, hu⟩ := pollPump_unready (hcfg.symm ▸ hw) (hcfg.symm ▸ hn) hbusy fun k hk =>
    ⟨_, hreads k unready[k] (by simp [hk]), pumpReady_eq_false.2 (hunready _ (List.getElem_mem hk))⟩
  rw [runOps_cons_finish hd] at he
  rw [hcfg] at hu
  exact (ht.snoc hu).endsWith he (by constructor <;> intros <;> rfl) (unseen_powerOn hw _)

/-! ## A status read that stands -/

/-- `s` after a frame that was answered by `rs`, with `more` still queued, and that the shadow did not see. -/
def State.answered (bytes rs more : List Byte) (s : State) : State :=
  { s.grown (frameEvents bytes rs) with cs := .high, env := { s.env with xfer := more } }

/-- A read frame whose two answers are queued: the second is the response, and the shadow sees nothing (R77, R207). -/
theorem readFrame_queued {s : State} {addr filler a b : Byte} {more : List Byte} (hx : s.env.xfer = a :: b :: more) :
    s.readFrame (addr ||| readFlag) filler = (b, s.answered [addr ||| readFlag, filler] [a, b] more) := by
  have answers : s.env.answers 2 = ([a, b], { s.env with xfer := more }) := answers_queued (rs := [a, b]) hx
  have unseen : Device.see s.cfg s.dev (coarseFrame ([addr ||| readFlag, filler].zip [a, b])) = s.dev := by
    rw [see_coarseFrame (bytes := [addr ||| readFlag, filler]) (rs := [a, b]) rfl, frameCoarse_read]
    rfl
  rw [State.readFrame, State.sendFrame_eq]
  simp only [List.length_cons, List.length_nil, Nat.reduceAdd, answers, unseen]
  rfl

/-- R141 (c): a status read is sent, its response kept, and with no sample queued the command stands in its wait. -/
theorem pollPump_stands {s : State} {a b : Byte} {more : List Byte} (reads : Nat) (hbusy : s.env.busy = [])
    (hx : s.env.xfer = a :: b :: more) :
    s.pollPump reads = .pend (.pollWait b 0 reads)
      (s.answered [s.cfg.regStatus ||| readFlag, s.cfg.filler] [a, b] more) := by
  have stands : ∀ t : State, t.env.busy = [] → t.waitBusyClear 0 = .pending 0 t := fun t ht => by
    rw [State.waitBusyClear, ht, waitFrom]
  simp only [State.pollPump, pollFrom, readFrame_queued hx, stands (s.answered _ _ more) hbusy]

/-- Settles O39: the wait clears, the response kept is not ready, and with no bound the poll reads again. -/
theorem unreadyPumpReadAgain : Obligations.UnreadyPumpReadAgain := by
  intro s c k polls reads r a b more rest hw hn hs hready hbusy hx
  have clear : s.waitBusyClear polls = .clear (s.afterBusy [false] []) :=
    State.waitBusyClear_clear (j := 0) hbusy (underBound_of_lt (by simp [hn]))
  have unbounded : boundReached s.cfg.waitBound (reads + 1) = false := by simp [hn, boundReached]
  have again := pollPump_stands (s := s.afterBusy [false] []) (reads + 1) rfl hx
  have queued : s.env.busy ≠ [] := by simp [hbusy]
  rw [step_running hw (by simp [hs]), resume_of_running hs, if_neg queued]
  simp only [runOps, doOp, clear, State.afterBusy_cfg, pumpReady_eq_false.2 hready, unbounded, again, Bool.false_eq_true,
    if_false]
  simp [State.answered, State.afterBusy, State.grown, hs, frameEvents, readFlag]

end Sys2Proof.Machine
end

section
/-! A command whose body runs to its end along the queued answers (60_exceptions.md R206), and what the shadow makes of
the writes it keeps (R207): the rules that the commands of 43_waveform_sequencer.md share. -/

namespace Sys2Proof.Machine

/-! ## What a command leaves -/

/-- An idle block runs the body of a command that the check of R193 lets pass and whose arguments pass R192 (R71). -/
theorem Ready.runs {i : Instr} {s : State} (hr : Ready s)
    (hg : s.cfg.strict = true → gated i = true → s.configured = true) (ha : argOk i = true) :
    exec i s = .next (runOps (bodyOf s.cfg i) (s.accepted i)) := by
  rw [exec_eq, runCommand_start hr.1 hr.2 (fun hst => ⟨hg hst, ha⟩) fun _ => .inl ha]
  rfl

/-- A command ended at `t` with result `r`: the statements `ops` had brought it there, with the coarse events `es`,
responses left out. -/
structure LeftBy (s : State) (ops : List Op) (es : List Coarse) (r : Result) (t : State) : Prop where
  ended : Ended s t r
  ran : Ran s t es
  fb : t.fb = opsFb s.cfg s.fb ops
  ps : t.ps = opsPs s.ps ops
  configured : t.configured = opsConfigured s.configured ops
  cs : t.cs = opsCs s.cs ops
  rst : t.rst = opsRst s.rst ops
  dev : t.dev = es.foldl (Device.see s.cfg) s.dev

theorem LeftBy.cfg {s t : State} {ops : List Op} {es : List Coarse} {r : Result} (h : LeftBy s ops es r t) :
    t.cfg = s.cfg := by
  obtain ⟨-, -, -, cfg, -⟩ := h.ended
  exact cfg

theorem OpsRan.leftBy {i : Instr} {s t : State} {ops : List Op} {es : List Coarse} (h : OpsRan (s.accepted i) ops es t)
    (r : Result) : LeftBy s ops es r (t.complete r) := by
  obtain ⟨new, cs, hl, hem, rfl⟩ := h
  have shadow : cs.foldl (Device.see s.cfg) s.dev = (cs.map Coarse.blank).foldl (Device.see s.cfg) s.dev :=
    (foldl_see_blank _ _ _).symm
  rw [hl]
  exact ⟨⟨rfl, rfl, rfl, rfl, rfl, rfl⟩, ⟨new, rfl, by rw [hem.coarse_eq]⟩, rfl, rfl, rfl, rfl, rfl, shadow⟩

/-- In an environment that lets it, a body of fresh statements runs to its end: `RESULT <- Ok` (R206). -/
theorem exec_completes {i : Instr} {s : State} {us : List Nat} {es : List Coarse}
    (he : exec i s = .next (runOps (bodyOf s.cfg i) (s.accepted i))) (hf : ∀ op ∈ bodyOf s.cfg i, fresh op = true)
    (htrace : opsTrace s.cfg s.fb (bodyOf s.cfg i) = es) (hresp : ResponsiveAfter s us es) :
    ∃ t, exec i s = .next t ∧ LeftBy s (bodyOf s.cfg i) (withUnready us es) .ok t := by
  have willing : Willing s.cfg s.env us (opsTrace s.cfg s.fb (bodyOf s.cfg i) ++ []) := by
    rw [List.append_nil, htrace]
    exact hresp
  obtain ⟨new, cs, e, t, us', hrun, hl, hem, hes, -⟩ :=
    runOps_append_willing (s := s.accepted i) (rest := []) hf willing
  have blank : cs.map Coarse.blank = withUnready us es := by
    simpa [withUnready, htrace] using (hes []).symm
  obtain rfl : t.env = e := by rw [hl]
  have ran : OpsRan (s.accepted i) (bodyOf s.cfg i) (withUnready us es) t := ⟨new, cs, hl, hem, blank⟩
  rw [List.append_nil] at hrun
  exact ⟨_, he.trans (congrArg _ hrun), ran.leftBy .ok⟩

/-! ## The writes that the shadow keeps -/

/-- D8: the registers that the shadow keeps (R207) are six. -/
theorem wf_shadowRegs {c : Config} (h : wellFormedConfig c = true) :
    [c.regWritePointer, c.regSoftwareReset, c.regDriverVoltage, c.regCommonVoltage, c.regProgrammedWaveform,
      c.regEngineTrigger].Nodup := by
  have hr := wf_registers h
  simp only [registersOk, Bool.and_eq_true, decide_eq_true_eq] at hr
  obtain ⟨⟨⟨-, hdistinct⟩, -⟩, -⟩ := hr
  simp only [distinctRegs, List.nodup_cons, List.mem_cons, not_or] at hdistinct ⊢
  grind

section see
variable {c : Config} (h : wellFormedConfig c = true) (d : Device) (ops : List Byte)
include h

/-- What the shadow makes of a write of one of the block's registers, by the register (R207). -/
theorem see_written {a : Byte} (ha : a ∈ writtenRegs c) :
    Device.see c d (.wr (a.setWidth 7) ops) =
      if a = c.regSoftwareReset then Device.unknown
      else if a = c.regWritePointer then
        { d with wp :=
            if ops = c.opsWpCurrent then some .current else if ops = c.opsWpPrevious then some .previous else none }
      else if a = c.regCommonVoltage then { d with cv := some ops }
      else if a = c.regDriverVoltage then { d with sv := some ops }
      else if a = c.regProgrammedWaveform then { d with progsel := some ops }
      else if a = c.regEngineTrigger then
        { d with
          prev := none
          triggers := d.triggers ++ [⟨d.progsel, ops, d.cur, d.prev, d.cv, d.sv⟩] }
      else d := by
  simp only [Device.see, Device.write, setWidth8_setWidth7 (wf_written h ha).1]

/-- The four kept registers besides the pointer and the reset, each told from the others (R207, log 8). -/
theorem see_keptRegs :
    Device.see c d (.wr (c.regCommonVoltage.setWidth 7) ops) = { d with cv := some ops } ∧
      Device.see c d (.wr (c.regDriverVoltage.setWidth 7) ops) = { d with sv := some ops } ∧
      Device.see c d (.wr (c.regProgrammedWaveform.setWidth 7) ops) = { d with progsel := some ops } ∧
      Device.see c d (.wr (c.regEngineTrigger.setWidth 7) ops) =
        { d with
          prev := none
          triggers := d.triggers ++ [⟨d.progsel, ops, d.cur, d.prev, d.cv, d.sv⟩] } := by
  have hn := wf_shadowRegs h
  simp only [List.nodup_cons, List.mem_cons, not_or] at hn
  refine ⟨?_, ?_, ?_, ?_⟩ <;> rw [see_written h d ops (by simp [writtenRegs])] <;> grind

end see

end Sys2Proof.Machine
end

section
/-! `WS_SETCV` and `WS_SETSV` (43_waveform_sequencer.md R160, R161): a command whose body is one register write. -/

namespace Sys2Proof.Machine

/-- A command ends with result `r`, having sent `es`, and the shadow comes to `d`; nothing else the block holds is
changed. -/
def WroteOnly (i : Instr) (s : State) (r : Result) (es : List Coarse) (d : Device) : Prop :=
  ∃ t, exec i s = .next t ∧ Ended s t r ∧ Ran s t es ∧
    t.fb = s.fb ∧ t.ps = s.ps ∧ t.configured = s.configured ∧ t.cs = .high ∧ t.rst = s.rst ∧ t.dev = d

section write
variable {i : Instr} {s : State} {a : Byte} {ops : List Byte} (hw : wellFormedConfig s.cfg = true)
  (ha : a ∈ writtenRegs s.cfg) (hbody : bodyOf s.cfg i = writeReg a ops)
  (he : exec i s = .next (runOps (bodyOf s.cfg i) (s.accepted i)))
include hw ha hbody he

/-- The wait of the one write clears (R122). -/
theorem write_completes (hresp : Responsive s (wrT a ops)) :
    WroteOnly i s .ok (wrT a ops) (Device.see s.cfg s.dev (.wr (a.setWidth 7) ops)) := by
  have hf : ∀ op ∈ bodyOf s.cfg i, fresh op = true := hbody ▸ fresh_writeReg hw ha ops
  have after : ResponsiveAfter s [] (wrT a ops) :=
    ⟨by rwa [withUnready_nil], by simp [wrT, readsReady], by simp⟩
  obtain ⟨t, ht, left⟩ := exec_completes he hf (hbody ▸ trace_writeReg hw s.fb ha) after
  rw [hbody, withUnready_nil] at left
  exact ⟨t, ht, left.ended, left.ran, left.fb, left.ps, left.configured, left.cs, left.rst, left.dev⟩

/-- The wait of the one write reaches the bound; the frame was sent (R121, R191). -/
theorem write_times_out {n : Nat} {rest : List Bool} (hn : s.cfg.waitBound = some n)
    (hq : s.env.busy = List.replicate n true ++ rest) :
    WroteOnly i s .deviceTimeout ((wrT a ops).take 1) (Device.see s.cfg s.dev (.wr (a.setWidth 7) ops)) := by
  have sent : opsTrace s.cfg s.fb [.frame (a :: ops)] = (wrT a ops).take 1 := by
    have write := trace_writeReg hw s.fb ha (ops := ops)
    rw [← write]
    rfl
  have unwaited : ((wrT a ops).take 1).count .waitBusy = 0 := by simp [wrT]
  obtain ⟨t, hrun, ht⟩ := runOps_wait_times_out (s := s.accepted i) (pre := [.frame (a :: ops)]) (post := [])
    (fun op hop => fresh_writeReg hw ha ops op (List.mem_append_left [Op.wait 0] hop)) (by simp) hw hn
    (by rw [State.accepted_cfg, State.accepted_fb, sent, unwaited]; exact hq)
  rw [State.accepted_cfg, State.accepted_fb, sent] at ht
  have left := ht.leftBy .deviceTimeout
  rw [hbody] at he
  exact ⟨_, he.trans (congrArg _ hrun), left.ended, left.ran, left.fb, left.ps, left.configured, left.cs, left.rst,
    left.dev⟩

end write

/-- Settles O42: the body is one write of the common-voltage register. -/
theorem setCommonVoltageCommand : Obligations.SetCommonVoltageCommand := by
  refine ⟨fun s v hr => ⟨exec_notConfigured hr rfl, fun hst hc hbad => ?invalid, fun hok hresp => ?completes,
    fun hok n rest hn hq => ?timesOut⟩, fun w hop => decode_of_hasFields ⟨hop, rfl⟩⟩
  case invalid => exact exec_invalid hr (decide_eq_false (Nat.not_le.2 hbad)) hst hc
  all_goals
    have runs := exec_runs (i := .wsSetcv v) hr (fun hst => ⟨fun _ => (hok hst).1, decide_eq_true (hok hst).2⟩) rfl
    have reg : s.cfg.regCommonVoltage ∈ writtenRegs s.cfg := by simp [writtenRegs]
    obtain ⟨kept, -⟩ := see_keptRegs hr.1 s.dev (encodeCV v.toInt)
  case completes => exact kept ▸ write_completes hr.1 reg rfl runs hresp
  case timesOut => exact kept ▸ write_times_out hr.1 reg rfl runs hn hq

theorem svInRange_iff {sv : Nat} : svInRange sv = true ↔ 8000 ≤ sv ∧ sv ≤ 15999 := by simp [svInRange]

/-- Settles O43: the body is one write of the driver-voltage register. -/
theorem setSourceVoltageCommand : Obligations.SetSourceVoltageCommand := by
  refine ⟨fun s sv hr => ⟨exec_notConfigured hr rfl, fun hst hc hbad => ?invalid, fun hok hresp => ?completes,
    fun hok n rest hn hq => ?timesOut⟩, fun w hop => decode_of_hasFields ⟨hop, rfl⟩⟩
  case invalid =>
    refine exec_invalid hr (Bool.eq_false_iff.2 fun ha => ?_) hst hc
    obtain ⟨hlow, hhigh⟩ := svInRange_iff.1 ha
    exact hbad.elim (Nat.not_lt.2 hlow) (Nat.not_lt.2 hhigh)
  all_goals
    have runs := exec_runs (i := .wsSetsv sv) hr (fun hst => ⟨fun _ => (hok hst).1, svInRange_iff.2 (hok hst).2⟩) rfl
    have reg : s.cfg.regDriverVoltage ∈ writtenRegs s.cfg := by simp [writtenRegs]
    obtain ⟨-, kept, -⟩ := see_keptRegs hr.1 s.dev [0x25#8, encodeSV sv.toNat]
  case completes => exact kept ▸ write_completes hr.1 reg rfl runs hresp
  case timesOut => exact kept ▸ write_times_out hr.1 reg rfl runs hn hq

end Sys2Proof.Machine
end

section
/-! `WS_UPDATE` (43_waveform_sequencer.md R162, R163): the mode table, what the shadow records of an update, and the
completed command. -/

namespace Sys2Proof.Machine

/-- Settles O11: the table is written out as two functions of the mode. -/
theorem modeTable : Obligations.ModeTable := fun _ => ⟨rfl, rfl, rfl, rfl, rfl, rfl⟩

/-- R162, R207: the flush fills the current buffer, and the trigger records the pair with what the shadow then holds. -/
theorem foldl_see_updateT {c : Config} (h : wellFormedConfig c = true) {data : List Byte} (hl : data.length = c.nStream)
    (p g : Byte) (manual : Bool) (d : Device) :
    (updateT c data p g manual).foldl (Device.see c) d =
      { d with
        wp := some .current
        cur := some data
        prev := none
        progsel := some [p]
        triggers := d.triggers ++ [⟨some [p], [g], some data, d.prev, d.cv, d.sv⟩] } := by
  have flush : ∀ d, (bufT c.regWritePointer c.opsWpCurrent data).foldl (Device.see c) d = d.filled .current data :=
    foldl_see_bufT h .current hl
  have on : ∀ d, (if manual then [] else onT c).foldl (Device.see c) d = d := by
    intro d
    cases manual
    · exact (unseen_powerOn h 1).foldl d
    · rfl
  have off : ∀ d, (if manual then [] else offT c).foldl (Device.see c) d = d := by
    intro d
    cases manual
    · exact (unseen_offT h).foldl d
    · rfl
  have select : ∀ d, (wrT c.regProgrammedWaveform [p]).foldl (Device.see c) d = { d with progsel := some [p] } := by
    intro d
    obtain ⟨-, -, kept, -⟩ := see_keptRegs h d [p]
    exact kept
  have trigger : ∀ d, (wrT c.regEngineTrigger [g]).foldl (Device.see c) d =
      { d with
        prev := none
        triggers := d.triggers ++ [⟨d.progsel, [g], d.cur, d.prev, d.cv, d.sv⟩] } := by
    intro d
    obtain ⟨-, -, -, kept⟩ := see_keptRegs h d [g]
    exact kept
  have wait : ∀ d, [Coarse.waitBusy].foldl (Device.see c) d = d := fun _ => rfl
  simp only [updateT, List.foldl_append, flush, on, select, trigger, wait, off]
  rfl

/-- Settles O44: the body of the mode, with no power cycle when it is manual. -/
theorem updateCompletes : Obligations.UpdateCompletes := by
  intro s mode manual p g data us ho hmode hdata hresp
  obtain ⟨hr, hopen⟩ := ho
  have hw : wellFormedConfig s.cfg = true := hr.1
  obtain ⟨m, hm, rfl, rfl⟩ : ∃ m, UpdateMode.ofCode mode = some m ∧ progSel s.cfg m = p ∧ trig m = g := by
    rcases hmode with ⟨rfl, rfl, rfl⟩ | ⟨rfl, rfl, rfl⟩ | ⟨rfl, rfl, rfl⟩
    · exact ⟨.full, rfl, rfl, rfl⟩
    · exact ⟨.partly, rfl, rfl, rfl⟩
    · exact ⟨.mono, rfl, rfl, rfl⟩
  obtain rfl : data = s.fb.bytes s.cfg.nStream := hdata
  have body : bodyOf s.cfg (.wsUpdate mode manual) = update s.cfg m manual := by rw [bodyOf, hm]; rfl
  have runs := hr.runs (i := .wsUpdate mode manual) (fun hst _ => hopen hst) (by rw [argOk, hm]; rfl)
  obtain ⟨t, he, left⟩ := exec_completes runs (body ▸ fresh_update hw m manual)
    (body ▸ trace_update hw s.fb m manual) hresp
  rw [body] at left
  have dev := left.dev
  rw [foldl_see_withUnready, foldl_see_updateT hw (by simp)] at dev
  refine ⟨t, he, left.ended, left.ran, left.ps.trans ?_, left.fb.trans (opsFb_update _ _ _ _), left.configured.trans ?_,
    left.cs.trans ?_, left.rst.trans ?_, dev⟩
  all_goals cases manual <;> rfl

end Sys2Proof.Machine
end

section
/-! `WS_RENDER` and `WS_BEGIN` (43_waveform_sequencer.md R156 to R175): what their bodies leave in the block's outputs and
in `FB`, beside the traces of Laws/Recipes.lean, and the completed commands. -/

namespace Sys2Proof.Machine

/-! ## The outputs after statements one after another -/

theorem opsPs_append (p : PowerState) (a b : List Op) : opsPs p (a ++ b) = opsPs (opsPs p a) b := List.foldl_append

theorem opsCs_append (l : Line) (a b : List Op) : opsCs l (a ++ b) = opsCs (opsCs l a) b := List.foldl_append

theorem opsRst_append (l : Line) (a b : List Op) : opsRst l (a ++ b) = opsRst (opsRst l a) b := List.foldl_append

theorem opsConfigured_append (x : Bool) (a b : List Op) :
    opsConfigured x (a ++ b) = opsConfigured (opsConfigured x a) b :=
  List.foldl_append

/-- Statements between two updates: they write neither `RST` nor `CONFIGURED`, and keep `PS` down and `CS` high. -/
structure Rests (ops : List Op) : Prop where
  ps : opsPs .down ops = .down
  cs : opsCs .high ops = .high
  rst : ∀ l, opsRst l ops = l
  configured : ∀ x, opsConfigured x ops = x

/-- Statements that hold an automatic update: they write neither `RST` nor `CONFIGURED`, and from wherever they start
they leave `PS` down and `CS` high (R144). -/
structure Lowers (ops : List Op) : Prop where
  ps : ∀ p, opsPs p ops = .down
  cs : ∀ l, opsCs l ops = .high
  rst : ∀ l, opsRst l ops = l
  configured : ∀ x, opsConfigured x ops = x

theorem Lowers.rests {ops : List Op} (h : Lowers ops) : Rests ops := ⟨h.ps _, h.cs _, h.rst, h.configured⟩

theorem Rests.nil : Rests [] := ⟨rfl, rfl, fun _ => rfl, fun _ => rfl⟩

theorem Rests.append {a b : List Op} (ha : Rests a) (hb : Rests b) : Rests (a ++ b) where
  ps := by rw [opsPs_append, ha.ps, hb.ps]
  cs := by rw [opsCs_append, ha.cs, hb.cs]
  rst l := by rw [opsRst_append, ha.rst, hb.rst]
  configured x := by rw [opsConfigured_append, ha.configured, hb.configured]

theorem Rests.lower {a b : List Op} (ha : Rests a) (hb : Lowers b) : Lowers (a ++ b) where
  ps p := by rw [opsPs_append, hb.ps]
  cs l := by rw [opsCs_append, hb.cs]
  rst l := by rw [opsRst_append, ha.rst, hb.rst]
  configured x := by rw [opsConfigured_append, ha.configured, hb.configured]

theorem Lowers.rest {a b : List Op} (ha : Lowers a) (hb : Rests b) : Lowers (a ++ b) where
  ps p := by rw [opsPs_append, ha.ps, hb.ps]
  cs l := by rw [opsCs_append, ha.cs, hb.cs]
  rst l := by rw [opsRst_append, ha.rst, hb.rst]
  configured x := by rw [opsConfigured_append, ha.configured, hb.configured]

theorem Rests.repeatOps {ops : List Op} (h : Rests ops) (n : Nat) : Rests (repeatOps n ops) := by
  induction n with
  | zero => exact .nil
  | succ n ih => rw [repeatOps_succ]; exact h.append ih

theorem Lowers.repeatOps {ops : List Op} (h : Lowers ops) (n : Nat) : Lowers (repeatOps (n + 1) ops) := by
  rw [repeatOps_succ]
  exact h.rest (h.rests.repeatOps n)

/-! ## The outputs after each procedure -/

theorem rests_writeReg (a : Byte) (ops : List Byte) : Rests (writeReg a ops) := by constructor <;> intros <;> rfl
theorem rests_setCV (c : Config) (v : Int) : Rests (setCV c v) := rests_writeReg _ _
theorem rests_setSV (c : Config) (sv : Nat) : Rests (setSV c sv) := rests_writeReg _ _
theorem rests_writePrev (c : Config) (l : Level) : Rests (writePrev c l) := by constructor <;> intros <;> rfl
theorem rests_clear (l : Level) : Rests [.clear l] := by constructor <;> intros <;> rfl
theorem rests_invert : Rests [.invert] := by constructor <;> intros <;> rfl
theorem rests_delay (n : Nat) : Rests [.delay n] := by constructor <;> intros <;> rfl

theorem lowers_update (c : Config) (mode : UpdateMode) : Lowers (update c mode false) := by
  constructor <;> intros <;> rfl

theorem lowers_pass (c : Config) (l : Level) (mode : UpdateMode) : Lowers (pass c l mode) :=
  (rests_writePrev c l).lower (lowers_update c mode)

theorem lowers_redBlock (c : Config) : Lowers (redBlock c) := by
  have turn : Rests [.invert, .delay 10] := rests_invert.append (rests_delay 10)
  have half : ∀ v, Lowers (writePrev c .lightGray ++ setCV c v ++ update c .mono false ++ [.invert, .delay 10]) :=
    fun v => (((rests_writePrev c _).append (rests_setCV c v)).lower (lowers_update c .mono)).rest turn
  have both := (half 10000).rest (half (-10000)).rests
  refine Lowers.repeatOps ?_ 1
  simpa only [List.append_assoc] using both

theorem lowers_recipe (c : Config) (col : Colour) : Lowers (recipe c col) := by
  have voltages : ∀ v sv, Rests (setCV c v ++ setSV c sv) := fun v sv => (rests_setCV c v).append (rests_setSV c sv)
  have passes : ∀ n l mode, Lowers (repeatOps (n + 1) (pass c l mode)) := fun n l mode =>
    (lowers_pass c l mode).repeatOps n
  have bw : Lowers (renderBW c) :=
    (((voltages _ _).append rests_invert).lower
      (((lowers_pass c _ _).rest (lowers_pass c _ _).rests).repeatOps 4)).rest rests_invert
  cases col with
  | black => exact bw
  | white => exact bw
  | yellow => exact (voltages _ _).lower (passes 2 _ _)
  | green => exact (voltages _ _).lower (passes 2 _ _)
  | red => exact (rests_setSV c _).lower (lowers_redBlock c)
  | blue =>
    have lead : Rests (if c.blueLeadingSv then setSV c 10000 else []) := by
      split
      · exact rests_setSV c _
      · exact .nil
    exact ((((lead.lower (lowers_redBlock c)).rest (rests_setSV c _)).rest (rests_setCV c _)).rest rests_invert).rest
      (((lowers_pass c _ _).rest (rests_delay 1)).rests.repeatOps 2)

theorem lowers_screenErase (c : Config) : Lowers (screenErase c) := by
  have half : ∀ v l, Lowers (setCV c v ++ [.clear l] ++ erasePasses c ++ [.delay c.eraseDelayMs]) := fun v l =>
    (((rests_setCV c v).append (rests_clear l)).lower ((lowers_pass c _ _).repeatOps 2)).rest (rests_delay _)
  have both : Lowers (setCV c 15000 ++ [.clear .black] ++ erasePasses c ++ [.delay c.eraseDelayMs]
      ++ setCV c (-15000) ++ [.clear c.eraseNegLevel] ++ erasePasses c ++ [.delay c.eraseDelayMs]) := by
    have := (half 15000 .black).rest (half (-15000) c.eraseNegLevel).rests
    simpa only [List.append_assoc] using this
  exact ((both.repeatOps 1).rest (rests_clear _)).rest (rests_setCV c 0)

theorem rests_initRegisters (c : Config) : Rests (initRegisters c) := by
  unfold initRegisters
  refine Rests.append (.append (.append (.append (.append (.append (.append ?_ ?_) ?_) ?_) ?_) ?_) ?_) ?_ <;>
    exact rests_writeReg _ _

/-! ## `WS_RENDER` -/

/-- R21: a command keeps the form of the FrameBuffer. -/
theorem exec_fbOk {i : Instr} {s t : State} (h : FbOk s) (he : exec i s = .next t) : FbOk t := by
  obtain ⟨hw, -⟩ := exec_next he
  have advances : Advances s t := exec_advances s.hostIn s.frameIn he
  exact (advances.keeps keeps_fbOk (fun _ _ _ _ => id) (fun _ _ => id) (fun _ _ => id) ⟨hw, h⟩).2

/-- R21, R50: FrameBuffers of one size with equal bytes are equal. -/
theorem FbOk.ext_bytes {s t : State} (hs : FbOk s) (ht : FbOk t) (hc : t.cfg = s.cfg)
    (h : t.fb.bytes s.cfg.fbSize = s.fb.bytes s.cfg.fbSize) : t.fb = s.fb := by
  obtain ⟨hwf, hrange⟩ := hs
  obtain ⟨twf, trange⟩ := ht
  rw [hc] at trange
  refine Memory.ext_read twf hwf fun a => ?_
  by_cases ha : a < s.cfg.fbSize
  · exact List.map_inj_left.1 h a (List.mem_range.2 ha)
  · rw [Memory.read_of_inRange trange (Nat.le_of_not_lt ha), Memory.read_of_inRange hrange (Nat.le_of_not_lt ha)]

/-- Settles O45: the body of the colour; the bytes it leaves in `FB` are those before, or for blue their complements. -/
theorem renderCompletes : Obligations.RenderCompletes := by
  intro s code col B us ho hfb hcode hB hresp
  obtain ⟨hr, hopen⟩ := ho
  have hw : wellFormedConfig s.cfg = true := hr.1
  have hcol : Colour.ofCode code = some col := by
    rcases hcode with ⟨rfl, rfl⟩ | ⟨rfl, rfl⟩ | ⟨rfl, rfl⟩ | ⟨rfl, rfl⟩ | ⟨rfl, rfl⟩ | ⟨rfl, rfl⟩ <;> rfl
  obtain rfl : s.fb.bytes s.cfg.fbSize = B := by rw [wf_size hw]; exact hB.symm
  have body : bodyOf s.cfg (.wsRender code) = recipe s.cfg col := by rw [bodyOf, hcol]; rfl
  have runs := hr.runs (i := .wsRender code) (fun hst _ => hopen hst) (by rw [argOk, hcol]; rfl)
  obtain ⟨trace, bytes⟩ := trace_recipe hw col (Eq.refl (s.fb.bytes s.cfg.fbSize))
  obtain ⟨t, he, left⟩ := exec_completes runs (body ▸ fresh_recipe hw col) (body ▸ trace) hresp
  rw [body] at left
  rw [← left.fb] at bytes
  have form : FbOk t := exec_fbOk hfb he
  have same : col ≠ .blue → t.fb = s.fb := fun hne => hfb.ext_bytes form left.cfg (by rw [bytes, if_neg hne])
  have flips : col = .blue → t.fb = fbInverted s.cfg s.fb := fun heq =>
    FbOk.ext_bytes (s := s.invertFb) ⟨fbInverted_wf _ _, fbInverted_inRange _ _⟩ form left.cfg
      (bytes.trans ((if_pos heq).trans (bytes_invert s.cfg s.fb).symm))
  have lowers := lowers_recipe s.cfg col
  refine ⟨t, he, left.ended, left.ran, form, same, fun heq a => ?_, left.ps.trans (lowers.ps _),
    left.configured.trans (lowers.configured _), left.cs.trans (lowers.cs _), left.rst.trans (lowers.rst _),
    left.dev.trans (foldl_see_withUnready _ _ _ _)⟩
  rw [flips heq, read_fbInverted_of_inRange hfb.2]

/-! ## `WS_BEGIN` -/

/-- R166, R159: what `WS_BEGIN` leaves in `FB` is its last clear. -/
theorem opsFb_begin (c : Config) (fb : Memory) : opsFb c fb (beginOps c) = fbCleared c c.eraseFinalLevel := by
  rw [beginOps, screenErase, opsFb_append, opsFb_append, opsFb_append, opsFb_append, opsFb_setCV]
  rfl

/-- R156, R28: the hardware reset ends with the line high; without a line nothing writes it. -/
theorem opsRst_begin (c : Config) (l : Line) :
    opsRst l (beginOps c) = if c.hasResetLine = true then .high else l := by
  have reset : opsRst l (if c.hasResetLine then hardwareReset else softwareReset c) =
      if c.hasResetLine = true then .high else l := by
    cases c.hasResetLine <;> rfl
  rw [beginOps, opsRst_append, opsRst_append, opsRst_append, reset, (rests_initRegisters c).rst,
    (lowers_screenErase c).rst]
  rfl

/-- Settles O46: the reset, the eight writes and the screen erase, whose last clear `FB` keeps. -/
theorem beginCompletes : Obligations.BeginCompletes := by
  intro s us hr hresp
  have hw : wellFormedConfig s.cfg = true := hr.1
  have runs := hr.runs (i := .wsBegin) (fun _ hg => absurd hg Bool.false_ne_true) rfl
  obtain ⟨trace, -⟩ := trace_begin hw s.fb
  obtain ⟨t, he, left⟩ := exec_completes runs (fresh_begin hw) trace hresp
  have body : bodyOf s.cfg .wsBegin = beginOps s.cfg := rfl
  rw [body] at left
  have lowers := lowers_screenErase s.cfg
  have ps : opsPs s.ps (beginOps s.cfg) = .down := by
    rw [beginOps, opsPs_append, opsPs_append, lowers.ps]
    rfl
  have cs : opsCs s.cs (beginOps s.cfg) = .high := by
    rw [beginOps, opsCs_append, opsCs_append, lowers.cs]
    rfl
  have configured : opsConfigured s.configured (beginOps s.cfg) = true := by
    rw [beginOps, opsConfigured_append]
    rfl
  have fb : t.fb = fbCleared s.cfg s.cfg.eraseFinalLevel := left.fb.trans (opsFb_begin _ _)
  refine ⟨t, he, left.ended, left.ran, left.configured.trans configured, left.ps.trans ps, left.cs.trans cs,
    left.rst.trans (opsRst_begin _ _), fun a ha => ?_, ⟨?_, ?_⟩, ?_, left.dev.trans (foldl_see_withUnready _ _ _ _)⟩
  · rw [fb, read_fbCleared, if_pos ha, pattern_eq]
  · rw [fb]; exact fbCleared_wf _ _
  · rw [fb, left.cfg]; exact fbCleared_inRange _ _
  · rw [fb]; exact fbCleared_tileConsistent hw _

end Sys2Proof.Machine
end

section
/-! The frame counts of the traces (43_waveform_sequencer.md R179): the count of a trace is the sum of those of its
parts. -/

namespace Sys2Proof.Machine

theorem tally_append (a b : List Coarse) : Coarse.tally (a ++ b) = Coarse.tally a + Coarse.tally b := by
  induction a with
  | nil => simp [Coarse.tally]
  | cons e a ih => cases e <;> simp [Coarse.tally, ih, Prod.ext_iff] <;> omega

theorem tally_timesT (n : Nat) (xs : List Coarse) : Coarse.tally (timesT n xs) = n • Coarse.tally xs := by
  induction n with
  | zero => simp [timesT, Coarse.tally]
  | succ n ih => rw [timesT_succ, tally_append, ih, succ_nsmul']

/-! ## The parts -/

theorem tally_delay (n : Nat) : Coarse.tally [.delay n] = (0, 0, 0, 1) := rfl
theorem tally_wrT (a : Byte) (ops : List Byte) : Coarse.tally (wrT a ops) = (1, 0, 0, 0) := rfl
theorem tally_onT (c : Config) : Coarse.tally (onT c) = (4, 0, 1, 0) := rfl
theorem tally_offT (c : Config) : Coarse.tally (offT c) = (2, 0, 0, 0) := rfl
theorem tally_prevT (c : Config) (b : Byte) : Coarse.tally (prevT c b) = (1, 1, 0, 0) := rfl
theorem tally_updateT (c : Config) (B : List Byte) (p g : Byte) :
    Coarse.tally (updateT c B p g false) = (9, 1, 1, 0) := rfl

/-! ## The recipes -/

theorem tally_whiteT (c : Config) (B : List Byte) : Coarse.tally (whiteT c B) = (102, 20, 10, 0) := by
  simp only [whiteT, passFullT, tally_append, tally_timesT, tally_wrT, tally_prevT, tally_updateT]
  rfl

theorem tally_yellowT (c : Config) (B : List Byte) : Coarse.tally (yellowT c B) = (32, 6, 3, 0) := by
  simp only [yellowT, passFullT, tally_append, tally_timesT, tally_wrT, tally_prevT, tally_updateT]
  rfl

theorem tally_greenT (c : Config) (B : List Byte) : Coarse.tally (greenT c B) = (32, 6, 3, 0) := by
  simp only [greenT, passMonoT, tally_append, tally_timesT, tally_wrT, tally_prevT, tally_updateT]
  rfl

theorem tally_redBlockT (c : Config) (B : List Byte) : Coarse.tally (redBlockT c B) = (44, 8, 4, 4) := by
  simp only [redBlockT, tally_append, tally_timesT, tally_wrT, tally_prevT, tally_updateT, tally_delay]
  rfl

theorem tally_redT (c : Config) (B : List Byte) : Coarse.tally (redT c B) = (45, 8, 4, 4) := by
  rw [redT, tally_append, tally_wrT, tally_redBlockT]
  rfl

theorem tally_blueT (c : Config) (B : List Byte) :
    Coarse.tally (blueT c B) = (if c.blueLeadingSv = true then 67 else 66, 12, 6, 6) := by
  simp only [blueT, passMonoT, tally_append, tally_timesT, tally_wrT, tally_redBlockT, tally_prevT, tally_updateT,
    tally_delay]
  cases c.blueLeadingSv <;> rfl

theorem tally_eraseT (c : Config) : Coarse.tally (eraseT c) = (125, 24, 12, 4) := by
  simp only [eraseT, erasePassT, tally_append, tally_timesT, tally_wrT, tally_prevT, tally_updateT, tally_delay]
  rfl

theorem tally_beginT (c : Config) :
    Coarse.tally (beginT c) = if c.hasResetLine = true then (133, 24, 12, 7) else (134, 24, 12, 4) := by
  simp only [beginT, tally_append, tally_wrT, tally_eraseT]
  cases c.hasResetLine <;> rfl

/-- Settles O47: each trace is counted by its parts. -/
theorem recipeSizes : Obligations.RecipeSizes := fun c B p _ =>
  ⟨tally_onT c, tally_offT c, rfl, tally_updateT c B _ _, tally_prevT c p, tally_whiteT c B, tally_whiteT c B,
    tally_yellowT c B, tally_greenT c B, tally_redBlockT c B, tally_redT c B, tally_blueT c B, tally_eraseT c,
    tally_beginT c⟩

end Sys2Proof.Machine
end

section
/-! Every step keeps the device shadow equal to the fold of the coarse trace (60_exceptions.md R207, 00_scope.md R16):
between two steps no frame is open, so that the coarse trace grows by the coarse events of what is appended, and what each
statement appends is what it shows the shadow. -/

namespace Sys2Proof.Machine

/-! ## Traces that leave no frame open -/

/-- The coarse events of a trace that leaves no frame open come before those of what is appended. -/
theorem coarseFrom_append {p q : BusPhase} {opened : Option (List (Byte × Byte))} {a : List Event} (b : List Event)
    (hopened : opened.isSome ↔ p = .opened) (h : busPhase p a = some q) (hq : q ≠ .opened) :
    coarseFrom opened (a ++ b) = coarseFrom opened a ++ coarseFrom none b := by
  induction a generalizing p opened with
  | nil =>
    obtain rfl : p = q := by simpa [busPhase] using h
    obtain rfl : opened = none := Option.not_isSome_iff_eq_none.1 fun hsome => hq (hopened.1 hsome)
    rfl
  | cons e a ih =>
    cases opened with
    | none =>
      cases p with
      | opened => simp at hopened
      | _ =>
        cases e with
        | cs l => cases l <;> simp [busPhase] at h <;> exact ih (by simp) h
        | xfer t r => simp [busPhase] at h
        | busy busy =>
          cases busy with
          | true => exact ih (by simp) h
          | false => exact congrArg (Coarse.waitBusy :: ·) (ih (by simp) h)
        | rst l => exact congrArg (Coarse.rst l :: ·) (ih (by simp) h)
        | delay n => exact congrArg (Coarse.delay n :: ·) (ih (by simp) h)
    | some pairs =>
      obtain rfl : p = .opened := hopened.1 rfl
      cases e with
      | cs l =>
        cases l with
        | low => simp [busPhase] at h
        | high => exact congrArg (coarseFrame pairs :: ·) (ih (by simp) h)
      | xfer t r => exact ih (by simp) h
      | _ => simp [busPhase] at h

/-- Between two steps no frame is open (R28, log 7). -/
theorem Framed.phase {s : State} (h : Framed s) : ∃ p, busPhase .settled s.trace = some p ∧ p ≠ .opened := by
  obtain ⟨-, hbus⟩ := h
  split at hbus
  · exact ⟨.settled, hbus, BusPhase.noConfusion⟩
  · obtain ⟨p, hp, htodo⟩ := hbus
    refine ⟨p, hp, ?_⟩
    rintro rfl
    rw [opsSettle_opened] at htodo
    cases htodo

theorem Framed.emits {s : State} (h : Framed s) : Emits s.trace (coarse s.trace) := by
  obtain ⟨p, hp, hopened⟩ := h.phase
  exact fun es => coarseFrom_append es (by simp) hp hopened

/-! ## What the statements show the shadow -/

/-- The samples of a wait: one coarse event for each clear one (R16). -/
theorem Emits.samples (bs : List Bool) :
    Emits (bs.map Event.busy) (List.replicate (bs.count false) .waitBusy) := by
  induction bs with
  | nil => exact .nil
  | cons b bs ih =>
    cases b with
    | true =>
      have busy : Emits [.busy true] [] := .busy 1
      simpa using busy.append ih
    | false =>
      have cleared : Emits [.busy false] [.waitBusy] := .wait 0
      simpa [List.replicate_succ] using cleared.append ih

/-- From `s` to `t` the trace grew by coarse events that the shadow of `t` has seen (R207). -/
def Shadows (s t : State) : Prop :=
  t.cfg = s.cfg ∧ ∃ new cs, t.trace = s.trace ++ new ∧ Emits new cs ∧ t.dev = cs.foldl (Device.see s.cfg) s.dev

theorem Shadows.silent {s t : State} (hcfg : t.cfg = s.cfg) (htrace : t.trace = s.trace) (hdev : t.dev = s.dev) :
    Shadows s t :=
  ⟨hcfg, [], [], by rw [htrace, List.append_nil], .nil, hdev⟩

theorem Shadows.trans {s t u : State} : Shadows s t → Shadows t u → Shadows s u := by
  rintro ⟨hcfg, new, cs, htrace, hem, hdev⟩ ⟨hcfg', new', cs', htrace', hem', hdev'⟩
  refine ⟨hcfg'.trans hcfg, new ++ new', cs ++ cs', ?_, hem.append hem', ?_⟩
  · rw [htrace', htrace, List.append_assoc]
  · rw [hdev', hdev, hcfg, List.foldl_append]

/-- R207: a frame and an edge of the reset line are shown to the shadow; to all else that a statement does it is blind. -/
theorem keeps_shadows (ops : List Op) : Keeps ops Shadows where
  refl _ := .silent rfl rfl rfl
  trans := Shadows.trans
  frame bytes s :=
    ⟨State.sendFrame_cfg bytes s, _, _, State.sendFrame_trace bytes s, .frame (Env.length_answers _ _),
      State.sendFrame_dev bytes s⟩
  busy bs rest s := by
    have unseen : Unseen s.cfg (List.replicate (bs.count false) .waitBusy) := fun e he _ => by
      rw [List.eq_of_mem_replicate he, Device.see]
    exact ⟨rfl, _, _, State.afterBusy_trace bs rest s, .samples bs, (unseen.foldl s.dev).symm⟩
  power _ _ _ := .silent rfl rfl rfl
  reset l _ s := ⟨rfl, _, [.rst l], State.setRST_trace l s, fun _ => by simp [coarseFrom], rfl⟩
  delay n _ s := ⟨rfl, _, [.delay n], State.delayMs_trace n s, fun _ => by simp [coarseFrom], rfl⟩
  clear _ _ _ := .silent rfl rfl rfl
  invert _ _ := .silent rfl rfl rfl
  seg _ _ _ _ := .silent rfl rfl rfl
  configured _ _ := .silent rfl rfl rfl

/-! ## The step -/

theorem step_shadows {s t : State} (h : step s = .next t) : Shadows s t :=
  (step_advances h).keeps keeps_shadows (fun _ _ _ _ => .silent rfl rfl rfl) (fun _ _ => .silent rfl rfl rfl)
    (fun _ _ => .silent rfl rfl rfl)

/-- What a framed state's shadow has seen of what was appended, the fold over the whole trace has. -/
theorem ShadowOk.shadows {s t : State} (h : ShadowOk s) (hs : Shadows s t) : t.dev = deviceShadow t.cfg t.trace := by
  obtain ⟨hframed, hdev⟩ := h
  obtain ⟨hcfg, new, cs, htrace, hem, hseen⟩ := hs
  have grown : coarse t.trace = coarse s.trace ++ cs := by
    rw [htrace]
    exact (hframed.emits.append hem).coarse_eq
  rw [hseen, hdev, deviceShadow, deviceShadow, hcfg, grown, List.foldl_append]

/-- Settles O59: the bus stays framed, and every statement shows the shadow what it appends to the trace. -/
theorem stepKeepsShadow : Obligations.StepKeepsShadow := fun s t h hstep =>
  have framed : Framed t := (stepKeepsFraming s t h.1 hstep).1
  ⟨framed, h.shadows (step_shadows hstep)⟩

end Sys2Proof.Machine
end

section
/-! How a command ends (60_exceptions.md R190 to R196): which results a run of statements can record, where a timeout
leaves the block, and what the checks of an idle block make of an instruction. -/

namespace Sys2Proof.Machine

/-! ## How a statement ends a command early -/

/-- From `s` to `t` the trace grew, last by a busy sample. -/
def Sampled (s t : State) : Prop := t.cfg = s.cfg ∧ ∃ new b, t.trace = s.trace ++ new ++ [.busy b]

/-- From `s` to `t` a bound was reached, by the busy sample that is last in the trace (R121, R141, R191). -/
def TimedOut (s t : State) : Prop := s.cfg.waitBound ≠ none ∧ Sampled s t

section sampled
variable {s t u : State}

/-- What was done before the sample and left the configuration. -/
theorem Sampled.after (hcfg : t.cfg = s.cfg) (htrace : s.trace <+: t.trace) (h : Sampled t u) : Sampled s u := by
  obtain ⟨hcfg', new, b, hu⟩ := h
  obtain ⟨old, hold⟩ := htrace
  exact ⟨hcfg'.trans hcfg, old ++ new, b, by rw [hu, ← hold, List.append_assoc s.trace]⟩

theorem TimedOut.after (hcfg : t.cfg = s.cfg) (htrace : s.trace <+: t.trace) (h : TimedOut t u) : TimedOut s u :=
  ⟨hcfg ▸ h.1, h.2.after hcfg htrace⟩

theorem Sampled.appends (h : Sampled s t) : s.trace <+: t.trace := by
  obtain ⟨-, new, b, ht⟩ := h
  exact ⟨new ++ [.busy b], by rw [ht, List.append_assoc]⟩

/-- A loop that tests its bound ends with the sample just taken. -/
theorem Sampled.timedOut {n : Nat} (h : Sampled s t) (hreached : boundReached t.cfg.waitBound n = true) :
    TimedOut s t := by
  refine ⟨fun hnone => ?_, h⟩
  rw [h.1, hnone] at hreached
  cases hreached

/-- How a wait is over: a busy sample was taken last, and when it timed out, a bound was reached (R121, R191). -/
theorem waitBusyClear_over (polls : Nat) (s : State) :
    (∃ t, s.waitBusyClear polls = .clear t ∧ Sampled s t) ∨ (∃ t, s.waitBusyClear polls = .timeout t ∧ TimedOut s t) ∨
      ∃ n t, s.waitBusyClear polls = .pending n t := by
  rcases State.waitBusyClear_cases polls s with ⟨j, rest, -, -, e⟩ | ⟨j, rest, -, -, hreached, e⟩ | ⟨j, -, -, e⟩
  · exact .inl ⟨_, e, rfl, List.replicate j (.busy true), false, by simp⟩
  · have sampled : Sampled s (s.afterBusy (List.replicate (j + 1) true) rest) :=
      ⟨rfl, List.replicate j (.busy true), true, by simp [List.replicate_succ']⟩
    exact .inr (.inl ⟨_, e, sampled.timedOut hreached⟩)
  · exact .inr (.inr ⟨_, _, e⟩)

/-- R123, R141: the same for the wait that follows a read frame. -/
theorem readFrame_over (head filler : Byte) (s : State) :
    (∃ t, (s.readFrame head filler).2.waitBusyClear 0 = .clear t ∧ Sampled s t) ∨
      (∃ t, (s.readFrame head filler).2.waitBusyClear 0 = .timeout t ∧ TimedOut s t) ∨
      ∃ n t, (s.readFrame head filler).2.waitBusyClear 0 = .pending n t := by
  have hcfg : (s.readFrame head filler).2.cfg = s.cfg := State.sendFrame_cfg _ s
  have htrace : s.trace <+: (s.readFrame head filler).2.trace := by simp
  rcases waitBusyClear_over 0 (s.readFrame head filler).2 with ⟨t, e, h⟩ | ⟨t, e, h⟩ | stands
  · exact .inl ⟨t, e, h.after hcfg htrace⟩
  · exact .inr (.inl ⟨t, e, h.after hcfg htrace⟩)
  · exact .inr (.inr stands)

/-- R141: the ready poll ends a command when a wait of it times out or when its own bound is reached. -/
theorem pollFrom_timedOut {fuel reads : Nat} {r : Result} (h : pollFrom fuel reads s = .finish r t) : TimedOut s t := by
  induction fuel generalizing reads s with
  | zero => cases h
  | succ fuel ih =>
    simp only [pollFrom] at h
    rcases readFrame_over (s.cfg.regStatus ||| readFlag) s.cfg.filler s with ⟨u, e, hu⟩ | ⟨u, e, hu⟩ | ⟨n, u, e⟩ <;>
      rw [e] at h <;> dsimp only at h
    · split at h
      · cases h
      · split at h
        · next hreached =>
          cases h
          exact hu.timedOut hreached
        · exact (ih h).after hu.1 hu.appends
    · cases h
      exact hu
    · cases h

/-- A statement that ends the command early ends it with the byte of a read, or with a timeout (R196). -/
theorem doOp_finish {op : Op} {r : Result} (h : doOp op s = .finish r t) :
    (∃ b, r = .okValue b) ∨ (r = .deviceTimeout ∧ TimedOut s t) := by
  cases op with
  | wait polls =>
    simp only [doOp] at h
    rcases waitBusyClear_over polls s with ⟨u, e, hu⟩ | ⟨u, e, hu⟩ | ⟨n, u, e⟩ <;> rw [e] at h <;> cases h
    exact .inr ⟨rfl, hu⟩
  | readResult head filler =>
    simp only [doOp] at h
    rcases readFrame_over head filler s with ⟨u, e, hu⟩ | ⟨u, e, hu⟩ | ⟨n, u, e⟩ <;> rw [e] at h <;> cases h
    · exact .inl ⟨_, rfl⟩
    · exact .inr ⟨rfl, hu⟩
  | readWait byte polls =>
    simp only [doOp] at h
    rcases waitBusyClear_over polls s with ⟨u, e, hu⟩ | ⟨u, e, hu⟩ | ⟨n, u, e⟩ <;> rw [e] at h <;> cases h
    · exact .inl ⟨_, rfl⟩
    · exact .inr ⟨rfl, hu⟩
  | pollReady reads => exact .inr ⟨pollFrom_finish h, pollFrom_timedOut h⟩
  | pollWait byte polls reads =>
    simp only [doOp] at h
    rcases waitBusyClear_over polls s with ⟨u, e, hu⟩ | ⟨u, e, hu⟩ | ⟨n, u, e⟩ <;> rw [e] at h <;> dsimp only at h
    · split at h
      · cases h
      · split at h
        · next hreached =>
          cases h
          exact .inr ⟨rfl, hu.timedOut hreached⟩
        · exact .inr ⟨pollFrom_finish h, (pollFrom_timedOut h).after hu.1 hu.appends⟩
    · cases h
      exact .inr ⟨rfl, hu⟩
    · cases h
  | _ => cases h

end sampled

/-! ## How a run of statements ends -/

/-- A run records no result and stands, or records one: `Ok`, the byte of a read, or a timeout, which leaves the block idle
where the last sample was taken (R71, R190, R196). -/
theorem runOps_ends (ops : List Op) (s : State) :
    (runOps ops s).returned = s.returned ∨
      ∃ r u, runOps ops s = u.complete r ∧ u.returned = s.returned ∧
        (r = .ok ∨ (∃ b, r = .okValue b) ∨ (r = .deviceTimeout ∧ TimedOut s u)) := by
  induction ops generalizing s with
  | nil => exact .inr ⟨.ok, s, rfl, rfl, .inl rfl⟩
  | cons op ops ih =>
    obtain ⟨⟨hcfg, hret, -⟩, htrace⟩ :=
      ((keeps_record (op :: ops)).and (keeps_trace (op :: ops))).doOp List.mem_cons_self s
    cases hop : doOp op s with
    | done t =>
      rw [hop] at hcfg hret htrace
      rw [runOps_cons_done hop]
      rcases ih t with stands | ⟨r, u, e, hu, hr⟩
      · exact .inl (stands.trans hret)
      · exact .inr ⟨r, u, e, hu.trans hret, hr.imp_right (.imp_right (.imp_right (.after hcfg htrace)))⟩
    | finish r t =>
      rw [hop] at hret
      exact .inr ⟨r, t, runOps_cons_finish hop ops, hret, .inr (doOp_finish hop)⟩
    | pend op' t =>
      rw [hop] at hret
      exact .inl (by rw [runOps, hop]; exact hret)

/-- No run of statements ends in a failed check (R195). -/
theorem runOps_returned_ne {ops : List Op} {r : Result} (hr : r = .notConfigured ∨ r = .invalidConfiguration)
    (s : State) : (runOps ops s).returned ≠ s.returned ++ [r] := by
  intro h
  rcases runOps_ends ops s with stands | ⟨r', u, e, hu, hr'⟩
  · simp [stands] at h
  · obtain rfl : r' = r := by simpa [e, State.complete, hu] using h
    rcases hr with rfl | rfl <;> simp at hr'

/-- A run of statements that records a timeout. -/
theorem runOps_deviceTimeout {ops : List Op} {s : State} (h : (runOps ops s).returned = s.returned ++ [.deviceTimeout]) :
    ∃ u, runOps ops s = u.complete .deviceTimeout ∧ TimedOut s u := by
  rcases runOps_ends ops s with stands | ⟨r, u, e, hu, hr⟩
  · simp [stands] at h
  · obtain rfl : r = .deviceTimeout := by simpa [e, State.complete, hu] using h
    exact ⟨u, e, by simpa using hr⟩

/-! ## What an idle block makes of an instruction -/

/-- The conditions of the table of R192 are those that the check of the arguments fails. -/
theorem argOk_eq_false_iff {i : Instr} : argOk i = false ↔ badArgument i := by
  cases i with
  | fbSetseg index level => simp [argOk, badArgument, segIndexOk]
  | rpWrreg addr pm op0 op1 op2 op3 =>
    rw [argOk, badArgument, ← Bool.not_eq_true, writeAddrOk_iff]
    omega
  | rpRdreg addr => simp [argOk, badArgument, readAddrOk]
  | wsUpdate mode manual =>
    simp only [argOk, badArgument]
    revert mode
    decide
  | wsRender colour =>
    simp only [argOk, badArgument]
    revert colour
    decide
  | wsSetcv v => simp [argOk, badArgument, cvInRange]
  | wsSetsv sv =>
    rw [argOk, badArgument, ← Bool.not_eq_true, svInRange_iff]
    omega
  | _ => simp [argOk, badArgument]

/-- R84: arguments that name something pass their check, or there is nothing for `STRICT = false` to refuse. -/
theorem argOk_of_named {i : Instr} (h : i.named = true) : argOk i = true ∨ laxRefusal i = none := by
  cases i with
  | fbSetseg index level => exact .inl h
  | wsUpdate mode manual =>
    refine .inl ?_
    simp only [Instr.named] at h
    simp only [argOk]
    revert mode
    decide
  | wsRender colour =>
    refine .inl ?_
    simp only [Instr.named] at h
    simp only [argOk]
    revert colour
    decide
  | _ => exact .inr rfl

section idle
variable {i : Instr} {s t : State} (hr : Ready s)
include hr

/-- R192, R193, R195: a next state is a failed check, which changes the result alone, or the run of the body. -/
theorem Ready.answer (h : exec i s = .next t) :
    (s.cfg.strict = true ∧ gated i = true ∧ s.configured = false ∧ t = s.reported .notConfigured) ∨
      (s.cfg.strict = true ∧ badArgument i ∧ t = s.reported .invalidConfiguration) ∨
      t = runOps (bodyOf s.cfg i) (s.accepted i) := by
  rw [exec_eq] at h
  rcases runCommand_cases i (gated i) (argOk i) (laxRefusal i) (bodyOf s.cfg i) s with
    ⟨-, e⟩ | ⟨-, hn, e⟩ | ⟨-, -, hst, hg, hc, e⟩ | ⟨-, -, hst, -, ha, e⟩ | ⟨r, -, -, -, -, -, e⟩ | ⟨-, -, -, -, e⟩ <;>
    rw [e] at h <;> cases h
  · exact absurd hr.2 hn
  · exact .inl ⟨hst, hg, hc, hr.fail_eq _⟩
  · exact .inr (.inl ⟨hst, argOk_eq_false_iff.1 ha, hr.fail_eq _⟩)
  · exact .inr (.inr rfl)

/-- R192: the check of the arguments, of a command that the check of R193 lets pass. -/
theorem Ready.invalid (hst : s.cfg.strict = true) (hg : gated i = true → s.configured = true) (hbad : badArgument i) :
    exec i s = .next (s.reported .invalidConfiguration) := by
  rw [exec_eq, argOk_eq_false_iff.2 hbad, runCommand_invalid hr.1 hr.2 hst hg, hr.fail_eq]

/-- R84, R194: with `STRICT = false` arguments that name nothing are refused by their name. -/
theorem Ready.refused {r : Refusal} (hst : s.cfg.strict = false) (hbad : badArgument i) (hlax : laxRefusal i = some r) :
    exec i s = .refused r := by
  rw [exec_eq, argOk_eq_false_iff.2 hbad, hlax, runCommand_refused hr.1 hr.2 hst]

/-- R194: with `STRICT = false` arguments that name something are not checked. -/
theorem Ready.unchecked (hst : s.cfg.strict = false) (hi : i.named = true) :
    exec i s = .next (runOps (bodyOf s.cfg i) (s.accepted i)) := by
  rw [exec_eq, runCommand_start hr.1 hr.2 (fun h => by simp [hst] at h) fun _ => argOk_of_named hi]
  rfl

/-- What the step makes of a word whose opcode is none of the 14 (R72). -/
theorem Ready.step_unknown {w : CmdWord} {rest : List CmdWord} (hframes : s.frameIn = []) (hwords : s.hostIn = w :: rest)
    (hw : w.extractLsb' 48 8 ∉ commandOpcodes) : step s = unknownCommand { s with hostIn := rest } := by
  obtain ⟨hcfg, hs⟩ := hr
  simp [step, hcfg, hs, hframes, hwords, decode_of_not_mem hw]

end idle

end Sys2Proof.Machine
end

section
/-! The checks of a command (60_exceptions.md R192 to R195) and the idle block to which nothing is presented (R198). -/

namespace Sys2Proof.Machine

/-- Settles O15. -/
theorem idleBlockDoesNothing : Obligations.IdleBlockDoesNothing := by
  rintro s e ⟨hw, hs⟩ hframes hwords
  simp [step, hw, hs, hframes, hwords]

/-- Settles O21: only `STRICT = false` refuses a command. -/
theorem strictBlockAlwaysAnswers : Obligations.StrictBlockAlwaysAnswers := by
  rintro i s e ⟨hw, hs⟩ hst
  rw [exec_eq]
  rcases runCommand_cases i (gated i) (argOk i) (laxRefusal i) (bodyOf s.cfg i) { s with env := e } with
    ⟨hn, -⟩ | ⟨-, hn, -⟩ | ⟨-, -, -, -, -, h⟩ | ⟨-, -, -, -, -, h⟩ | ⟨r, -, -, hlax, -⟩ | ⟨-, -, -, -, h⟩
  · exact absurd (hw.symm.trans hn) Bool.noConfusion
  · exact absurd hs hn
  · exact ⟨_, h⟩
  · exact ⟨_, h⟩
  · exact absurd (hst.symm.trans hlax) Bool.noConfusion
  · exact ⟨_, h⟩

/-- Settles O18: no body ends in `NotConfigured`. -/
theorem notConfiguredExactly : Obligations.NotConfiguredExactly := by
  refine fun i s hr => ⟨fun hst hc hg => exec_notConfigured hr hg hst hc, fun t he ht => ?_⟩
  rcases hr.answer he with ⟨hst, hg, hc, -⟩ | ⟨-, -, rfl⟩ | rfl
  · exact ⟨hst, hc, hg⟩
  · simp [State.reported] at ht
  · exact absurd ht (runOps_returned_ne (.inl rfl) (s.accepted i))

/-- Settles O19: no body ends in `InvalidConfiguration`. -/
theorem invalidConfigurationExactly : Obligations.InvalidConfigurationExactly := by
  refine ⟨fun i s hr => ⟨hr.invalid, fun t he ht => ?_⟩, fun s w rest hr hframes hwords hst hw => ?_⟩
  · rcases hr.answer he with ⟨-, -, -, rfl⟩ | ⟨hst, hbad, -⟩ | rfl
    · simp [State.reported] at ht
    · exact ⟨hst, hbad⟩
    · exact absurd ht (runOps_returned_ne (.inr rfl) (s.accepted i))
  · have taken : Ready { s with hostIn := rest } := hr
    rw [hr.step_unknown hframes hwords hw, unknownCommand, if_pos hst, taken.fail_eq]

/-- Settles O20: what names something runs, what names nothing is refused. -/
theorem uncheckedSetting : Obligations.UncheckedSetting := by
  refine ⟨fun i s hr hst => ⟨fun hi => ?_, ?_, ?_, ?_⟩, fun s w rest hr hframes hwords hst hw => ?_⟩
  · exact ⟨_, hr.unchecked hst hi, runOps_returned_ne (.inl rfl) (s.accepted i),
      runOps_returned_ne (.inr rfl) (s.accepted i)⟩
  · rintro index l rfl hindex
    exact hr.refused hst hindex rfl
  · rintro mode m rfl hmode
    exact hr.refused hst hmode rfl
  · rintro col rfl hcol
    exact hr.refused hst hcol rfl
  · rw [hr.step_unknown hframes hwords hw, unknownCommand, if_neg (by simp [hst])]

end Sys2Proof.Machine
end

section
/-! `DeviceTimeout` (60_exceptions.md R191, R196): where it leaves the block, and that it needs a bound. -/

namespace Sys2Proof.Machine

/-- R28: every frame ends with `CS` high, and nothing else writes it. -/
theorem keeps_cs_high (ops : List Op) : Keeps ops fun s t => s.cs = .high → t.cs = .high where
  refl _ := id
  trans a b := b ∘ a
  frame bytes s _ := State.sendFrame_cs bytes s
  busy _ _ _ := id
  power _ _ _ := id
  reset _ _ _ := id
  delay _ _ _ := id
  clear _ _ _ := id
  invert _ _ := id
  seg _ _ _ _ := id
  configured _ _ := id

theorem runOps_cs_high (ops : List Op) {s : State} (h : s.cs = .high) : (runOps ops s).cs = .high := by
  rcases (keeps_cs_high ops).runOps s with ⟨r, u, e, hu⟩ | ⟨todo, u, e, hu⟩ <;> rw [e] <;> exact hu h

/-- Settles O51: a timeout is the end of a run of statements, where the bound was reached. -/
theorem timeoutIsLeftIdle : Obligations.TimeoutIsLeftIdle := by
  rintro i s t hr ⟨hcs, -⟩ he ht
  rcases hr.answer he with ⟨-, -, -, rfl⟩ | ⟨-, -, rfl⟩ | rfl
  · simp [State.reported] at ht
  · simp [State.reported] at ht
  · have high : (runOps (bodyOf s.cfg i) (s.accepted i)).cs = .high := runOps_cs_high _ hcs
    obtain ⟨u, e, -, hcfg, sampled⟩ := runOps_deviceTimeout (s := s.accepted i) ht
    rw [e] at high ⊢
    exact ⟨rfl, rfl, high, hcfg, sampled⟩

theorem runOps_without_bound {s : State} (hn : s.cfg.waitBound = none) (ops : List Op) :
    (runOps ops s).returned ≠ s.returned ++ [.deviceTimeout] := by
  intro h
  obtain ⟨u, -, hbound, -⟩ := runOps_deviceTimeout h
  exact hbound hn

theorem exec_without_bound {i : Instr} {s t : State} (hn : s.cfg.waitBound = none) (h : exec i s = .next t) :
    t.returned ≠ s.returned ++ [.deviceTimeout] := by
  obtain ⟨-, ⟨-, rfl⟩ | ⟨-, rfl | rfl | rfl⟩⟩ := exec_next h
  · simp
  · simp
  · simp
  · exact runOps_without_bound (s := s.accepted i) hn (bodyOf s.cfg i)

theorem resume_without_bound {s : State} (hn : s.cfg.waitBound = none) :
    s.resume.returned ≠ s.returned ++ [.deviceTimeout] := by
  unfold State.resume
  split
  · simp
  · split
    · exact runOps_without_bound (s := s.nextBusy) hn _
    · exact runOps_without_bound hn _

/-- Settles O52: a run of statements times out at a bound only, and nothing else of a step does. -/
theorem noBoundNoTimeout : Obligations.NoBoundNoTimeout := by
  refine fun s t hn => ⟨fun i => exec_without_bound hn, fun hstep => ?_⟩
  obtain ⟨-, ⟨_, _, _, -, rfl⟩ | ⟨-, f, rest, i, -, -, he⟩ | ⟨-, -, w, rest, i, -, -, he⟩ |
    ⟨-, -, w, rest, e, -, -, -, rfl⟩ | ⟨-, -, -, rfl⟩⟩ := step_next hstep
  · exact resume_without_bound hn
  · exact exec_without_bound (s := { s with frameIn := rest }) hn he
  · exact exec_without_bound (s := { s with hostIn := rest }) hn he
  · simp
  · simp

end Sys2Proof.Machine
end

section
/-! The free answers (60_exceptions.md R206): a command to which nothing is queued takes them as they come. -/

namespace Sys2Proof.Machine

/-- With nothing queued the next two answers are free ones (log 3). -/
theorem answers_free {e : Env} (hx : e.xfer = []) : e.answers 2 =
    ([Config.xferAnswer e.xferCount, Config.xferAnswer (e.xferCount + 1)], { e with xferCount := e.xferCount + 2 }) := by
  simp [Env.answers, Env.answer, hx]

/-- A wait to which nothing is queued stands. -/
theorem waitBusyClear_empty (polls : Nat) {s : State} (hq : s.env.busy = []) : s.waitBusyClear polls = .pending polls s := by
  rw [State.waitBusyClear, hq, waitFrom]

/-- What a wait makes of the one sample that is queued (R121). -/
theorem waitBusyClear_single (polls : Nat) {b : Bool} {s : State} (hq : s.env.busy = [b]) : s.waitBusyClear polls =
    if b = false then .clear (s.sampled b [])
    else if boundReached s.cfg.waitBound (polls + 1) then .timeout (s.sampled b [])
    else .pending (polls + 1) (s.sampled b []) := by
  rw [State.waitBusyClear, hq]
  rfl

/-- The wait of `RP_RDREG` with one sample queued: a clear one ends the command with the byte kept, a busy one is the bound
or makes the command stand on (R123). -/
theorem runOps_readWait_single (r : Byte) (polls : Nat) {b : Bool} {s : State} (hq : s.env.busy = [b]) :
    runOps [.readWait r polls] s =
      if b = false then (s.sampled b []).complete (.okValue r)
      else if boundReached s.cfg.waitBound (polls + 1) then (s.sampled b []).complete .deviceTimeout
      else { s.sampled b [] with seq := (s.sampled b []).seq.withTodo [.readWait r (polls + 1)] } := by
  simp only [runOps, doOp, waitBusyClear_single polls hq]
  cases b with
  | false => rfl
  | true => cases boundReached s.cfg.waitBound (polls + 1) <;> rfl

/-- `RP_RDREG` with no sample queued: the frame is sent, and the command stands in its wait with the response (R123). -/
theorem runOps_readResult_stands (head filler : Byte) {s : State} (hq : s.env.busy = []) :
    runOps [.readResult head filler] s = { (s.sendFrame [head, filler]).2 with
      seq := (s.sendFrame [head, filler]).2.seq.withTodo [.readWait ((s.env.answers 2).1.getD 1 0#8) 0] } := by
  have stands := waitBusyClear_empty 0 (s := (s.sendFrame [head, filler]).2) (by simpa using hq)
  simp only [runOps, doOp, State.readFrame_state, State.readFrame_response, stands]

/-- A command that stands in the wait of `RP_RDREG` with nothing queued takes one free sample in a step (R31, R206). -/
theorem step_readWait_free {s : State} {c : Instr} {k : Nat} {r : Byte} (hw : wellFormedConfig s.cfg = true)
    (hs : s.seq = .running c k [.readWait r 0]) (hq : s.env.busy = []) :
    ∃ u, step s = .next u ∧ u.trace = s.trace ++ [.busy (Config.busyAnswer s.env.busyCount)] ∧
      (Config.busyAnswer s.env.busyCount = false → Ended s u (.okValue r)) ∧
      (Config.busyAnswer s.env.busyCount = true → s.cfg.waitBound = some 1 → Ended s u .deviceTimeout) ∧
      (Config.busyAnswer s.env.busyCount = true → (∀ n, s.cfg.waitBound = some n → 2 ≤ n) →
        u.returned = s.returned ∧ u.seq = .running c (k + 1) [.readWait r 1]) := by
  have goes := step_running hw (by simp [hs])
  rw [resume_of_running hs, if_pos hq, runOps_readWait_single r 0 (s := s.nextBusy) rfl] at goes
  generalize Config.busyAnswer s.env.busyCount = b at goes ⊢
  refine ⟨_, goes, ?_, ?_, ?_, ?_⟩
  · split
    · rfl
    · split <;> rfl
  · rintro rfl
    exact ⟨rfl, rfl, rfl, rfl, rfl, rfl⟩
  · rintro rfl hone
    have reached : boundReached s.nextBusy.cfg.waitBound (0 + 1) = true := by simp [boundReached, hone]
    simp only [Bool.true_eq_false, if_false, reached, if_true]
    exact ⟨rfl, rfl, rfl, rfl, rfl, rfl⟩
  · rintro rfl htwo
    have under : boundReached s.nextBusy.cfg.waitBound (0 + 1) = false :=
      underBound_of_lt (polls := 0) (j := 1) htwo 1 (by omega) (by omega)
    simp only [Bool.true_eq_false, if_false, under, Bool.false_eq_true]
    exact ⟨rfl, by simp [hs, Seq.tick_eq]⟩

/-- R123, R206: the frame of `RP_RDREG` takes two free answers, and the command stands with the second, 4 primitives
counted. -/
theorem exec_rpRdreg_free {s : State} {addr : Byte} (hopen : Open s) (haddr : s.cfg.strict = true → addr.toNat < 0x80)
    (hx : s.env.xfer = []) (hq : s.env.busy = []) :
    ∃ t, exec (.rpRdreg addr) s = .next t ∧ Untouched s t ∧
      t.trace = s.trace ++ frameEvents [addr ||| readFlag, s.cfg.filler]
        [Config.xferAnswer s.env.xferCount, Config.xferAnswer (s.env.xferCount + 1)] ∧
      t.seq = .running (.rpRdreg addr) 4 [.readWait (Config.xferAnswer (s.env.xferCount + 1)) 0] ∧
      t.env = { s.env with xferCount := s.env.xferCount + 2 } := by
  have runs := exec_runs (i := .rpRdreg addr) hopen.1 (fun hst => ⟨fun _ => hopen.2 hst, decide_eq_true (haddr hst)⟩) rfl
  rw [bodyOf, runOps_readResult_stands _ _ (by simpa using hq)] at runs
  refine ⟨_, runs, (untouched_accepted (.rpRdreg addr) s).trans ?_, ?_, ?_, ?_⟩
  · constructor <;> simp
  all_goals simp [answers_free hx]

/-- What ends a command that stands ends it for the block that accepted it. -/
theorem Untouched.ended_later {s t u : State} {r : Result} (h : Untouched s t) (k : Ended t u r) : Ended s u r := by
  obtain ⟨hres, hret, hseq, hcfg, hwords, hframes⟩ := k
  exact ⟨hres, h.returned ▸ hret, hseq, hcfg.trans h.cfg, hwords.trans h.hostIn, hframes.trans h.frameIn⟩

/-- Settles O36: the frame takes two free answers and the wait stands; the next step takes one free sample. -/
theorem freeAnswersDecide : Obligations.FreeAnswersDecide := by
  intro s addr hopen haddr hx hq
  obtain ⟨t, stands, kept, htrace, hseq, henv⟩ := exec_rpRdreg_free hopen haddr hx hq
  have hw : wellFormedConfig t.cfg = true := kept.cfg ▸ hopen.1.1
  obtain ⟨u, hstep, hsample, hclear, hone, htwo⟩ := step_readWait_free hw hseq (by rw [henv]; exact hq)
  rw [kept.cfg] at hone htwo
  rw [henv] at hsample hclear hone htwo
  refine ⟨t, u, stands, kept.returned, htrace, hseq, hstep, hsample, fun hb => kept.ended_later (hclear hb),
    fun hb hn => kept.ended_later (hone hb hn), fun hb hn => ?_⟩
  obtain ⟨hret, hstand⟩ := htwo hb hn
  exact ⟨hret.trans kept.returned, hstand⟩

end Sys2Proof.Machine
end

section
/-! What the hazards of a stopped render leave in `FB` (70_reset_and_hazards.md R232, R233), and the reset state (R220). -/

namespace Sys2Proof.Machine

/-! ## The recipes write `FB` with `Invert()` alone (R170 to R175) -/

/-- Statements that write `FB` with `Invert()` or not at all. -/
def OnlyInverts (ops : List Op) : Prop := ∀ op ∈ ops, quiet op = true ∨ op = .invert

namespace OnlyInverts

theorem of_quiet {ops : List Op} (h : ∀ op ∈ ops, quiet op = true) : OnlyInverts ops := fun op ho => .inl (h op ho)

theorem nil : OnlyInverts [] := of_quiet (by simp)

theorem append {a b : List Op} (ha : OnlyInverts a) (hb : OnlyInverts b) : OnlyInverts (a ++ b) :=
  List.forall_mem_append.2 ⟨ha, hb⟩

theorem repeatOps {ops : List Op} (h : OnlyInverts ops) (n : Nat) : OnlyInverts (repeatOps n ops) :=
  fun op ho => h op (mem_repeatOps ho)

theorem invert : OnlyInverts [.invert] := fun _ ho => .inr (List.mem_singleton.1 ho)

theorem delay (n : Nat) : OnlyInverts [.delay n] := of_quiet (by simp [quiet])

theorem setCV (c : Config) (v : Int) : OnlyInverts (setCV c v) := of_quiet (by simp [Machine.setCV, writeReg, quiet])

theorem setSV (c : Config) (sv : Nat) : OnlyInverts (setSV c sv) := of_quiet (by simp [Machine.setSV, writeReg, quiet])

theorem writePrev (c : Config) (l : Level) : OnlyInverts (writePrev c l) :=
  of_quiet (by simp [Machine.writePrev, writeBuf, writeReg, streamOps, quiet])

theorem update (c : Config) (mode : UpdateMode) : OnlyInverts (update c mode false) :=
  of_quiet (by simp [Machine.update, writeBuf, writeReg, streamOps, powerOn, powerOff, quiet])

theorem pass (c : Config) (l : Level) (mode : UpdateMode) : OnlyInverts (pass c l mode) :=
  (writePrev c l).append (update c mode)

theorem redBlock (c : Config) : OnlyInverts (redBlock c) := by
  have flip : OnlyInverts [.invert, .delay 10] := invert.append (delay 10)
  have half (v : Int) := (((writePrev c .lightGray).append (setCV c v)).append (update c .mono)).append flip
  have both := (half 10000).append (half (-10000))
  simp only [← List.append_assoc] at both
  exact both.repeatOps 2

theorem recipe (c : Config) (col : Colour) : OnlyInverts (recipe c col) := by
  have bw : OnlyInverts (renderBW c) :=
    ((((setCV c _).append (setSV c _)).append invert).append (((pass c _ _).append (pass c _ _)).repeatOps 5)).append invert
  cases col with
  | black => exact bw
  | white => exact bw
  | yellow => exact ((setCV c _).append (setSV c _)).append ((pass c _ _).repeatOps 3)
  | green => exact ((setCV c _).append (setSV c _)).append ((pass c _ _).repeatOps 3)
  | red => exact (setSV c _).append (redBlock c)
  | blue =>
    have lead : OnlyInverts (if c.blueLeadingSv then Machine.setSV c 10000 else []) := by
      split
      · exact setSV c _
      · exact nil
    exact ((((lead.append (redBlock c)).append (setSV c _)).append (setCV c _)).append invert).append
      (((pass c _ _).append (delay 1)).repeatOps 2)

/-- A code that names no colour has no recipe (R168). -/
theorem bodyOf_wsRender (c : Config) (code : BitVec 3) : OnlyInverts (bodyOf c (.wsRender code)) := by
  simp only [bodyOf, renderOps]
  split
  · exact recipe c _
  · exact nil

end OnlyInverts

/-! ## `FB` up to its complement -/

/-- From `s` to `t` a well-formed `FB` keeps its form, and is as it was or complemented. -/
def SameOrInverted (s t : State) : Prop :=
  t.cfg = s.cfg ∧ (FbOk s → FbOk t ∧ (t.fb = s.fb ∨ t.fb = fbInverted s.cfg s.fb))

theorem SameOrInverted.same {s t : State} (hcfg : t.cfg = s.cfg) (hfb : t.fb = s.fb) : SameOrInverted s t :=
  ⟨hcfg, fun h => ⟨by rwa [FbOk, hcfg, hfb], .inl hfb⟩⟩

theorem SameOrInverted.invertFb (s : State) : SameOrInverted s s.invertFb :=
  ⟨rfl, fun _ => ⟨⟨fbInverted_wf s.cfg s.fb, fbInverted_inRange s.cfg s.fb⟩, .inr rfl⟩⟩

/-- Complementing twice gives back `FB` (R109), so that no number of inversions leaves a third value. -/
theorem SameOrInverted.trans {s t u : State} : SameOrInverted s t → SameOrInverted t u → SameOrInverted s u := by
  rintro ⟨hcfg, hst⟩ ⟨hcfg', htu⟩
  refine ⟨hcfg'.trans hcfg, fun hs => ?_⟩
  obtain ⟨ht, h⟩ := hst hs
  obtain ⟨hu, h'⟩ := htu ht
  rw [hcfg] at h'
  refine ⟨hu, ?_⟩
  rcases h with h | h <;> rw [h] at h'
  · exact h'
  · rw [fbInverted_fbInverted hs.1 hs.2] at h'
    exact h'.symm

theorem keeps_sameOrInverted {ops : List Op} (h : OnlyInverts ops) : Keeps ops SameOrInverted where
  refl _ := .same rfl rfl
  trans := SameOrInverted.trans
  frame bytes s := .same (State.sendFrame_cfg bytes s) (State.sendFrame_fb bytes s)
  busy _ _ _ := .same rfl rfl
  power _ _ _ := .same rfl rfl
  reset _ _ _ := .same rfl rfl
  delay _ _ _ := .same rfl rfl
  clear _ hc := by simpa [quiet] using h _ hc
  invert _ := .invertFb
  seg _ _ hs := by simpa [quiet] using h _ hs
  configured _ _ := .same rfl rfl

/-! ## The statements -/

/-- Settles O48: a failed check leaves `FB`, and the statements of a recipe leave it up to its complement wherever the
run ends or stands. -/
theorem renderKeepsFbUpToComplement : Obligations.RenderKeepsFbUpToComplement := by
  intro s t code hr hfb he
  rcases hr.answer he with ⟨-, -, -, rfl⟩ | ⟨-, -, rfl⟩ | rfl
  · exact .inl rfl
  · exact .inl rfl
  · have run : SameOrInverted s (runOps (bodyOf s.cfg (.wsRender code)) (s.accepted (.wsRender code))) := by
      have accepted : SameOrInverted s (s.accepted (.wsRender code)) := .same rfl rfl
      rcases (keeps_sameOrInverted (.bodyOf_wsRender s.cfg code)).runOps (s.accepted (.wsRender code)) with
        ⟨r, u, e, hu⟩ | ⟨todo, u, e, hu⟩ <;> rw [e] <;> exact (accepted.trans hu).trans (.same rfl rfl)
    refine (run.2 hfb).2.imp_right fun inverted a => ?_
    rw [inverted, read_fbInverted_of_inRange hfb.2]

/-- Settles O55: the reset state is an idle block to which nothing is presented. -/
theorem resetState : Obligations.ResetState := fun c fb =>
  have quiescent (hw : wellFormedConfig c = true) :
      step (State.resetWith c fb) = .next (State.resetWith c fb) :=
    idleBlockDoesNothing (State.resetWith c fb) (State.resetWith c fb).env ⟨hw, rfl⟩ rfl rfl
  ⟨rfl, rfl, rfl, rfl, rfl, rfl, rfl, rfl, rfl, rfl, quiescent⟩

end Sys2Proof.Machine
end

section
/-! What an idle block is given runs: a wire frame put on the bus by itself (30_encoding.md R75 to R79), and a word put
where the step fetches. -/

namespace Sys2Proof.Machine

/-! ## What the step fetches -/

/-- Settles O13. -/
theorem stepRunsTheFrame : Obligations.StepRunsTheFrame := by
  rintro s f rest i ⟨hw, hs⟩ hframes hdecode
  simp [step, hw, hs, hframes, hdecode]

theorem State.withFetchWord_command (s : State) (w : Nat) : s.withFetchWord 56 w =
    { s with seq := .idle, frameIn := [], hostIn := BitVec.ofNat 56 w :: s.hostIn } := rfl

theorem State.withFetchWord_frame (s : State) (w : Nat) : s.withFetchWord 8 w =
    { s with seq := .idle, frameIn := frameOfFirstByte s.cfg.nStream (BitVec.ofNat 8 w) :: s.frameIn } := rfl

/-- Settles O14: the word is the next command of an idle block on whose bus no frame stands, or its frame is the next. -/
theorem fetchWordRunsNext : Obligations.FetchWordRunsNext := by
  refine fun s w i hw => ⟨fun hdecode => ?command, fun hdecode => ?frame⟩
  case command =>
    rw [State.withFetchWord_command]
    exact stepRunsTheCommand _ _ s.hostIn i ⟨hw, rfl⟩ rfl rfl hdecode
  case frame =>
    rw [State.withFetchWord_frame]
    exact stepRunsTheFrame _ _ s.frameIn i ⟨hw, rfl⟩ rfl hdecode

/-! ## One transaction -/

/-- R121, R206: the wait of a frame clears in time. -/
theorem responsive_frame_iff {s : State} {bytes : List Byte} : Responsive s [frameCoarse bytes, .waitBusy] ↔
    ∃ j rest, s.env.busy = List.replicate j true ++ false :: rest ∧ ∀ n, s.cfg.waitBound = some n → j < n := by
  have once : [frameCoarse bytes, .waitBusy].count .waitBusy = 1 := by
    have sends : frameCoarse bytes ≠ .waitBusy := by
      cases bytes with
      | nil => exact Coarse.noConfusion
      | cons b rest => rw [frameCoarse]; cases frameKind b <;> exact Coarse.noConfusion
    rw [List.count_cons_of_ne sends, List.count_singleton_self]
  simp [Responsive, once, busyClears]

/-- What an instruction answers whose body is one frame and its wait, when that wait clears (R75, R120). -/
theorem frame_completes {i : Instr} {s : State} {bytes : List Byte} (hbody : bodyOf s.cfg i = [.frame bytes, .wait 0])
    (he : exec i s = .next (runOps (bodyOf s.cfg i) (s.accepted i)))
    (hresp : Responsive s [frameCoarse bytes, .waitBusy]) :
    ∃ t, exec i s = .next t ∧ Ended s t .ok ∧ Ran s t [frameCoarse bytes, .waitBusy] ∧
      t.fb = s.fb ∧ t.ps = s.ps ∧ t.configured = s.configured ∧ t.cs = .high ∧ t.rst = s.rst ∧
      t.dev = Device.see s.cfg s.dev (frameCoarse bytes) := by
  obtain ⟨j, rest, hq, hb⟩ := responsive_frame_iff.1 hresp
  rw [hbody, runOps_transaction_clear (s := s.accepted i) [] hq hb] at he
  have sent := (reached_accepted i s).clear bytes j rest
  obtain ⟨t, ht, hend, hran, hfb, hps, hconf, hcs, hrst⟩ := sent.answer (State.transacted_cs ..) he
  obtain rfl := Host.Outcome.next.inj (he.symm.trans ht)
  refine ⟨_, he, hend, hran, hfb, hps, hconf, hcs, hrst, ?_⟩
  simp [runOps, State.transacted, see_coarseFrame]

/-! ## The three wire frames -/

theorem frameCoarse_writeFrameHead {a : BitVec 7} (h10 : a ≠ 0x10#7) (ops : List Byte) :
    frameCoarse (writeFrameHead a :: ops) = .wr a ops := by
  rw [frameCoarse, frameKind_writeFrameHead h10]

theorem frameCoarse_readFrameHead (a : BitVec 7) (f : Byte) : frameCoarse [readFrameHead a, f] = .rd a none := by
  rw [frameCoarse, frameKind_readFrameHead]

/-- Settles O32: the body is one transaction, whose first byte names the register that is written. -/
theorem registerWriteFrame : Obligations.RegisterWriteFrame := by
  intro s addr ops hr h10 _ hresp
  rw [← frameCoarse_writeFrameHead h10] at hresp ⊢
  exact frame_completes rfl (exec_runs hr (fun _ => ⟨Bool.noConfusion, rfl⟩) rfl) hresp

/-- Settles O33: the body is one transaction, whose second answer is the result; the shadow does not see a read. -/
theorem registerReadFrame : Obligations.RegisterReadFrame := by
  intro s addr filler a r more j rest hr hx hq hb
  have runs := exec_runs (i := .wRdreg addr filler) hr (fun _ => ⟨Bool.noConfusion, rfl⟩) rfl
  rw [bodyOf, runOps_read_clear (s := s.accepted _) hx hq hb] at runs
  obtain ⟨t, he, hend, htrace, henv, hfb, hps, hconf, hcs, hrst, hdev⟩ := transaction_answer (rs := [a, r]) runs hx rfl
  rw [frameCoarse_readFrameHead] at hdev
  exact ⟨t, he, hend, by simpa [readFrameHead] using htrace, henv, hfb, hps, hconf, hcs, hrst, hdev⟩

/-- R207: a whole stream replaces the buffer that the pointer selects. -/
theorem Device.streamed_current {c : Config} {data : List Byte} {d : Device} (hl : data.length = c.nStream)
    (hwp : d.wp = some .current) : d.streamed c data = { d with cur := some data } := by
  simp [Device.streamed, hl, hwp]

theorem Device.streamed_previous {c : Config} {data : List Byte} {d : Device} (hl : data.length = c.nStream)
    (hwp : d.wp = some .previous) : d.streamed c data = { d with prev := some data } := by
  simp [Device.streamed, hl, hwp]

/-- Settles O34: the body is one transaction, and the shadow sees its stream fill the buffer that the pointer selects. -/
theorem bufferWriteFrame : Obligations.BufferWriteFrame := by
  intro s data hr hl hresp
  obtain ⟨t, he, hend, hran, hfb, hps, hconf, hcs, hrst, hdev⟩ := frame_completes (i := .wWrbuf data) rfl
    (exec_runs hr (fun _ => ⟨Bool.noConfusion, rfl⟩) rfl) hresp
  exact ⟨t, he, hend, hran, hfb, hps, hconf, hcs, hrst,
    fun hwp => hdev.trans (Device.streamed_current hl hwp), fun hwp => hdev.trans (Device.streamed_previous hl hwp)⟩

end Sys2Proof.Machine
end

section
/-! Fixed words of 95_test_vectors.md, and the reset state of the example configuration (70_reset_and_hazards.md R220). -/

namespace Sys2Proof

/-- Settles O5: the words have the rows of those commands, and the frames are their encodings. -/
theorem vectorWordsDecode : Obligations.VectorWordsDecode :=
  ⟨decode_of_hasFields ⟨rfl, rfl, rfl⟩, decode_of_hasFields ⟨rfl, rfl, rfl⟩,
    decode_of_hasFields ⟨rfl, rfl, rfl, rfl, rfl, rfl, rfl⟩, decode_of_hasFields ⟨rfl, rfl, rfl, rfl⟩,
    decode_of_hasFields ⟨rfl, rfl, rfl⟩, decode_of_hasFields ⟨rfl, rfl⟩, rfl,
    decodeFrame_eq_ok_iff.2 ⟨rfl, rfl⟩, decodeFrame_eq_ok_iff.2 ⟨rfl, rfl⟩⟩

namespace Machine

/-! ## Any reset state -/

theorem framed_resetWith (c : Config) (fb : Memory) : Framed (State.resetWith c fb) := ⟨rfl, rfl⟩

theorem classified_resetWith (c : Config) (fb : Memory) : Classified (State.resetWith c fb) :=
  fun _ => ⟨fun _ hf => absurd hf List.not_mem_nil, fun _ _ _ hrun => Seq.noConfusion hrun⟩

theorem shadowOk_resetWith (c : Config) (fb : Memory) : ShadowOk (State.resetWith c fb) := ⟨framed_resetWith c fb, rfl⟩

/-! ## The reset state of the example configuration -/

/-- Settles O56: nothing has been sent, `FB` lists no byte, and the table of `EX` has its primary bytes below the stride. -/
theorem invariantsAtReset : Obligations.InvariantsAtReset := by
  have fbOk : FbOk State.reset := ⟨rfl, fun _ hx => absurd hx List.not_mem_nil⟩
  have separate : TilesSeparate Config.ex := tilesSeparate_of_stride (segByte_of_unit_byte rfl) (by decide)
  exact ⟨fbOk, framed_resetWith _ _, classified_resetWith _ _, shadowOk_resetWith _ _, fbOk, separate,
    fun _ _ _ _ => rfl, fun _ _ _ hrun => Seq.noConfusion hrun⟩

end Machine
end Sys2Proof
end
